-- ==== Sys2Proof/Word.lean ====
section
/-! DEFINITION. The words of the machine: 48-bit words, 15-bit addresses, 24-bit instructions, 96-bit
double registers (spec/00_scope.md R2, R6, R8; spec/10_state.md R21). -/

namespace Sys2Proof

/-- A storage word, and the contents of A, Q and U1: 48 bits (R6). -/
abbrev Word := BitVec 48

/-- A storage address, an execution address, and the contents of an index register or of P: 15 bits (R6). -/
abbrev Addr := BitVec 15

/-- One instruction: half a storage word, 24 bits (R100, R101). -/
abbrev InstrBits := BitVec 24

/-- The double registers AQ and QA: 96 bits (R21). -/
abbrev DoubleWord := BitVec 96

end Sys2Proof
end

