-- ==== Sys2Proof/Syntax.lean ====
section
/-! DEFINITION. The instructions of the CONTROL DATA 1604-A: one constructor for every row of
spec/opcode_table.json, the two illegal codes among them (spec/30_encoding.md R100 to R107). -/

namespace Sys2Proof

/-- The six index registers B1 to B6 (R23). -/
inductive IndexReg where
  | b1 | b2 | b3 | b4 | b5 | b6
  deriving DecidableEq, Repr

/-- The index designator b (R76): 0 direct, 1 to 6 an index register, 7 indirect. -/
inductive Designator where
  | direct
  | index (r : IndexReg)
  | indirect
  deriving DecidableEq, Repr

/-- The six buffer channels: 1, 3, 5 input, 2, 4, 6 output (R300). -/
inductive Channel where
  | c1 | c2 | c3 | c4 | c5 | c6
  deriving DecidableEq, Repr

/-- Bit 2 of a jump designator j: normal jump (j = 0 to 3) or return jump (j = 4 to 7) (R103, R235). -/
inductive JumpKind where
  | normal
  | ret
  deriving DecidableEq, Repr

/-- The low two bits of j for AJP and QJP: the condition of the register (R236). -/
inductive RegCond where
  | zero | nonzero | plus | minus
  deriving DecidableEq, Repr

/-- The low two bits of j for SLJ and SLS: unconditional, or the number of a selective key (R237). -/
inductive KeyCond where
  | always | key1 | key2 | key3
  deriving DecidableEq, Repr

/-- The sub-function j of EXF (R309): 0 select, 1 to 6 activate that buffer channel, 7 sense. -/
inductive ExfFunction where
  | select
  | activate (c : Channel)
  | sense
  deriving DecidableEq, Repr

/-- One instruction: the operation code with its designator and its execution address (R100, R104). -/
inductive Instr where
  | zro (b : Designator) (m : Addr)
  | ars (b : Designator) (k : Addr)
  | qrs (b : Designator) (k : Addr)
  | lrs (b : Designator) (k : Addr)
  | enq (b : Designator) (y : Addr)
  | als (b : Designator) (k : Addr)
  | qls (b : Designator) (k : Addr)
  | lls (b : Designator) (k : Addr)
  | ena (b : Designator) (y : Addr)
  | ina (b : Designator) (y : Addr)
  | lda (b : Designator) (m : Addr)
  | lac (b : Designator) (m : Addr)
  | add (b : Designator) (m : Addr)
  | sub (b : Designator) (m : Addr)
  | ldq (b : Designator) (m : Addr)
  | lqc (b : Designator) (m : Addr)
  | sta (b : Designator) (m : Addr)
  | stq (b : Designator) (m : Addr)
  | ajp (j : JumpKind) (c : RegCond) (m : Addr)
  | qjp (j : JumpKind) (c : RegCond) (m : Addr)
  | mui (b : Designator) (m : Addr)
  | dvi (b : Designator) (m : Addr)
  | muf (b : Designator) (m : Addr)
  | dvf (b : Designator) (m : Addr)
  | fad (b : Designator) (m : Addr)
  | fsb (b : Designator) (m : Addr)
  | fmu (b : Designator) (m : Addr)
  | fdv (b : Designator) (m : Addr)
  | sca (b : Designator) (k : Addr)
  | scq (b : Designator) (k : Addr)
  | ssk (b : Designator) (m : Addr)
  | ssh (b : Designator) (m : Addr)
  | sst (b : Designator) (m : Addr)
  | scl (b : Designator) (m : Addr)
  | scm (b : Designator) (m : Addr)
  | ssu (b : Designator) (m : Addr)
  | ldl (b : Designator) (m : Addr)
  | adl (b : Designator) (m : Addr)
  | sbl (b : Designator) (m : Addr)
  | stl (b : Designator) (m : Addr)
  | eni (b : Designator) (y : Addr)
  | ini (b : Designator) (y : Addr)
  | liu (b : Designator) (m : Addr)
  | lil (b : Designator) (m : Addr)
  | isk (b : Designator) (y : Addr)
  | ijp (b : Designator) (m : Addr)
  | siu (b : Designator) (m : Addr)
  | sil (b : Designator) (m : Addr)
  | sau (b : Designator) (m : Addr)
  | sal (b : Designator) (m : Addr)
  | int (b : Designator) (m : Addr)
  | out (b : Designator) (m : Addr)
  | eqs (b : Designator) (m : Addr)
  | ths (b : Designator) (m : Addr)
  | meq (b : Designator) (m : Addr)
  | mth (b : Designator) (m : Addr)
  | rad (b : Designator) (m : Addr)
  | rsb (b : Designator) (m : Addr)
  | rao (b : Designator) (m : Addr)
  | rso (b : Designator) (m : Addr)
  | exf (j : ExfFunction) (y : Addr)
  | slj (j : JumpKind) (c : KeyCond) (m : Addr)
  | sls (j : JumpKind) (c : KeyCond) (m : Addr)
  | sev (b : Designator) (m : Addr)
  deriving DecidableEq, Repr

end Sys2Proof
end

