-- ==== Sys2Proof/Machine/Codes.lean ====
section
/-! DEFINITION. The external function codes: the fields of a code and the lists of internal and console codes
(spec/49_transfer_and_external_function.md R310, R318, R319, R334, R335). -/

namespace Sys2Proof.Machine

/-- The eight external interrupt lines (R35): one for each buffer channel, channel 7 output, channel 7 input. -/
inductive Line where
  | channel (c : Channel)
  | out7
  | in7
  deriving DecidableEq, Repr

/-- The CHANNEL field of a code, its high octal digit (R310). -/
def codeChannel (y : Addr) : BitVec 3 := y.extractLsb' 12 3

/-- The EQUIPMENT field of a code (R310). -/
def codeEquipment (y : Addr) : BitVec 3 := y.extractLsb' 9 3

/-- The CONDITION field of a code (R310). -/
def codeCondition (y : Addr) : BitVec 9 := y.extractLsb' 0 9

/-- The buffer channel a code is sent on, if its channel field names one (R310). -/
def codeBufferChannel (y : Addr) : Option Channel :=
  match (codeChannel y).toNat with
  | 1 => some .c1
  | 2 => some .c2
  | 3 => some .c3
  | 4 => some .c4
  | 5 => some .c5
  | 6 => some .c6
  | _ => none

/-- Is the code's channel field 0, so that the computer interprets it itself (R310)? -/
def codeIsInternal (y : Addr) : Bool := codeChannel y == 0#3

/-- What an internal select code does (R318). -/
inductive InternalSelect where
  /-- `000C0`, `000C1`: select, remove, the interrupt on channel C inactive. -/
  | interruptInactive (c : Channel) (on : Bool)
  /-- `00100`, `00101`: select, remove, the interrupt on arithmetic faults. -/
  | interruptFaults (on : Bool)
  /-- `00070`: clear all arithmetic faults. -/
  | clearFaults
  /-- `01000`, `02000`: start, stop, the real-time clock. -/
  | clock (on : Bool)
  /-- `00200`: clear the Carriage-Return-Typed indicator. -/
  | clearCarriageReturn
  deriving DecidableEq, Repr

/-- The internal select codes with channel field 0 (R318). `C0000` stands in `clearChannelCode`. -/
def selectTable : List (Addr × InternalSelect) :=
  [ (0o10#15, .interruptInactive .c1 true), (0o11#15, .interruptInactive .c1 false),
    (0o20#15, .interruptInactive .c2 true), (0o21#15, .interruptInactive .c2 false),
    (0o30#15, .interruptInactive .c3 true), (0o31#15, .interruptInactive .c3 false),
    (0o40#15, .interruptInactive .c4 true), (0o41#15, .interruptInactive .c4 false),
    (0o50#15, .interruptInactive .c5 true), (0o51#15, .interruptInactive .c5 false),
    (0o60#15, .interruptInactive .c6 true), (0o61#15, .interruptInactive .c6 false),
    (0o100#15, .interruptFaults true), (0o101#15, .interruptFaults false),
    (0o70#15, .clearFaults),
    (0o1000#15, .clock true), (0o2000#15, .clock false),
    (0o200#15, .clearCarriageReturn) ]

/-- The internal select a code with channel field 0 stands for; none if it is in no list (R321). -/
def internalSelect (y : Addr) : Option InternalSelect := selectTable.lookup y

/-- `C0000`, C = 1 to 6: clear all channel C selections (R318). -/
def clearChannelCode (y : Addr) : Option Channel :=
  if y.extractLsb' 0 12 = 0#12 then codeBufferChannel y else none

/-- The condition that the even code of an internal sense pair tests (R319). -/
inductive InternalCondition where
  | active (c : Channel)
  | divideFault
  | shiftFault
  | overflowFault
  | exponentFault
  | line (l : Line)
  | exitOnLower
  | clockOverflow
  deriving DecidableEq, Repr

/-- The even codes of the internal sense pairs (R319). -/
def senseTable : List (Addr × InternalCondition) :=
  [ (0o10#15, .active .c1), (0o20#15, .active .c2), (0o30#15, .active .c3),
    (0o40#15, .active .c4), (0o50#15, .active .c5), (0o60#15, .active .c6),
    (0o110#15, .divideFault), (0o120#15, .shiftFault), (0o130#15, .overflowFault),
    (0o140#15, .exponentFault),
    (0o1000#15, .line (.channel .c1)), (0o2000#15, .line (.channel .c2)),
    (0o3000#15, .line (.channel .c3)), (0o4000#15, .line (.channel .c4)),
    (0o5000#15, .line (.channel .c5)), (0o6000#15, .line (.channel .c6)),
    (0o160#15, .line .out7), (0o170#15, .line .in7),
    (0o200#15, .exitOnLower), (0o300#15, .clockOverflow) ]

/-- The even code of the pair a code belongs to: the two differ in the lowest bit (R314). -/
def evenCode (y : Addr) : Addr := y.extractLsb' 1 14 ++ 0#1

/-- Is it the odd code of its pair, which exits fully when the named condition is absent (R314)? -/
def isOddCode (y : Addr) : Bool := y.getLsbD 0

/-- The condition that an internal sense code names; none if the code is in no list (R321). -/
def internalCondition (y : Addr) : Option InternalCondition := senseTable.lookup (evenCode y)

/-- What a console select code does (R334). -/
inductive ConsoleSelect where
  /-- `11100`, `11140`: the typewriter for input, without or with interrupt on carriage return. -/
  | keyboard (interrupt : Bool)
  /-- `11200`, `11220`: the paper tape reader, without or with interrupt on end of tape. -/
  | reader (interrupt : Bool)
  /-- `11210`: set the End of Tape indicator. -/
  | setEndOfTape
  /-- `21100`, `21110`: the typewriter for output in the assembly or the character mode. -/
  | typewriterOutput (assembly : Bool)
  /-- `21200`, `21210`: the paper tape punch, assembly or character mode. -/
  | punch (assembly : Bool)
  /-- `21240`: turn the punch motor off. -/
  | punchMotorOff
  deriving DecidableEq, Repr

/-- The console select codes (R334). -/
def consoleSelectTable : List (Addr × ConsoleSelect) :=
  [ (0o11100#15, .keyboard false), (0o11140#15, .keyboard true),
    (0o11200#15, .reader false), (0o11210#15, .setEndOfTape), (0o11220#15, .reader true),
    (0o21100#15, .typewriterOutput true), (0o21110#15, .typewriterOutput false),
    (0o21200#15, .punch true), (0o21210#15, .punch false), (0o21240#15, .punchMotorOff) ]

/-- The console select a code stands for, if it is one (R334). -/
def consoleSelect (y : Addr) : Option ConsoleSelect := consoleSelectTable.lookup y

/-- The condition that the even code of a console sense pair tests (R335). -/
inductive ConsoleCondition where
  | carriageReturn
  | lowerCase
  | endOfTape
  | assemblyMode
  | outOfTape
  deriving DecidableEq, Repr

/-- The even codes of the console sense pairs (R335). -/
def consoleSenseTable : List (Addr × ConsoleCondition) :=
  [ (0o11100#15, .carriageReturn), (0o11140#15, .lowerCase), (0o11200#15, .endOfTape),
    (0o11210#15, .assemblyMode), (0o21200#15, .outOfTape) ]

/-- The console condition that a sense code names, if it is a console code (R335). -/
def consoleCondition (y : Addr) : Option ConsoleCondition := consoleSenseTable.lookup (evenCode y)

end Sys2Proof.Machine
end

