-- ==== Sys2Proof/WellFormed.lean ====
section
/-! DEFINITION. Which instructions are well formed. Every designator and address is defined for every
operation code (R107); the one part of the encoding with undefined values is the external function code of a
select or a sense, which must stand in the lists (R321). The machine runs the others too (log 20): this check
says which instructions the spec gives their whole effect. -/

namespace Sys2Proof

/-- A select code is listed: an internal one (R318), or one sent to buffer channel 1 to 6, whose meaning is the
equipment's (R320). Channel field 7 is in no list (R310, R321). -/
def selectCodeListed (y : Addr) : Bool :=
  if Machine.codeIsInternal y then (Machine.internalSelect y).isSome
  else (Machine.codeBufferChannel y).isSome

/-- A sense code is listed: an internal one (R319), or one sent to buffer channel 1 to 6 (R320). -/
def senseCodeListed (y : Addr) : Bool :=
  if Machine.codeIsInternal y then (Machine.internalCondition y).isSome
  else (Machine.codeBufferChannel y).isSome

/-- The instruction is one the spec gives its whole meaning (R107, R321). -/
def Instr.wellFormed : Instr → Bool
  | .exf .select y => selectCodeListed y
  | .exf .sense y => senseCodeListed y
  | .exf (.activate _) _ => true
  | .zro _ _ | .ars _ _ | .qrs _ _ | .lrs _ _ | .enq _ _ | .als _ _ | .qls _ _ | .lls _ _ => true
  | .ena _ _ | .ina _ _ | .lda _ _ | .lac _ _ | .add _ _ | .sub _ _ | .ldq _ _ | .lqc _ _ => true
  | .sta _ _ | .stq _ _ | .ajp _ _ _ | .qjp _ _ _ | .mui _ _ | .dvi _ _ | .muf _ _ | .dvf _ _ => true
  | .fad _ _ | .fsb _ _ | .fmu _ _ | .fdv _ _ | .sca _ _ | .scq _ _ | .ssk _ _ | .ssh _ _ => true
  | .sst _ _ | .scl _ _ | .scm _ _ | .ssu _ _ | .ldl _ _ | .adl _ _ | .sbl _ _ | .stl _ _ => true
  | .eni _ _ | .ini _ _ | .liu _ _ | .lil _ _ | .isk _ _ | .ijp _ _ | .siu _ _ | .sil _ _ => true
  | .sau _ _ | .sal _ _ | .int _ _ | .out _ _ | .eqs _ _ | .ths _ _ | .meq _ _ | .mth _ _ => true
  | .rad _ _ | .rsb _ _ | .rao _ _ | .rso _ _ | .slj _ _ _ | .sls _ _ _ | .sev _ _ => true

end Sys2Proof
end

