-- ==== Sys2Proof/Decode.lean ====
section
/-! DEFINITION. Decoding an instruction from its 24 bits, and encoding it
(spec/30_encoding.md R100 to R104, R106; spec/opcode_table.json). -/

namespace Sys2Proof

/-- The operation code f, bits 23 to 18 (R100). -/
def opcodeField (w : InstrBits) : BitVec 6 := w.extractLsb' 18 6

/-- The designator b (or j), bits 17 to 15 (R100). -/
def designatorField (w : InstrBits) : BitVec 3 := w.extractLsb' 15 3

/-- The base execution address, bits 14 to 0 (R100). -/
def addressField (w : InstrBits) : Addr := w.extractLsb' 0 15

/-- The index designator of three bits (R76). -/
def designatorOf (j : BitVec 3) : Designator :=
  match j.toNat with
  | 0 => .direct
  | 1 => .index .b1
  | 2 => .index .b2
  | 3 => .index .b3
  | 4 => .index .b4
  | 5 => .index .b5
  | 6 => .index .b6
  | _ => .indirect

/-- Bit 2 of j (R103). -/
def jumpKindOf (j : BitVec 3) : JumpKind := if j.getLsbD 2 then .ret else .normal

/-- The condition of AJP and QJP: the low two bits of j (R236). -/
def regCondOf (j : BitVec 3) : RegCond :=
  match (j.extractLsb' 0 2).toNat with
  | 0 => .zero
  | 1 => .nonzero
  | 2 => .plus
  | _ => .minus

/-- The condition of SLJ and SLS: the low two bits of j (R237). -/
def keyCondOf (j : BitVec 3) : KeyCond :=
  match (j.extractLsb' 0 2).toNat with
  | 0 => .always
  | 1 => .key1
  | 2 => .key2
  | _ => .key3

/-- The sub-function of EXF (R309). -/
def exfFunctionOf (j : BitVec 3) : ExfFunction :=
  match j.toNat with
  | 0 => .select
  | 1 => .activate .c1
  | 2 => .activate .c2
  | 3 => .activate .c3
  | 4 => .activate .c4
  | 5 => .activate .c5
  | 6 => .activate .c6
  | _ => .sense

/-- The instruction with operation code f, designator bits j and execution address e (R103, R104): every one of
the 2^24 patterns is exactly one row of the table. -/
def decodeFields (f : BitVec 6) (j : BitVec 3) (e : Addr) : Instr :=
  match f.toNat with
  | 0o00 => .zro (designatorOf j) e
  | 0o01 => .ars (designatorOf j) e
  | 0o02 => .qrs (designatorOf j) e
  | 0o03 => .lrs (designatorOf j) e
  | 0o04 => .enq (designatorOf j) e
  | 0o05 => .als (designatorOf j) e
  | 0o06 => .qls (designatorOf j) e
  | 0o07 => .lls (designatorOf j) e
  | 0o10 => .ena (designatorOf j) e
  | 0o11 => .ina (designatorOf j) e
  | 0o12 => .lda (designatorOf j) e
  | 0o13 => .lac (designatorOf j) e
  | 0o14 => .add (designatorOf j) e
  | 0o15 => .sub (designatorOf j) e
  | 0o16 => .ldq (designatorOf j) e
  | 0o17 => .lqc (designatorOf j) e
  | 0o20 => .sta (designatorOf j) e
  | 0o21 => .stq (designatorOf j) e
  | 0o22 => .ajp (jumpKindOf j) (regCondOf j) e
  | 0o23 => .qjp (jumpKindOf j) (regCondOf j) e
  | 0o24 => .mui (designatorOf j) e
  | 0o25 => .dvi (designatorOf j) e
  | 0o26 => .muf (designatorOf j) e
  | 0o27 => .dvf (designatorOf j) e
  | 0o30 => .fad (designatorOf j) e
  | 0o31 => .fsb (designatorOf j) e
  | 0o32 => .fmu (designatorOf j) e
  | 0o33 => .fdv (designatorOf j) e
  | 0o34 => .sca (designatorOf j) e
  | 0o35 => .scq (designatorOf j) e
  | 0o36 => .ssk (designatorOf j) e
  | 0o37 => .ssh (designatorOf j) e
  | 0o40 => .sst (designatorOf j) e
  | 0o41 => .scl (designatorOf j) e
  | 0o42 => .scm (designatorOf j) e
  | 0o43 => .ssu (designatorOf j) e
  | 0o44 => .ldl (designatorOf j) e
  | 0o45 => .adl (designatorOf j) e
  | 0o46 => .sbl (designatorOf j) e
  | 0o47 => .stl (designatorOf j) e
  | 0o50 => .eni (designatorOf j) e
  | 0o51 => .ini (designatorOf j) e
  | 0o52 => .liu (designatorOf j) e
  | 0o53 => .lil (designatorOf j) e
  | 0o54 => .isk (designatorOf j) e
  | 0o55 => .ijp (designatorOf j) e
  | 0o56 => .siu (designatorOf j) e
  | 0o57 => .sil (designatorOf j) e
  | 0o60 => .sau (designatorOf j) e
  | 0o61 => .sal (designatorOf j) e
  | 0o62 => .int (designatorOf j) e
  | 0o63 => .out (designatorOf j) e
  | 0o64 => .eqs (designatorOf j) e
  | 0o65 => .ths (designatorOf j) e
  | 0o66 => .meq (designatorOf j) e
  | 0o67 => .mth (designatorOf j) e
  | 0o70 => .rad (designatorOf j) e
  | 0o71 => .rsb (designatorOf j) e
  | 0o72 => .rao (designatorOf j) e
  | 0o73 => .rso (designatorOf j) e
  | 0o74 => .exf (exfFunctionOf j) e
  | 0o75 => .slj (jumpKindOf j) (keyCondOf j) e
  | 0o76 => .sls (jumpKindOf j) (keyCondOf j) e
  | _ => .sev (designatorOf j) e

/-- The instruction that 24 bits stand for (R103). -/
def decode (w : InstrBits) : Instr := decodeFields (opcodeField w) (designatorField w) (addressField w)

/-- Why the decoder answers no instruction. -/
inductive DecodeError where
  /-- The bits are not those of one 24-bit instruction: there is one length only (R100). -/
  | notTwentyFourBits (nbits : Nat)
  deriving DecidableEq, Repr

/-- The decoder on `nbits` bits whose value is w: total, refusing by name. A word of fewer than 24 bits is the
word with zeros above. -/
def decodeBits (nbits w : Nat) : Except DecodeError Instr :=
  if nbits ≤ 24 then .ok (decode (BitVec.ofNat 24 (w % 2 ^ nbits))) else .error (.notTwentyFourBits nbits)

/-- The instruction the decoder reads from an opcode-table word (bit 0 least significant, as the table numbers). -/
def decodeTableWord (nbits w : Nat) : Option Instr :=
  match decodeBits nbits w with
  | .ok i => some i
  | .error _ => none

/-- The three bits of an index designator (R76). -/
def designatorBits : Designator → BitVec 3
  | .direct => 0#3
  | .index .b1 => 1#3
  | .index .b2 => 2#3
  | .index .b3 => 3#3
  | .index .b4 => 4#3
  | .index .b5 => 5#3
  | .index .b6 => 6#3
  | .indirect => 7#3

/-- Bit 2 of a jump designator (R103). -/
def jumpKindBit : JumpKind → BitVec 1
  | .normal => 0#1
  | .ret => 1#1

/-- The low two bits of the designator of AJP and QJP (R236). -/
def regCondBits : RegCond → BitVec 2
  | .zero => 0#2
  | .nonzero => 1#2
  | .plus => 2#2
  | .minus => 3#2

/-- The low two bits of the designator of SLJ and SLS (R237). -/
def keyCondBits : KeyCond → BitVec 2
  | .always => 0#2
  | .key1 => 1#2
  | .key2 => 2#2
  | .key3 => 3#2

/-- The number of a buffer channel in three bits (R309, R310). -/
def channelBits : Channel → BitVec 3
  | .c1 => 1#3
  | .c2 => 2#3
  | .c3 => 3#3
  | .c4 => 4#3
  | .c5 => 5#3
  | .c6 => 6#3

/-- The three bits of the sub-function of EXF (R309). -/
def exfFunctionBits : ExfFunction → BitVec 3
  | .select => 0#3
  | .activate c => channelBits c
  | .sense => 7#3

/-- The 24 bits of an instruction from its three fields (R100). -/
def instrWord (f : BitVec 6) (j : BitVec 3) (e : Addr) : InstrBits := f ++ j ++ e

/-- The 24 bits that stand for an instruction (R100, R104). -/
def encode : Instr → InstrBits
  | .zro b e => instrWord 0o00#6 (designatorBits b) e
  | .ars b e => instrWord 0o01#6 (designatorBits b) e
  | .qrs b e => instrWord 0o02#6 (designatorBits b) e
  | .lrs b e => instrWord 0o03#6 (designatorBits b) e
  | .enq b e => instrWord 0o04#6 (designatorBits b) e
  | .als b e => instrWord 0o05#6 (designatorBits b) e
  | .qls b e => instrWord 0o06#6 (designatorBits b) e
  | .lls b e => instrWord 0o07#6 (designatorBits b) e
  | .ena b e => instrWord 0o10#6 (designatorBits b) e
  | .ina b e => instrWord 0o11#6 (designatorBits b) e
  | .lda b e => instrWord 0o12#6 (designatorBits b) e
  | .lac b e => instrWord 0o13#6 (designatorBits b) e
  | .add b e => instrWord 0o14#6 (designatorBits b) e
  | .sub b e => instrWord 0o15#6 (designatorBits b) e
  | .ldq b e => instrWord 0o16#6 (designatorBits b) e
  | .lqc b e => instrWord 0o17#6 (designatorBits b) e
  | .sta b e => instrWord 0o20#6 (designatorBits b) e
  | .stq b e => instrWord 0o21#6 (designatorBits b) e
  | .ajp j c m => instrWord 0o22#6 (jumpKindBit j ++ regCondBits c) m
  | .qjp j c m => instrWord 0o23#6 (jumpKindBit j ++ regCondBits c) m
  | .mui b e => instrWord 0o24#6 (designatorBits b) e
  | .dvi b e => instrWord 0o25#6 (designatorBits b) e
  | .muf b e => instrWord 0o26#6 (designatorBits b) e
  | .dvf b e => instrWord 0o27#6 (designatorBits b) e
  | .fad b e => instrWord 0o30#6 (designatorBits b) e
  | .fsb b e => instrWord 0o31#6 (designatorBits b) e
  | .fmu b e => instrWord 0o32#6 (designatorBits b) e
  | .fdv b e => instrWord 0o33#6 (designatorBits b) e
  | .sca b e => instrWord 0o34#6 (designatorBits b) e
  | .scq b e => instrWord 0o35#6 (designatorBits b) e
  | .ssk b e => instrWord 0o36#6 (designatorBits b) e
  | .ssh b e => instrWord 0o37#6 (designatorBits b) e
  | .sst b e => instrWord 0o40#6 (designatorBits b) e
  | .scl b e => instrWord 0o41#6 (designatorBits b) e
  | .scm b e => instrWord 0o42#6 (designatorBits b) e
  | .ssu b e => instrWord 0o43#6 (designatorBits b) e
  | .ldl b e => instrWord 0o44#6 (designatorBits b) e
  | .adl b e => instrWord 0o45#6 (designatorBits b) e
  | .sbl b e => instrWord 0o46#6 (designatorBits b) e
  | .stl b e => instrWord 0o47#6 (designatorBits b) e
  | .eni b e => instrWord 0o50#6 (designatorBits b) e
  | .ini b e => instrWord 0o51#6 (designatorBits b) e
  | .liu b e => instrWord 0o52#6 (designatorBits b) e
  | .lil b e => instrWord 0o53#6 (designatorBits b) e
  | .isk b e => instrWord 0o54#6 (designatorBits b) e
  | .ijp b e => instrWord 0o55#6 (designatorBits b) e
  | .siu b e => instrWord 0o56#6 (designatorBits b) e
  | .sil b e => instrWord 0o57#6 (designatorBits b) e
  | .sau b e => instrWord 0o60#6 (designatorBits b) e
  | .sal b e => instrWord 0o61#6 (designatorBits b) e
  | .int b e => instrWord 0o62#6 (designatorBits b) e
  | .out b e => instrWord 0o63#6 (designatorBits b) e
  | .eqs b e => instrWord 0o64#6 (designatorBits b) e
  | .ths b e => instrWord 0o65#6 (designatorBits b) e
  | .meq b e => instrWord 0o66#6 (designatorBits b) e
  | .mth b e => instrWord 0o67#6 (designatorBits b) e
  | .rad b e => instrWord 0o70#6 (designatorBits b) e
  | .rsb b e => instrWord 0o71#6 (designatorBits b) e
  | .rao b e => instrWord 0o72#6 (designatorBits b) e
  | .rso b e => instrWord 0o73#6 (designatorBits b) e
  | .exf j y => instrWord 0o74#6 (exfFunctionBits j) y
  | .slj j c m => instrWord 0o75#6 (jumpKindBit j ++ keyCondBits c) m
  | .sls j c m => instrWord 0o76#6 (jumpKindBit j ++ keyCondBits c) m
  | .sev b e => instrWord 0o77#6 (designatorBits b) e

end Sys2Proof
end

