-- ==== Sys2Proof/Config.lean ====
section
/-! DEFINITION. What the spec leaves open: opaque constants with no body, so that nothing can be proved of
their values and a statement that mentions one holds whatever it is (spec/92_eei_decisions.md OPEN rows;
spec/93_implementation_defined.md). The two open parameters for which the spec names a default, INT_ENTRY and
INT_POINTS, are plain data of State (`State.params`) instead: every statement about all states covers every
value of them. -/

namespace Sys2Proof

/-- The n-th word that the source leaves unspecified: A and Q after a divide fault (U1), after an exponent fault
(U5), after a floating division by zero (U7); CR after a master clear (U13). DESIGN CHOICE: each occurrence takes
the next n (`State.freeCount`), so two occurrences are never tied together. Log 9, 12, 28, 32. -/
opaque Config.freeWord : Nat → Word

/-- The n-th bit that the source leaves unspecified: the exponent fault indicator after a floating division by
zero (U7), the answer to an unlisted internal sense code (U8, U9), mon_exit and last_pos after a master clear
(U15). Log 12, 20, 28, 32. -/
opaque Config.freeBit : Nat → Bool

/-- FP_ROUND (D7, R203), its choice between `floor(c*)` and `floor(c*) + 1`: applied to the sign, `floor(c*)` and
the fraction of c* in lowest terms (numerator, denominator). True chooses `floor(c*) + 1`. It is not consulted
when c* is an integer. Log 11. -/
opaque Config.fpRoundUp : Bool → Nat → Nat → Nat → Bool

/-- FP_ROUND (D7, R203), the residue left in Q, of the same arguments. Log 11. -/
opaque Config.fpResidue : Bool → Nat → Nat → Nat → Word

/-- DVF_REMAINDER (D6, R187), the 47 bits below the sign when the division is not exact: applied to mD, mx, q and
sD. The two constraints of R187 (its sign is sD; a zero of that sign when exact) are built in where it is used.
Log 10. -/
opaque Config.dvfRemainder : Nat → Nat → Nat → Bool → BitVec 47

/-- SCQ_ZERO_TEST (D8, R211): false, the test is "A is +0 or -0"; true, "A ++ Q is all zeros or all ones". Log 14. -/
opaque Config.scqTestsWholeAQ : Bool

end Sys2Proof
end

