-- ==== Sys2Proof/Machine/Arith.lean ====
section
/-! DEFINITION. One's complement arithmetic, counters, shifts and the address fields of a word
(spec/00_scope.md R8 to R14; spec/30_encoding.md R101). -/

namespace Sys2Proof.Machine

/-- All bits one: negative zero (R9). -/
def onesOf (n : Nat) : BitVec n := BitVec.allOnes n

/-- The one's complement (R9): every bit inverted. -/
def cmpl {n : Nat} (x : BitVec n) : BitVec n := ~~~x

/-- The magnitude of a one's complement pattern (R9, R184): the pattern, or its complement when the sign bit is 1. -/
def magnitude {n : Nat} (x : BitVec n) : Nat := if x.msb then (cmpl x).toNat else x.toNat

/-- sval_N (R9): the signed value of a one's complement pattern; 0 for both zeros. -/
def sval {n : Nat} (x : BitVec n) : Int := if x.msb then -((cmpl x).toNat : Int) else (x.toNat : Int)

/-- Positive or negative zero (R9). -/
def isZero {n : Nat} (x : BitVec n) : Bool := x == 0#n || x == onesOf n

/-- oc_add_N (R10): addition modulo 2^N - 1 with end-around carry. -/
def ocAdd {n : Nat} (x y : BitVec n) : BitVec n :=
  let ones := 2 ^ n - 1
  let s := x.toNat + y.toNat
  if s ≥ ones then BitVec.ofNat n (s - ones) else BitVec.ofNat n s

/-- oc_sub_N (R10). -/
def ocSub {n : Nat} (x y : BitVec n) : BitVec n := ocAdd x (cmpl y)

/-- inc_15 (R13): a two's complement counter, open-ended. -/
def inc15 (x : Addr) : Addr := x + 1#15

/-- dec_15 (R13). -/
def dec15 (x : Addr) : Addr := x - 1#15

/-- sext_48 (R12): bit 14 copied into bits 47 to 15. -/
def sext48 (y : Addr) : Word := y.signExtend 48

/-- zext_48 (R12) of any narrower pattern. -/
def zext48 {n : Nat} (x : BitVec n) : Word := x.setWidth 48

/-- rotl_N (R14): circular left shift. -/
def rotl {n : Nat} (x : BitVec n) (k : Nat) : BitVec n := x.rotateLeft k

/-- asr_N (R14): right shift with the sign bit copied. -/
def asr {n : Nat} (x : BitVec n) (k : Nat) : BitVec n := x.sshiftRight k

/-- The upper address of a word, bits 38 to 24 (R101). -/
def upperAddress (w : Word) : Addr := w.extractLsb' 24 15

/-- The lower address of a word, bits 14 to 0 (R101). -/
def lowerAddress (w : Word) : Addr := w.extractLsb' 0 15

/-- The word with its upper address replaced, the other 33 bits kept (R113, R139). -/
def setUpperAddress (w : Word) (x : Addr) : Word := w.extractLsb' 39 9 ++ x ++ w.extractLsb' 0 24

/-- The word with its lower address replaced, the other 33 bits kept (R140). -/
def setLowerAddress (w : Word) (x : Addr) : Word := w.extractLsb' 15 33 ++ x

/-- The upper instruction of a program step, bits 47 to 24 (R101). -/
def upperInstr (w : Word) : InstrBits := w.extractLsb' 24 24

/-- The lower instruction of a program step, bits 23 to 0 (R101). -/
def lowerInstr (w : Word) : InstrBits := w.extractLsb' 0 24

/-- The designator bits 17 to 15 of an indirect word (R77). -/
def indirectDesignator (w : Word) : BitVec 3 := w.extractLsb' 15 3

/-- The double register with hi in bits 95 to 48 and lo in bits 47 to 0 (R21). -/
def double (hi lo : Word) : DoubleWord := hi ++ lo

/-- Bits 95 to 48 of a double register. -/
def highHalf (x : DoubleWord) : Word := x.extractLsb' 48 48

/-- Bits 47 to 0 of a double register. -/
def lowHalf (x : DoubleWord) : Word := x.extractLsb' 0 48

/-- Equality of the searches (R281): the same pattern, or a zero of either sign on both sides. -/
def searchEq (x y : Word) : Bool := x == y || (isZero x && isZero y)

/-- "Greater than" of the searches (R281): the order of the signed values, with +0 above -0. -/
def searchGt (x y : Word) : Bool :=
  decide (sval y < sval x) || (x == 0#48 && y == onesOf 48)

end Sys2Proof.Machine
end

