-- ==== Sys2Proof/Machine/State.lean ====
section
/-! DEFINITION. The state of the CONTROL DATA 1604-A as plain data (spec/10_state.md R20 to R46), the script of its
environment, the reasons a step can stop, and the machine after a master clear. -/

namespace Sys2Proof.Machine

/-- The instruction position: which instruction of the program step in U1 is the current one (R26). -/
inductive Half where
  | upper
  | lower
  deriving DecidableEq, Repr

/-- Why the computer is stopped (R361). -/
inductive StopReason where
  /-- Operation code 00 or 77 (R106). -/
  | illegal
  /-- The selective stop instruction SLS (R241). -/
  | sls
  /-- P reached the breakpoint address (R362). -/
  | breakpoint
  /-- The Step switch: one instruction has been executed (R364). -/
  | operator
  /-- The Clear switch: internal master clear (R420). -/
  | clear
  deriving DecidableEq, Repr

/-- The run state (R40). -/
inductive RunState where
  | running
  | stopped (why : StopReason)
  deriving DecidableEq, Repr

/-- The console's mode switch (R43, R410). -/
inductive ModeSwitch where
  | neutral
  /-- Up: the instruction in U1 is executed repeatedly. -/
  | repeatInstr
  /-- Down: half-words are displayed and not executed. -/
  | sweep
  deriving DecidableEq, Repr

/-- The six index registers B1 to B6 (R23). -/
structure IndexRegs where
  b1 : Addr
  b2 : Addr
  b3 : Addr
  b4 : Addr
  b5 : Addr
  b6 : Addr
  deriving DecidableEq, Repr

/-- One value for each of the six buffer channels (R300). -/
structure PerChannel (α : Type) where
  c1 : α
  c2 : α
  c3 : α
  c4 : α
  c5 : α
  c6 : α
  deriving DecidableEq, Repr

/-- One value for each of the eight external interrupt lines (R35). -/
structure PerLine (α : Type) where
  channel : PerChannel α
  out7 : α
  in7 : α
  deriving DecidableEq, Repr

/-- The address portions of a buffer control word (R29): CRU current address, CRL terminal address. -/
structure ControlReg where
  u : Addr
  l : Addr
  deriving DecidableEq, Repr

/-- The seven fault indicators (R31 to R33). -/
structure Faults where
  divide : Bool
  shift : Bool
  overflow : Bool
  exponent : Bool
  clockOverflow : Bool
  oddStorage : Bool
  evenStorage : Bool
  deriving DecidableEq, Repr

/-- Three selective keys: true when the key is set, its lever up (R41). -/
structure Keys where
  key1 : Bool
  key2 : Bool
  key3 : Bool
  deriving DecidableEq, Repr

/-- Storage: the listed words by address, in the canonical form `Memory.wf` of Machine/Ops.lean; the words not
listed read as `unlistedWord`. A cell is the spec's unit, the 48-bit word (R71): log 1. -/
abbrev Memory := List (Nat × Word)

/-- What a word of storage that is not listed reads as. DESIGN CHOICE, log 2: the spec gives no contents (U16). -/
def unlistedWord : Word := 0#48

/-- The console equipment selected on channel 1 (R331, R332). -/
inductive InputEquipment where
  | none
  | keyboard
  | reader
  deriving DecidableEq, Repr

/-- The console equipment selected on channel 2, with its mode (R331, R333). -/
inductive OutputEquipment where
  | none
  | typewriter (assembly : Bool)
  | punch (assembly : Bool)
  deriving DecidableEq, Repr

/-- The state of the three console devices that a program can reach (R44, R331 to R333). -/
structure Console where
  input : InputEquipment
  output : OutputEquipment
  /-- The typewriter's Carriage Return indicator. -/
  carriageReturn : Bool
  /-- The typewriter's interrupt-on-carriage-return selection. -/
  crInterrupt : Bool
  upperCase : Bool
  /-- The typewriter is hung up on an illegal code (R331). -/
  hung : Bool
  /-- The reader's End of Tape indicator. -/
  endOfTape : Bool
  /-- The reader's interrupt-on-end-of-tape selection. -/
  eotInterrupt : Bool
  /-- The reader's Mode switch: assembly (true) or character. -/
  readerAssembly : Bool
  /-- The characters of the word the reader is assembling, first character first. -/
  frames : List (BitVec 6)
  punchMotor : Bool
  outOfTape : Bool
  /-- The frames punched, oldest first. -/
  punched : List (BitVec 7)
  /-- The codes typed by output, oldest first. -/
  typed : List (BitVec 6)
  deriving DecidableEq, Repr

/-- The equipment other than the console's: the parameter EQUIPMENT (D17, R320) as plain data that the
environment's events change. -/
structure Equipment where
  /-- The sense codes that attached equipment answers true now. -/
  answers : List Addr
  /-- The select codes sent to equipment so far, oldest first. -/
  selects : List Addr
  /-- The words output buffer channels have delivered, oldest first. -/
  bufferOut : List (Channel × Word)
  /-- The words channel 7 input holds ready, the next one first. -/
  ch7In : List Word
  /-- How many words channel 7 output still accepts before the computer must wait. -/
  ch7Accept : Nat
  /-- The words sent on channel 7 output, oldest first. -/
  ch7Out : List Word
  deriving DecidableEq, Repr

/-- The causes of an interrupt request, one for each row of the table of R390. -/
inductive Cause where
  | divideFault
  | shiftFault
  | overflowFault
  | exponentFault
  | clockOverflow
  | channelInactive (c : Channel)
  | line (l : Line)
  deriving DecidableEq, Repr

/-- INT_POINTS (D10, R376). -/
inductive IntPoints where
  | stepBoundary
  | everyInstruction
  deriving DecidableEq, Repr

/-- One rule of INT_ENTRY (R377): when each listed cause stands or does not stand as the rule says, the control word
is `0o00007` plus the offset. -/
structure EntryRule where
  causes : List (Cause × Bool)
  offset : Fin 9
  deriving DecidableEq, Repr

/-- The open parameters the spec gives a default for. -/
structure Params where
  /-- INT_ENTRY (D9, D26, R377): the first rule that fits the standing causes decides, else `0o00007`. Every map from
  the set of standing causes to the nine words is such a list; the empty list is the spec's default, the constant
  `0o00007`. Log 15. -/
  intEntry : List EntryRule
  intPoints : IntPoints
  deriving DecidableEq, Repr

/-- What the console equipment and its user do (R331 to R333). -/
inductive ConsoleEvent where
  /-- A character key is struck. -/
  | keyStrike (code : BitVec 6)
  /-- A carriage return or a tab is typed at the keyboard (conflict C8). -/
  | carriageReturn
  /-- The typewriter's case is now upper or lower. -/
  | typewriterCase (upper : Bool)
  /-- The typewriter hangs up on an illegal code, or a key strike lets it go on. -/
  | typewriterHang (hung : Bool)
  /-- A tape frame passes the reader; its bit 6 is the seventh level. -/
  | readerFrame (frame : BitVec 7)
  /-- The reader's Mode switch is moved to ASSEMBLY or CHARACTER. -/
  | readerSwitch (assembly : Bool)
  /-- The punch's manual motor switch. -/
  | punchMotorSwitch (on : Bool)
  /-- The punch's tape supply becomes low or is replaced. -/
  | punchSupply (low : Bool)
  deriving DecidableEq, Repr

/-- What an agent other than the program and the operator does (R83, R316, R398, R374, R320, R424). -/
inductive IoEvent where
  /-- The equipment on a buffer channel asks for its next word; w is the word it delivers on an input channel
  (R316). -/
  | bufferWord (c : Channel) (w : Word)
  /-- 1/60 second has passed (R398). -/
  | clockTick
  /-- Equipment sets the level of an interrupt line (R374). -/
  | line (l : Line) (level : Bool)
  /-- The sense codes that attached equipment answers true from now on (R320). -/
  | answers (codes : List Addr)
  /-- Channel 7 input delivers a word (R302). -/
  | ch7Deliver (w : Word)
  /-- Channel 7 output becomes ready for n more words (R303). -/
  | ch7Accept (n : Nat)
  /-- The Auto Load button makes the next of its three storage references (R83, R424); the first is its being
  pressed. -/
  | autoLoadWord
  | console (e : ConsoleEvent)
  deriving DecidableEq, Repr

/-- A register the operator keys in while the computer is stopped (R364). -/
inductive KeyedRegister where
  | a (w : Word)
  | q (w : Word)
  | p (m : Addr)
  | index (r : IndexReg) (y : Addr)
  /-- The function code and the execution address displayed from U1. -/
  | instruction (w : InstrBits)
  deriving DecidableEq, Repr

/-- What the operator does (R41 to R43, R361 to R364, R420 to R423), and the start of execution by the Auto Load button
(R424). -/
inductive OperatorEvent where
  | jumpKeys (k : Keys)
  | stopKeys (k : Keys)
  | breakpoint (a : Option Addr)
  | modeSwitch (m : ModeSwitch)
  | key (r : KeyedRegister)
  | start
  | step
  | internalClear
  | externalClear
  /-- The Auto Load button, its three words written, starts execution at 0o00000 (R424). -/
  | autoLoadStart
  deriving DecidableEq, Repr

/-- Anything that happens outside the control section. -/
inductive Event where
  | io (e : IoEvent)
  | operator (e : OperatorEvent)
  deriving DecidableEq, Repr

/-- The environment's part in one turn of the control section: the events before it, and the events at each point
before a storage reference of the program, at which other agents can act (R84, R316). Log 6, log 7. -/
structure Moment where
  events : List Event
  inside : List (List IoEvent)
  deriving DecidableEq, Repr

/-- The state of the machine with its environment (R20). -/
structure State where
  /-- A, the accumulator (R21). -/
  a : Word
  /-- Q, the auxiliary arithmetic register (R22). -/
  q : Word
  /-- B1 to B6 (R23). -/
  b : IndexRegs
  /-- P, the program address register (R24). -/
  p : Addr
  /-- U1, the program step being executed (R25). -/
  u1 : Word
  half : Half
  mem : Memory
  /-- CR1 to CR6 (R29). -/
  cr : PerChannel ControlReg
  active : PerChannel Bool
  faults : Faults
  /-- sel.ArithFault (R34). -/
  selArith : Bool
  /-- sel.ChanInactive (R34). -/
  selInactive : PerChannel Bool
  extInt : PerLine Bool
  imr : PerLine Bool
  lockout : Bool
  intExit : Bool
  monExit : Half
  lastPos : Half
  clockRunning : Bool
  run : RunState
  jumpKey : Keys
  stopKey : Keys
  breakpoint : Option Addr
  modeSwitch : ModeSwitch
  /-- The last selection of the Start/Step switch was STEP (R43). -/
  singleStep : Bool
  console : Console
  equipment : Equipment
  /-- The instruction to be executed next without a fetch (log 21, log 27); the model's own. -/
  held : Option Instr
  /-- The breakpoint at P has been answered by Start (R362); the model's own. -/
  breakPassed : Bool
  /-- The number of free values used so far; the model's own (log 32). -/
  freeCount : Nat
  /-- How many of its three words the Auto Load button, once pressed, has written (R83, R424); the model's own
  (log 33). -/
  bootWritten : Nat
  params : Params
  /-- The environment's script, one entry for each turn still to come (log 6). -/
  moments : List Moment
  /-- What the script still holds for the points inside the current instruction. -/
  mid : List (List IoEvent)
  deriving DecidableEq, Repr

/-- How a step stops without a next state. -/
inductive Fault where
  /-- Raised by every instruction with an index designator when its chain of indirect addresses never ends: the
  spec calls the machine stuck (R77, D18, U10). Safe: nothing is claimed of what follows. -/
  | endlessIndirection
  deriving DecidableEq, Repr

/-- Why the model gives no meaning to a step. -/
inductive Refusal where
  /-- An instruction without a meaning yet, by its mnemonic. No arm raises it now. Safe. -/
  | notModelled (mnemonic : String)
  /-- Raised by the step when a storage fault indicator is set: "storage unit is inoperative until master cleared"
  (R33), a state outside the spec's model (U12, R370); no step sets one. Safe. -/
  | storageUnitInoperative
  deriving DecidableEq, Repr

/-- What executing an instruction, or a step, answers. -/
abbrev Result := Host.Outcome State Fault Refusal

/-- The same value on every channel. -/
def PerChannel.all {α : Type} (x : α) : PerChannel α := ⟨x, x, x, x, x, x⟩

/-- The same value on every line. -/
def PerLine.all {α : Type} (x : α) : PerLine α := ⟨PerChannel.all x, x, x⟩

/-- No key set. -/
def Keys.none : Keys := ⟨false, false, false⟩

/-- No fault indicator set. -/
def Faults.none : Faults := ⟨false, false, false, false, false, false, false⟩

/-- The console equipment after an external master clear at power-on: "selects the paper tape reader and sets the
End of Tape indicator" (R46, R420); what the spec does not give is log 5. -/
def Console.reset : Console where
  input := .reader
  output := .none
  carriageReturn := false
  crInterrupt := false
  upperCase := false
  hung := false
  endOfTape := true
  eotInterrupt := false
  readerAssembly := false
  frames := []
  punchMotor := false
  outOfTape := false
  punched := []
  typed := []

/-- No equipment answers, delivers or accepts (D17; log 5). -/
def Equipment.reset : Equipment where
  answers := []
  selects := []
  bufferOut := []
  ch7In := []
  ch7Accept := 0
  ch7Out := []

/-- The machine after the internal and the external master clear (R46, R420). Values the spec does not give:
log 2, 3, 4, 5, 15, 32, 33. -/
def State.reset : State where
  a := 0#48
  q := 0#48
  b := ⟨0#15, 0#15, 0#15, 0#15, 0#15, 0#15⟩
  p := 0#15
  u1 := 0#48
  half := .upper
  mem := []
  cr := PerChannel.all ⟨0#15, 0#15⟩
  active := PerChannel.all false
  faults := Faults.none
  selArith := false
  selInactive := PerChannel.all false
  extInt := PerLine.all false
  imr := PerLine.all false
  lockout := false
  intExit := false
  monExit := .lower
  lastPos := .lower
  clockRunning := false
  run := .stopped .clear
  jumpKey := Keys.none
  stopKey := Keys.none
  breakpoint := none
  modeSwitch := .neutral
  singleStep := false
  console := Console.reset
  equipment := Equipment.reset
  held := none
  breakPassed := false
  freeCount := 0
  bootWritten := 0
  params := ⟨[], .stepBoundary⟩
  moments := []
  mid := []

end Sys2Proof.Machine
end

