-- ==== Sys2Proof/Machine/Flags.lean ====
section
/-! DEFINITION. The fault indicators and the conditions the machine computes: overflow, the internal and the external
interrupt request (spec/00_scope.md R11, R17; spec/60_exceptions.md R365 to R375). -/

namespace Sys2Proof.Machine

/-- oc_ovf_N (R11): the true sum lies outside the capacity of an N-bit one's complement register. -/
def ocOvf {n : Nat} (x y : BitVec n) : Bool :=
  decide (sval x + sval y < -((2 ^ (n - 1) - 1 : Nat) : Int)) ||
    decide (((2 ^ (n - 1) - 1 : Nat) : Int) < sval x + sval y)

/-- The shift count above which the shift fault is set (R150). -/
def shiftLimit : Nat := 127

/-- set_fault(Divide) (R17, R365). -/
def State.setDivideFault (s : State) : State := { s with faults := { s.faults with divide := true } }

/-- set_fault(Shift) if c (R150, R367). -/
def State.setShiftFaultIf (s : State) (c : Bool) : State :=
  { s with faults := { s.faults with shift := s.faults.shift || c } }

/-- set_fault(Overflow) if c (R183, R368). -/
def State.setOverflowIf (s : State) (c : Bool) : State :=
  { s with faults := { s.faults with overflow := s.faults.overflow || c } }

/-- set_fault(Exponent) (R208, R369). -/
def State.setExponentFault (s : State) : State := { s with faults := { s.faults with exponent := true } }

/-- set_fault(ClockOverflow) if c (R398). -/
def State.setClockOverflowIf (s : State) (c : Bool) : State :=
  { s with faults := { s.faults with clockOverflow := s.faults.clockOverflow || c } }

/-- `74 0 00070` (R318, R365): clears the five arithmetic fault indicators, the clock overflow among them (D13). -/
def State.clearArithFaults (s : State) : State :=
  { s with
    faults :=
      { s.faults with divide := false, shift := false, overflow := false, exponent := false, clockOverflow := false } }

/-- Is a storage fault indicator set (R370)? -/
def Faults.anyStorage (f : Faults) : Bool := f.oddStorage || f.evenStorage

/-- The value on channel c. -/
def PerChannel.get {α : Type} (v : PerChannel α) : Channel → α
  | .c1 => v.c1
  | .c2 => v.c2
  | .c3 => v.c3
  | .c4 => v.c4
  | .c5 => v.c5
  | .c6 => v.c6

/-- The values with that of channel c replaced. -/
def PerChannel.set {α : Type} (v : PerChannel α) (c : Channel) (x : α) : PerChannel α :=
  match c with
  | .c1 => { v with c1 := x }
  | .c2 => { v with c2 := x }
  | .c3 => { v with c3 := x }
  | .c4 => { v with c4 := x }
  | .c5 => { v with c5 := x }
  | .c6 => { v with c6 := x }

/-- The value on a line. -/
def PerLine.get {α : Type} (v : PerLine α) : Line → α
  | .channel c => v.channel.get c
  | .out7 => v.out7
  | .in7 => v.in7

/-- The values with that of a line replaced. -/
def PerLine.set {α : Type} (v : PerLine α) (l : Line) (x : α) : PerLine α :=
  match l with
  | .channel c => { v with channel := v.channel.set c x }
  | .out7 => { v with out7 := x }
  | .in7 => { v with in7 := x }

/-- The five causes that arithmetic faults give (R371, R390). -/
def allFaultCauses : List Cause := [.divideFault, .shiftFault, .overflowFault, .exponentFault, .clockOverflow]

/-- All six channels. -/
def allChannels : List Channel := [.c1, .c2, .c3, .c4, .c5, .c6]

/-- All eight lines. -/
def allLines : List Line := [.channel .c1, .channel .c2, .channel .c3, .channel .c4, .channel .c5, .channel .c6, .out7, .in7]

/-- The request of the console equipment on the line of channel 1 (R334, R389): carriage return with its interrupt
selected, or end of tape with its interrupt selected. -/
def Console.request (c : Console) : Bool := (c.crInterrupt && c.carriageReturn) || (c.eotInterrupt && c.endOfTape)

/-- ext_int[L] (R35): the level of an interrupt line, whatever equipment drives it. -/
def State.lineLevel (s : State) (l : Line) : Bool :=
  s.extInt.get l || (decide (l = .channel .c1) && s.console.request)

/-- MIR[L] (R374): the level unless the mask flip-flop disallows it. -/
def State.mir (s : State) (l : Line) : Bool := s.lineLevel l && !s.imr.get l

/-- The request of one cause (R373, R374, R390). -/
def State.causeStands (s : State) : Cause → Bool
  | .divideFault => s.selArith && s.faults.divide
  | .shiftFault => s.selArith && s.faults.shift
  | .overflowFault => s.selArith && s.faults.overflow
  | .exponentFault => s.selArith && s.faults.exponent
  | .clockOverflow => s.selArith && s.faults.clockOverflow
  | .channelInactive c => s.selInactive.get c && !s.active.get c
  | .line l => s.mir l

/-- internal_request (R373). -/
def State.internalRequest (s : State) : Bool :=
  allFaultCauses.any s.causeStands || allChannels.any fun c => s.causeStands (.channelInactive c)

/-- external_request (R374). -/
def State.externalRequest (s : State) : Bool := allLines.any fun l => s.causeStands (.line l)

/-- interrupt_due (R375, R382). -/
def State.interruptDue (s : State) : Bool := !s.lockout && (s.internalRequest || s.externalRequest)

end Sys2Proof.Machine
end

