-- ==== Sys2Proof/Machine/Ops.lean ====
section
/-! DEFINITION. The named operations over storage and registers, the endings of an instruction, the return jump, the
interrupt entry and the release of the lockout, stops and free values (spec/00_scope.md R15 to R17;
spec/20_memory.md R70, R81; spec/30_encoding.md R108 to R113; spec/60_exceptions.md R361, R376 to R383). -/

namespace Sys2Proof.Machine

/-! ### Storage -/

/-- The word at an address (R15). -/
def Memory.read : Memory → Nat → Word
  | [], _ => unlistedWord
  | (k, v) :: rest, i => if k = i then v else Memory.read rest i

/-- A cell put before the first listed address above its own. -/
def Memory.insert (i : Nat) (w : Word) : Memory → Memory
  | [] => [(i, w)]
  | (k, v) :: rest => if i < k then (i, w) :: (k, v) :: rest else (k, v) :: Memory.insert i w rest

/-- The memory without the cells at an address. -/
def Memory.erase : Memory → Nat → Memory
  | [], _ => []
  | (k, v) :: rest, i => if k = i then Memory.erase rest i else (k, v) :: Memory.erase rest i

/-- The memory with the word at one address replaced (R15), kept in its canonical form. -/
def Memory.write (m : Memory) (i : Nat) (w : Word) : Memory :=
  if w = unlistedWord then m.erase i else Memory.insert i w (m.erase i)

/-- Every listed address lies above i, in rising order; every listed word differs from an unlisted one, and every
address exists (R70). -/
def Memory.risingAbove : Option Nat → Memory → Bool
  | _, [] => true
  | low, (k, v) :: rest =>
    (match low with
      | none => true
      | some i => decide (i < k)) && decide (k < 2 ^ 15) && decide (v ≠ unlistedWord) && Memory.risingAbove (some k) rest

/-- The canonical form of storage: addresses strictly rising and below 2^15, no word equal to an unlisted one. -/
def Memory.wf (m : Memory) : Bool := Memory.risingAbove none m

/-- MemRead(addr, 48) (R15). -/
def State.read (s : State) (m : Addr) : Word := s.mem.read m.toNat

/-- MemWrite(addr, 48, w) (R15). -/
def State.write (s : State) (m : Addr) (w : Word) : State := { s with mem := s.mem.write m.toNat w }

/-- A partial-word store into bits 38 to 24 (R81, R139): one indivisible reference. -/
def State.storeUpper (s : State) (m : Addr) (x : Addr) : State := s.write m (setUpperAddress (s.read m) x)

/-- A partial-word store into bits 14 to 0 (R81, R140). -/
def State.storeLower (s : State) (m : Addr) (x : Addr) : State := s.write m (setLowerAddress (s.read m) x)

/-! ### Registers -/

/-- Index register r. -/
def IndexRegs.get (b : IndexRegs) : IndexReg → Addr
  | .b1 => b.b1
  | .b2 => b.b2
  | .b3 => b.b3
  | .b4 => b.b4
  | .b5 => b.b5
  | .b6 => b.b6

/-- The index registers with one replaced. -/
def IndexRegs.set (b : IndexRegs) (r : IndexReg) (y : Addr) : IndexRegs :=
  match r with
  | .b1 => { b with b1 := y }
  | .b2 => { b with b2 := y }
  | .b3 => { b with b3 := y }
  | .b4 => { b with b4 := y }
  | .b5 => { b with b5 := y }
  | .b6 => { b with b6 := y }

/-- B[b] with b = 0 to 6 (R23): there is no B0, and it reads as zero. -/
def State.getB (s : State) : Option IndexReg → Addr
  | none => 0#15
  | some r => s.b.get r

/-- B[b] <- y with b = 0 to 6 (R23): a write to B0 is discarded. -/
def State.setB (s : State) (r : Option IndexReg) (y : Addr) : State :=
  match r with
  | none => s
  | some r => { s with b := s.b.set r y }

/-- A <- w. -/
def State.setA (s : State) (w : Word) : State := { s with a := w }

/-- Q <- w. -/
def State.setQ (s : State) (w : Word) : State := { s with q := w }

/-- AQ <- x: A holds the high half (R21). -/
def State.setAQ (s : State) (x : DoubleWord) : State := { s with a := highHalf x, q := lowHalf x }

/-- QA <- x: Q holds the high half (R21). -/
def State.setQA (s : State) (x : DoubleWord) : State := { s with q := highHalf x, a := lowHalf x }

/-! ### Free values -/

/-- A and Q unspecified (U1, U5, U7): two fresh free values. Log 9, 12. -/
def State.freeAQ (s : State) : State :=
  { s with a := Config.freeWord s.freeCount, q := Config.freeWord (s.freeCount + 1), freeCount := s.freeCount + 2 }

/-! ### The endings of an instruction -/

/-- exit_full (R110). -/
def State.exitFull (s : State) : State := { s with p := inc15 s.p, half := .upper }

/-- exit_half (R111). -/
def State.exitHalf (s : State) : State := { s with half := .lower }

/-- next (R109). -/
def State.goNext (s : State) : State :=
  match s.half with
  | .upper => s.exitHalf
  | .lower => s.exitFull

/-- exit_full if c, else exit_half: the ending of ISK, SSK, SSH and sense. -/
def State.exitIf (s : State) (c : Bool) : State := if c then s.exitFull else s.exitHalf

/-- Is it one of the interrupt control words 0o00007 to 0o00017 (R377)? -/
def isControlWord (m : Addr) : Bool := decide (0o7 ≤ m.toNat) && decide (m.toNat ≤ 0o17)

/-- pc <- m, the normal jump (R112); into the interrupt control words while the lockout is set it begins the return
from the interrupt (R383). -/
def State.jump (s : State) (m : Addr) : State :=
  { s with p := m, half := .upper, intExit := s.intExit || (s.lockout && isControlWord m) }

/-- The word at m with a return address in its upper address stored back, and control at its lower instruction:
what the return jump (R113) and the interrupt entry (R378) share. One storage reference (R81; log 7). -/
def State.enterLower (s : State) (m : Addr) (ret : Addr) : State :=
  { s.storeUpper m ret with p := m, u1 := setUpperAddress (s.read m) ret, half := .lower }

/-- return_jump(m) (R113): the return address is that of the next program step, whichever half jumps. -/
def State.returnJump (s : State) (m : Addr) : State := s.enterLower m (inc15 s.p)

/-- stop(reason) (R361): nothing but `run` changes. -/
def State.stop (s : State) (why : StopReason) : State := { s with run := .stopped why }

/-! ### The interrupt: entry and return -/

/-- Does each cause of the rule stand, or not stand, as the rule says? -/
def EntryRule.fits (e : EntryRule) (s : State) : Bool := e.causes.all fun c => s.causeStands c.1 == c.2

/-- INT_ENTRY (D9, D26, R377): the address of the control word to enter. Log 15. -/
def State.entryAddress (s : State) : Addr :=
  match s.params.intEntry.find? (fun e => e.fits s) with
  | some e => BitVec.ofNat 15 (0o7 + e.offset.val)
  | none => 0o7#15

/-- interrupt_entry (R378): P, not P + 1, goes to the upper address of the control word; the lockout is set, mon_exit
records the position of the last instruction (R379), and the lower instruction of the control word is next. -/
def State.interruptEntry (s : State) : State :=
  { s.enterLower s.entryAddress s.p with monExit := s.lastPos, lockout := true, intExit := false }

/-- The end of the return from an interrupt (R383, R36): at the completion of an upper instruction that began with
int_exit set the lockout falls. `s` is the state the instruction began in, `t` the one it completed in. Log 16. -/
def State.releaseLockout (s t : State) : State :=
  if s.half = .upper ∧ s.intExit = true ∧ t.intExit = true then { t with lockout := false, intExit := false } else t

end Sys2Proof.Machine
end

