-- ==== Sys2Proof/Machine/Environment.lean ====
section
/-! DEFINITION. The agents other than the program: the buffer channels, the real-time clock, the console equipment, the
other equipment (spec/49_transfer_and_external_function.md R316, R330 to R336; spec/60_exceptions.md R389, R398, R399)
and the storage references of the Auto Load button (spec/20_memory.md R83; spec/70_reset_and_hazards.md R424), and the
points before the program's storage references at which they can act (spec/20_memory.md R84). -/

namespace Sys2Proof.Machine

/-- Channels 1, 3 and 5 are input channels (R300). -/
def Channel.isInput : Channel → Bool
  | .c1 => true
  | .c2 => false
  | .c3 => true
  | .c4 => false
  | .c5 => true
  | .c6 => false

/-- The word of eight six-bit characters, the first in bits 47 to 42 (R330). -/
def assembleWord (cs : List (BitVec 6)) : Word := cs.foldl (fun w c => (w <<< 6) ||| zext48 c) 0#48

/-- The eight six-bit characters of a word, the upper six bits first (R330). -/
def disassembleWord (w : Word) : List (BitVec 6) :=
  [w.extractLsb' 42 6, w.extractLsb' 36 6, w.extractLsb' 30 6, w.extractLsb' 24 6,
    w.extractLsb' 18 6, w.extractLsb' 12 6, w.extractLsb' 6 6, w.extractLsb' 0 6]

/-- The frames the punch makes of a word in the assembly mode: the seventh level marks the first (R332, R333). -/
def punchFrames (w : Word) : List (BitVec 7) :=
  match disassembleWord w with
  | [] => []
  | c :: cs => (1#1 ++ c) :: cs.map fun c => 0#1 ++ c

/-- What the console output equipment does with a word it is sent (R331, R333). The spec does not
say what a punch does whose motor is off: it punches all the same. DESIGN CHOICE, log 22. -/
def Console.acceptWord (c : Console) (w : Word) : Console :=
  match c.output with
  | .none => c
  | .typewriter true => { c with typed := c.typed ++ disassembleWord w }
  | .typewriter false => { c with typed := c.typed ++ [w.extractLsb' 0 6] }
  | .punch true => { c with punched := c.punched ++ punchFrames w }
  | .punch false => { c with punched := c.punched ++ [w.extractLsb' 0 7] }

/-- Is the typewriter selected for output and hung up, so that it accepts no further word (R331)? -/
def Console.outputHung (c : Console) : Bool :=
  match c.output with
  | .typewriter _ => c.hung
  | .none => false
  | .punch _ => false

/-- A word delivered on an output channel (R316). Other units may share channel 2 (R330): the word goes to the record of
the other equipment, and to the console equipment selected, whichever was selected last. DESIGN CHOICE, log 22. -/
def State.sendBuffer (s : State) (c : Channel) (w : Word) : State :=
  { s with
    equipment := { s.equipment with bufferOut := s.equipment.bufferOut ++ [(c, w)] }
    console := if c = .c2 then s.console.acceptWord w else s.console }

/-- Can a word be moved on a channel now: it is active, and its equipment is not hung up (R316, R331)? While the
typewriter selected for output is hung up no word at all moves on channel 2, not even one that another equipment sharing
the channel asks for: the spec does not say what a hang-up does to it. DESIGN CHOICE, log 22. -/
def State.bufferReady (s : State) (c : Channel) : Bool :=
  s.active.get c && !(decide (c = .c2) && s.console.outputHung)

/-- buffer_step(j) (R316): one word between storage and equipment, the current address advanced, the channel inactive
when it reaches the terminal address. A request on a channel that is not active moves nothing (log 35). -/
def State.bufferStep (s : State) (c : Channel) (w : Word) : State :=
  if s.bufferReady c then
    let r := s.cr.get c
    let t := if Channel.isInput c then s.write r.u w else s.sendBuffer c (s.read r.u)
    { t with
      cr := t.cr.set c ⟨inc15 r.u, r.l⟩
      active := t.active.set c (decide (inc15 r.u ≠ r.l)) }
  else s

/-- clock_advance (R398, R399): word 0o00000 plus one while the clock runs. -/
def State.clockAdvance (s : State) : State :=
  if s.clockRunning then
    (s.write 0#15 (ocAdd (s.read 0#15) 1#48)).setClockOverflowIf (ocOvf (s.read 0#15) 1#48)
  else s

/-- A tape frame passes the reader (R332): it moves only when selected, not at End of Tape, and its buffer is active.
In the assembly mode the first frame of a word must have the seventh level, or the End of Tape indicator is set. The
characters of a word partly assembled stay for the next frames when the buffer is ended (also by an activate at the
terminal address), the reader is deselected or the End of Tape indicator is set by 11210; only the Mode switch drops
them. The spec does not say what becomes of them: DESIGN CHOICE, log 22. -/
def State.readerFrame (s : State) (f : BitVec 7) : State :=
  if s.console.input = .reader ∧ s.console.endOfTape = false ∧ s.active.get .c1 = true then
    if s.console.readerAssembly then
      if s.console.frames = [] ∧ f.getLsbD 6 = false then
        { s with console := { s.console with endOfTape := true } }
      else
        let cs := s.console.frames ++ [f.extractLsb' 0 6]
        if 8 ≤ cs.length then
          State.bufferStep { s with console := { s.console with frames := [] } } .c1 (assembleWord cs)
        else { s with console := { s.console with frames := cs } }
    else s.bufferStep .c1 (zext48 f)
  else s

/-- What the console equipment and its user do (R331 to R333). -/
def State.deliverConsole (s : State) : ConsoleEvent → State
  | .keyStrike c => if s.console.input = .keyboard then s.bufferStep .c1 (zext48 c) else s
  | .carriageReturn => { s with console := { s.console with carriageReturn := true } }
  | .typewriterCase u => { s with console := { s.console with upperCase := u } }
  | .typewriterHang h => { s with console := { s.console with hung := h } }
  | .readerFrame f => s.readerFrame f
  | .readerSwitch a =>
    { s with console := { s.console with endOfTape := false, readerAssembly := a, frames := [] } }
  | .punchMotorSwitch m => { s with console := { s.console with punchMotor := m } }
  | .punchSupply low => { s with console := { s.console with outOfTape := low } }

/-- The words that the Auto Load button writes, with their addresses (R424, C19). -/
def bootWords : List (Addr × Word) :=
  [(0#15, 0o7403200574732000#48), (1#15, 0o7430000274732000#48), (3#15, 0o7430000274732000#48)]

/-- The Auto Load button makes the next of its three storage references (R83, R424). Each is an event of its own, so
that references of other agents fall between them, and they between any two references of the program (R84). Once all
three are made nothing is left to write until execution at 0o00000 has started. Log 33. -/
def State.autoLoadWord (s : State) : State :=
  match bootWords[s.bootWritten]? with
  | none => s
  | some (m, w) => { s.write m w with bootWritten := s.bootWritten + 1 }

/-- One event of an agent other than the program and the operator. -/
def State.deliverIo (s : State) : IoEvent → State
  | .bufferWord c w => s.bufferStep c w
  | .clockTick => s.clockAdvance
  | .line l level => { s with extInt := s.extInt.set l level }
  | .answers codes => { s with equipment := { s.equipment with answers := codes } }
  | .ch7Deliver w => { s with equipment := { s.equipment with ch7In := s.equipment.ch7In ++ [w] } }
  | .ch7Accept n => { s with equipment := { s.equipment with ch7Accept := s.equipment.ch7Accept + n } }
  | .autoLoadWord => s.autoLoadWord
  | .console e => s.deliverConsole e

/-- A point before a storage reference of the program, at which other agents can act (R84, R316): the events the script
holds for it happen. Log 6, log 7. -/
def State.point (s : State) : State :=
  match s.mid with
  | [] => s
  | es :: rest => es.foldl State.deliverIo { s with mid := rest }

/-- A jump of either kind (R103, R235). A return jump makes one storage reference (R80). -/
def State.jumpBy (s : State) (j : JumpKind) (m : Addr) : State :=
  match j with
  | .normal => s.jump m
  | .ret => s.point.returnJump m

end Sys2Proof.Machine
end

