-- ==== Sys2Proof/Machine/Operands.lean ====
section
/-! DEFINITION. Address modification and indirect addressing: every operand form of the instruction set
(spec/20_memory.md R76 to R79). Before each storage reference of a form stands a point at which other agents can act
(R84), so every form hands on the state in which its references have been made. The atomic forms, of the instructions
for whose end the other agents wait (R150, R188, R431), have no such points. -/

namespace Sys2Proof.Machine

/-- How many storage words an indirect chain can pass through before it must repeat one: the 32,768 addresses
(R70). -/
def chainLimit : Nat := 2 ^ 15

/-- indirect(b, e) (R77), within a number of passes: the state after its references, the index register the final
designator names (none for 0) and the final address. `none` when the chain has not ended by then. -/
def State.indirectWithin (s : State) : Nat → Designator → Addr → Option (State × Option IndexReg × Addr)
  | _, .direct, e => some (s, none, e)
  | _, .index r, e => some (s, some r, e)
  | 0, .indirect, _ => none
  | n + 1, .indirect, e =>
    s.point.indirectWithin n (designatorOf (indirectDesignator (s.point.read e))) (lowerAddress (s.point.read e))

/-- indirect(b, e) (R77); `none` exactly when the chain never ends (D18, log 8). Once the script has no more points
storage stands still, and a chain that goes on for `chainLimit` passes then repeats a word. -/
def State.indirect (s : State) (b : Designator) (e : Addr) : Option (State × Option IndexReg × Addr) :=
  s.indirectWithin (s.mid.length + chainLimit) b e

/-- The sum of an execution address and an index register (R76, R79); no register, no addition. -/
def State.modified (s : State) (r : Option IndexReg) (e : Addr) : Addr :=
  match r with
  | none => e
  | some r => ocAdd e (s.b.get r)

/-- resolve_all(b, e) (R76): the state after the references of the chain, and K, Y or M. -/
def State.resolveAll (s : State) (b : Designator) (e : Addr) : Option (State × Addr) :=
  match s.indirect b e with
  | none => none
  | some (u, r, e') => some (u, u.modified r e')

/-- indirect(b, e) in an instruction during which no other agent acts (R188, R431): the index register named and the
address alone. Log 7. -/
def State.indirectAtomic (s : State) (b : Designator) (e : Addr) : Option (Option IndexReg × Addr) :=
  match State.indirect { s with mid := [] } b e with
  | none => none
  | some (_, r, e') => some (r, e')

/-- resolve_all(b, k) in an instruction during which no other agent acts (R150, R188, R431): K or M alone. Log 7. -/
def State.resolveAtomic (s : State) (b : Designator) (k : Addr) : Option Addr :=
  match State.resolveAll { s with mid := [] } b k with
  | none => none
  | some (_, k') => some k'

/-- The operand at M (R76): M, and the state in which it is referred to. -/
def State.operand (s : State) (b : Designator) (m : Addr) : Option (State × Addr) :=
  match s.resolveAll b m with
  | none => none
  | some (u, m') => some (u.point, m')

/-- The operand at an address that only indirect addressing changes (R78): the index register named, the address, and
the state in which it is referred to. -/
def State.indirectOperand (s : State) (b : Designator) (m : Addr) : Option (State × Option IndexReg × Addr) :=
  match s.indirect b m with
  | none => none
  | some (u, r, m') => some (u.point, r, m')

/-- An instruction to which all modes of address modification apply (R78), given what it does with Y. -/
def withAddress (s : State) (b : Designator) (y : Addr) (run : State → Addr → State) : Result :=
  match s.resolveAll b y with
  | none => .fault .endlessIndirection
  | some (u, y') => .next (run u y')

/-- An instruction to which all modes of address modification apply (R78), given what it does with the word at M. -/
def withOperand (s : State) (b : Designator) (m : Addr) (run : State → Addr → State) : Result :=
  match s.operand b m with
  | none => .fault .endlessIndirection
  | some (u, m') => .next (run u m')

/-- An instruction during which no other agent acts (R150, R188, R431) and to which all modes of address modification
apply (R78), given what it does with K or M. -/
def withAtomic (s : State) (b : Designator) (e : Addr) (run : State → Addr → State) : Result :=
  match s.resolveAtomic b e with
  | none => .fault .endlessIndirection
  | some e' => .next (run s e')

/-- The same with direct and indirect addressing only (R78), given what it does with the index register named and the
unmodified address. -/
def withAtomicIndex (s : State) (b : Designator) (e : Addr) (run : State → Option IndexReg → Addr → State) : Result :=
  match s.indirectAtomic b e with
  | none => .fault .endlessIndirection
  | some (r, e') => .next (run s r e')

/-- An instruction with direct and indirect addressing only (R78), given what it does with the index register named
and the unmodified address. -/
def withIndex (s : State) (b : Designator) (y : Addr) (run : State → Option IndexReg → Addr → State) : Result :=
  match s.indirect b y with
  | none => .fault .endlessIndirection
  | some (u, r, y') => .next (run u r y')

/-- The same for an instruction that refers to the word at that address. -/
def withIndirectOperand (s : State) (b : Designator) (m : Addr) (run : State → Option IndexReg → Addr → State) :
    Result :=
  match s.indirectOperand b m with
  | none => .fault .endlessIndirection
  | some (u, r, m') => .next (run u r m')

end Sys2Proof.Machine
end

