-- ==== Sys2Proof/Machine/AddressModification.lean ====
section
/-! DEFINITION. Address modification instructions (spec/42_address_modification.md R165 to R170). -/

namespace Sys2Proof.Machine

/-- SAU (R166): bits 38 to 24 of (M) <- the low 15 bits of A. -/
def execSau (b : Designator) (m : Addr) (s : State) : Result :=
  withOperand s b m fun s m => (s.storeUpper m (lowerAddress s.a)).goNext

/-- SAL (R167): bits 14 to 0 of (M) <- the low 15 bits of A. -/
def execSal (b : Designator) (m : Addr) (s : State) : Result :=
  withOperand s b m fun s m => (s.storeLower m (lowerAddress s.a)).goNext

/-- ISK (R168): equal to y, Br is cleared and the exit is full; unequal, Br is counted up and the exit is half.
B0 reads as zero and is not written, which is the clause for r = 0. -/
def execIsk (b : Designator) (y : Addr) (s : State) : Result :=
  withIndex s b y fun s r y =>
    if s.getB r = y then (s.setB r 0#15).exitFull else (s.setB r (inc15 (s.getB r))).exitHalf

/-- IJP (R169): Br not zero, it is counted down and a normal jump to m is taken; B0 is zero and never jumps. -/
def execIjp (b : Designator) (m : Addr) (s : State) : Result :=
  withIndex s b m fun s r m =>
    if s.getB r = 0#15 then s.goNext else (s.setB r (dec15 (s.getB r))).jump m

end Sys2Proof.Machine
end

