-- ==== Sys2Proof/Machine/DataTransmission.lean ====
section
/-! DEFINITION. Data transmission instructions (spec/40_data_transmission.md R130 to R141). -/

namespace Sys2Proof.Machine

/-- LDA (R131): A <- (M). -/
def execLda (b : Designator) (m : Addr) (s : State) : Result :=
  withOperand s b m fun s m => (s.setA (s.read m)).goNext

/-- LAC (R132): A <- complement of (M). -/
def execLac (b : Designator) (m : Addr) (s : State) : Result :=
  withOperand s b m fun s m => (s.setA (cmpl (s.read m))).goNext

/-- LDQ (R133): Q <- (M). -/
def execLdq (b : Designator) (m : Addr) (s : State) : Result :=
  withOperand s b m fun s m => (s.setQ (s.read m)).goNext

/-- LQC (R134): Q <- complement of (M). -/
def execLqc (b : Designator) (m : Addr) (s : State) : Result :=
  withOperand s b m fun s m => (s.setQ (cmpl (s.read m))).goNext

/-- STA (R135): (M) <- A. -/
def execSta (b : Designator) (m : Addr) (s : State) : Result :=
  withOperand s b m fun s m => (s.write m s.a).goNext

/-- STQ (R136): (M) <- Q. -/
def execStq (b : Designator) (m : Addr) (s : State) : Result :=
  withOperand s b m fun s m => (s.write m s.q).goNext

/-- LIU (R137): Br <- bits 38 to 24 of (m); a pass when r = 0. -/
def execLiu (b : Designator) (m : Addr) (s : State) : Result :=
  withIndirectOperand s b m fun s r m => (s.setB r (upperAddress (s.read m))).goNext

/-- LIL (R138): Br <- bits 14 to 0 of (m); a pass when r = 0. -/
def execLil (b : Designator) (m : Addr) (s : State) : Result :=
  withIndirectOperand s b m fun s r m => (s.setB r (lowerAddress (s.read m))).goNext

/-- SIU (R139): bits 38 to 24 of (m) <- Br; cleared when r = 0. -/
def execSiu (b : Designator) (m : Addr) (s : State) : Result :=
  withIndirectOperand s b m fun s r m => (s.storeUpper m (s.getB r)).goNext

/-- SIL (R140): bits 14 to 0 of (m) <- Br; cleared when r = 0. -/
def execSil (b : Designator) (m : Addr) (s : State) : Result :=
  withIndirectOperand s b m fun s r m => (s.storeLower m (s.getB r)).goNext

end Sys2Proof.Machine
end

