-- ==== Sys2Proof/Machine/ExternalFunction.lean ====
section
/-! DEFINITION. The external function instruction: select, activate, sense
(spec/49_transfer_and_external_function.md R309 to R321, R334, R335). -/

namespace Sys2Proof.Machine

/-- The effect of an internal select (R318). -/
def State.selectInternal (s : State) : InternalSelect → State
  | .interruptInactive c on => { s with selInactive := s.selInactive.set c on }
  | .interruptFaults on => { s with selArith := on }
  | .clearFaults => s.clearArithFaults
  | .clock on => { s with clockRunning := on }
  | .clearCarriageReturn => { s with console := { s.console with carriageReturn := false } }

/-- The effect of a console select (R334). The two channels are selected independently: the typewriter selected for
output on channel 2 keeps its selection for input on channel 1, and the other way round, so that it can be selected for
both at once, of which the spec says nothing ("for input or for output", R331). DESIGN CHOICE, log 22. None drops the characters of a word that the reader has partly assembled:
the spec does not say what becomes of them. DESIGN CHOICE, log 22. -/
def Console.select (c : Console) : ConsoleSelect → Console
  | .keyboard interrupt => { c with input := .keyboard, crInterrupt := interrupt, carriageReturn := false }
  | .reader interrupt => { c with input := .reader, eotInterrupt := interrupt }
  | .setEndOfTape => { c with endOfTape := true, eotInterrupt := false }
  | .typewriterOutput assembly => { c with output := .typewriter assembly }
  | .punch assembly => { c with output := .punch assembly, punchMotor := true }
  | .punchMotorOff => { c with punchMotor := false }

/-- `C0000` at the console equipment (R318): what is selected on channel C is dropped. The typewriter's interrupt
selection stays: it "can be cleared by the external master clear or the 74 0 11100 select only" (R334; log 34). -/
def Console.clearChannel (c : Console) (ch : Channel) : Console :=
  match ch with
  | .c1 => { c with input := .none, eotInterrupt := false }
  | .c2 => { c with output := .none }
  | .c3 => c
  | .c4 => c
  | .c5 => c
  | .c6 => c

/-- A code sent to the equipment of a buffer channel (R320): recorded for the environment to act on (log 23), with its
effect on the console equipment where it is one of its codes. Other units may share channels 1 and 2 (R330): the select
code of another equipment leaves the console equipment selected as it was. DESIGN CHOICE, log 22. -/
def State.selectExternal (s : State) (y : Addr) : State :=
  { s with
    equipment := { s.equipment with selects := s.equipment.selects ++ [y] }
    console :=
      match clearChannelCode y with
      | some ch => s.console.clearChannel ch
      | none =>
        match consoleSelect y with
        | some e => s.console.select e
        | none => s.console }

/-- select(y) (R311). An unlisted internal code, and a code of channel field 7, has no effect (R321; log 20). -/
def State.select (s : State) (y : Addr) : State :=
  if codeIsInternal y then
    match internalSelect y with
    | some e => s.selectInternal e
    | none => s
  else
    match codeBufferChannel y with
    | some _ => s.selectExternal y
    | none => s

/-- activate(j, y) (R313): the starting address into the control word in storage, both addresses into CRj, and the
channel active when they differ. The word is read and written in one storage reference (R81). -/
def State.activate (s : State) (c : Channel) (y : Addr) : State :=
  let word := (channelBits c).setWidth 15
  let terminal := lowerAddress (s.point.read word)
  let t := s.point.storeUpper word y
  { t with
    cr := t.cr.set c ⟨y, terminal⟩
    active := t.active.set c (decide (y ≠ terminal)) }

/-- Does the condition of an even internal sense code hold (R319)? -/
def State.conditionHolds (s : State) : InternalCondition → Bool
  | .active c => s.active.get c
  | .divideFault => s.faults.divide
  | .shiftFault => s.faults.shift
  | .overflowFault => s.faults.overflow
  | .exponentFault => s.faults.exponent
  | .line l => s.lineLevel l
  | .exitOnLower => decide (s.monExit = .lower)
  | .clockOverflow => s.faults.clockOverflow

/-- Does the condition of an even console sense code hold (R335)? -/
def Console.conditionHolds (c : Console) : ConsoleCondition → Bool
  | .carriageReturn => c.carriageReturn
  | .lowerCase => !c.upperCase
  | .endOfTape => c.endOfTape
  | .assemblyMode => c.readerAssembly
  | .outOfTape => c.outOfTape

/-- EQUIPMENT.sense (R320): the console's own codes from its state, every other code from what the attached equipment
answers; false if none recognises it (D17). -/
def State.senseExternal (s : State) (y : Addr) : Bool :=
  match consoleCondition y with
  | some e => s.console.conditionHolds e ^^ isOddCode y
  | none => s.equipment.answers.contains y

/-- The answer to a sense code (R314); none when the code is in no list (R321). The odd code of a pair is true exactly
when the even one is false. -/
def State.sense (s : State) (y : Addr) : Option Bool :=
  if codeIsInternal y then
    match internalCondition y with
    | some e => some (s.conditionHolds e ^^ isOddCode y)
    | none => none
  else
    match codeBufferChannel y with
    | some _ => some (s.senseExternal y)
    | none => none

/-- The exit of a sense (R314): full when the condition is present. An unlisted code is answered by a free bit (R321,
U8, U9; log 20). -/
def State.senseExit (s : State) (y : Addr) : State :=
  match s.sense y with
  | some c => s.exitIf c
  | none => State.exitIf { s with freeCount := s.freeCount + 1 } (Config.freeBit s.freeCount)

/-- EXF (R309). -/
def execExf (j : ExfFunction) (y : Addr) (s : State) : Result :=
  match j with
  | .select => .next (s.select y).goNext
  | .activate c => .next (s.activate c y).goNext
  | .sense => .next (s.senseExit y)

end Sys2Proof.Machine
end

