-- ==== Sys2Proof/Machine/FixedPoint.lean ====
section
/-! DEFINITION. Fixed point arithmetic instructions (spec/43_arithmetic_fixed.md R180 to R189). Buffer words and
interrupts wait for the end of a multiply or divide (R188): those four have the atomic operand form. -/

namespace Sys2Proof.Machine

/-- A <- x + y with the overflow fault (R181, R183): the addition of ADD, SUB, INA, ADL and SBL. After an overflow A
holds the end-around sum (D1). -/
def State.addToA (s : State) (x y : Word) : State := (s.setOverflowIf (ocOvf x y)).setA (ocAdd x y)

/-- ADD (R181). -/
def execAdd (b : Designator) (m : Addr) (s : State) : Result :=
  withOperand s b m fun s m => (s.addToA s.a (s.read m)).goNext

/-- SUB (R182): the addition of the complement. -/
def execSub (b : Designator) (m : Addr) (s : State) : Result :=
  withOperand s b m fun s m => (s.addToA s.a (cmpl (s.read m))).goNext

/-- The pattern of n bits with a magnitude and a sign: the magnitude, complemented when negative, a zero too (D4). -/
def signedPattern (n : Nat) (neg : Bool) (mag : Nat) : BitVec n :=
  if neg then cmpl (BitVec.ofNat n mag) else BitVec.ofNat n mag

/-- MUI (R184): the 96-bit integer product of A and (M) in QA. -/
def execMui (b : Designator) (m : Addr) (s : State) : Result :=
  withAtomic s b m fun s m =>
    (s.setQA (signedPattern 96 (s.a.msb != (s.read m).msb) (magnitude s.a * magnitude (s.read m)))).goNext

/-- MUF (R185): the 96-bit fractional product of A and (M) in AQ. -/
def execMuf (b : Designator) (m : Addr) (s : State) : Result :=
  withAtomic s b m fun s m =>
    (s.setAQ (signedPattern 96 (s.a.msb != (s.read m).msb) (2 * (magnitude s.a * magnitude (s.read m))))).goNext

/-- The largest quotient the register holds, 2^47 - 1 (R180, R186). -/
def quotientLimit : Nat := 2 ^ 47 - 1

/-- A divide fault (R186, R187, R366): the indicator is set and A and Q are unspecified (D5, U1; log 9). -/
def State.divideFault (s : State) : State := s.setDivideFault.freeAQ

/-- DVI (R186): the integer in QA by (M); quotient in A, remainder with the sign of the dividend in Q. -/
def execDvi (b : Designator) (m : Addr) (s : State) : Result :=
  withAtomic s b m fun s m =>
    let x := s.read m
    let d := double s.q s.a
    let md := magnitude d
    let mx := magnitude x
    if mx = 0 ∨ quotientLimit < md / mx then s.divideFault.goNext
    else
      ((s.setA (signedPattern 48 (d.msb != x.msb) (md / mx))).setQ (signedPattern 48 d.msb (md % mx))).goNext

/-- DVF_REMAINDER (R187, D6): a zero with the sign of the dividend when the division is exact; otherwise that sign
with 47 free bits below it. Log 10. -/
def dvfRemainder (md mx quot : Nat) (neg : Bool) : Word :=
  if md = 2 * mx * quot then signedPattern 48 neg 0
  else BitVec.ofBool neg ++ Config.dvfRemainder md mx quot neg

/-- DVF (R187): the fraction in AQ by (M); quotient in A, remainder in Q. -/
def execDvf (b : Designator) (m : Addr) (s : State) : Result :=
  withAtomic s b m fun s m =>
    let x := s.read m
    let d := double s.a s.q
    let md := magnitude d
    let mx := magnitude x
    let quot := md / (2 * mx)
    if mx = 0 ∨ quotientLimit < quot then s.divideFault.goNext
    else ((s.setA (signedPattern 48 (d.msb != x.msb) quot)).setQ (dvfRemainder md mx quot d.msb)).goNext

end Sys2Proof.Machine
end

