-- ==== Sys2Proof/Machine/FloatingPoint.lean ====
section
/-! DEFINITION. Floating point arithmetic and scale instructions (spec/44_arithmetic_floating.md R200 to R212). Buffer
words and interrupts wait for the end of each of them (R188), so all have the atomic operand forms. -/

namespace Sys2Proof.Machine

/-- A floating point word taken apart (R200, R201): sign, true exponent, 36-bit coefficient as an integer. -/
structure FpParts where
  neg : Bool
  exp : Int
  coef : Nat
  deriving DecidableEq, Repr

/-- fp_unpack (R201): a negative word is the complement of its magnitude's; the bias is 0o2000, or 0o1777 below it. -/
def fpUnpack (w : Word) : FpParts :=
  let u := if w.msb then cmpl w else w
  let be := (u.extractLsb' 36 11).toNat
  { neg := w.msb
    exp := if 0o2000 ≤ be then (be : Int) - 0o2000 else (be : Int) - 0o1777
    coef := (u.extractLsb' 0 36).toNat }

/-- fp_pack (R201). -/
def fpPack (f : FpParts) : Word :=
  let be := if 0 ≤ f.exp then 0o2000 + f.exp else 0o1777 + f.exp
  let u : Word := 0#1 ++ BitVec.ofNat 11 be.toNat ++ BitVec.ofNat 36 f.coef
  if f.neg then cmpl u else u

/-- An exact real number num / den * 2^exp, den above 0: what the operations of R203 are computed on. -/
structure Exact where
  num : Int
  den : Nat
  exp : Int
  deriving DecidableEq, Repr

/-- The value of a floating point word (R201): (-1)^s * c * 2^(e - 36); total, for unnormalized words too (U6; log 13). -/
def fpValue (w : Word) : Exact :=
  let f := fpUnpack w
  { num := if f.neg then -(f.coef : Int) else (f.coef : Int), den := 1, exp := f.exp - 36 }

/-- The negative of a number. -/
def Exact.neg (x : Exact) : Exact := { x with num := -x.num }

/-- The sum of two numbers of denominator 1. -/
def Exact.add (x y : Exact) : Exact :=
  let e := min x.exp y.exp
  { num := x.num * (2 ^ (x.exp - e).toNat : Nat) + y.num * (2 ^ (y.exp - e).toNat : Nat), den := 1, exp := e }

/-- The product of two numbers. -/
def Exact.mul (x y : Exact) : Exact := { num := x.num * y.num, den := x.den * y.den, exp := x.exp + y.exp }

/-- The quotient of two numbers of denominator 1, the second not zero. -/
def Exact.div (x y : Exact) : Exact :=
  { num := x.num * y.num.sign, den := y.num.natAbs, exp := x.exp - y.exp }

/-- The e with 2^(e-1) ≤ num / den * 2^exp < 2^e for num and den above 0 (R203): the ratio lies between 2^(d-1) and
2^(d+1) for the difference d of the logarithms, and one comparison decides. -/
def normalExponent (num den : Nat) (exp : Int) : Int :=
  let d : Int := (Nat.log2 num : Int) - (Nat.log2 den : Int)
  if den * 2 ^ d.toNat ≤ num * 2 ^ (-d).toNat then d + 1 + exp else d + exp

/-- FP_ROUND (R203, D7) on c* = num / den: `floor(c*)` or `floor(c*) + 1`, and exactly c* when it is an integer; with
the residue left in Q. The open choices are Config's, applied to c* in lowest terms. Log 11. -/
def fpRound (neg : Bool) (num den : Nat) : Nat × Word :=
  let fl := num / den
  let rem := num % den
  let g := Nat.gcd rem den
  let up := if rem = 0 then false else Config.fpRoundUp neg fl (rem / g) (den / g)
  (if up then fl + 1 else fl, Config.fpResidue neg fl (rem / g) (den / g))

/-- The rest of fp_result (R203) once the coefficient is rounded: a carry out of the coefficient is taken into the
exponent; an exponent out of range sets the exponent fault and leaves A and Q unspecified (R208, U5; log 12). -/
def State.fpFinish (s : State) (neg : Bool) (exp : Int) (coef : Nat) (residue : Word) : State :=
  let e := if coef = 2 ^ 36 then exp + 1 else exp
  let c := if coef = 2 ^ 36 then 2 ^ 35 else coef
  if 1023 < e ∨ e < -1023 then s.setExponentFault.freeAQ
  else (s.setA (fpPack ⟨neg, e, c⟩)).setQ residue

/-- fp_result(v) (R203): zero gives +0 in A and in Q (D33); otherwise normalize, round, pack. -/
def State.fpResult (s : State) (v : Exact) : State :=
  if v.num = 0 then (s.setA 0#48).setQ 0#48
  else
    let neg := decide (v.num < 0)
    let n := v.num.natAbs
    let e := normalExponent n v.den v.exp
    let up := 36 - e + v.exp
    let r := fpRound neg (n * 2 ^ up.toNat) (v.den * 2 ^ (-up).toNat)
    s.fpFinish neg e r.1 r.2

/-- FAD (R204). -/
def execFad (b : Designator) (m : Addr) (s : State) : Result :=
  withAtomic s b m fun s m => (s.fpResult ((fpValue s.a).add (fpValue (s.read m)))).goNext

/-- FSB (R205). -/
def execFsb (b : Designator) (m : Addr) (s : State) : Result :=
  withAtomic s b m fun s m => (s.fpResult ((fpValue s.a).add (fpValue (s.read m)).neg)).goNext

/-- FMU (R206). -/
def execFmu (b : Designator) (m : Addr) (s : State) : Result :=
  withAtomic s b m fun s m => (s.fpResult ((fpValue s.a).mul (fpValue (s.read m)))).goNext

/-- Floating division by zero (R207, U7): A, Q and the exponent fault indicator are unspecified. Log 12. -/
def State.fpDivideByZero (s : State) : State :=
  { s.freeAQ with faults := { s.faults with exponent := Config.freeBit s.freeCount } }

/-- FDV (R207): the divide fault is never set. -/
def execFdv (b : Designator) (m : Addr) (s : State) : Result :=
  withAtomic s b m fun s m =>
    if (fpValue (s.read m)).num = 0 then s.fpDivideByZero.goNext
    else (s.fpResult ((fpValue s.a).div (fpValue (s.read m)))).goNext

/-- The scaling loop (R210, R211): rotate left until the top two bits differ or the count runs out; the pattern and
the count left. -/
def scaleLeft {n : Nat} : Nat → BitVec n → BitVec n × Nat
  | 0, x => (x, 0)
  | k + 1, x => if x.msb = x.getMsbD 1 then scaleLeft k (rotl x 1) else (x, k + 1)

/-- SCA (R210): a zero of either sign is not scaled and the count stays k. -/
def execSca (b : Designator) (k : Addr) (s : State) : Result :=
  withAtomicIndex s b k fun s r k =>
    if isZero s.a then (s.setB r k).goNext
    else
      let x := scaleLeft k.toNat s.a
      ((s.setA x.1).setB r (BitVec.ofNat 15 x.2)).goNext

/-- SCQ_ZERO_TEST(A, Q) (R211, D8): on A or on the whole of AQ, which the spec leaves open. Log 14. -/
def scqZeroTest (a q : Word) : Bool := if Config.scqTestsWholeAQ then isZero (double a q) else isZero a

/-- SCQ (R211). -/
def execScq (b : Designator) (k : Addr) (s : State) : Result :=
  withAtomicIndex s b k fun s r k =>
    if scqZeroTest s.a s.q then (s.setB r k).goNext
    else
      let x := scaleLeft k.toNat (double s.a s.q)
      ((s.setAQ x.1).setB r (BitVec.ofNat 15 x.2)).goNext

end Sys2Proof.Machine
end

