-- ==== Sys2Proof/Machine/JumpsStops.lean ====
section
/-! DEFINITION. Jump and stop instructions, and the two illegal codes (spec/46_jumps_and_stops.md R235 to R243;
spec/30_encoding.md R106). -/

namespace Sys2Proof.Machine

/-- cond(j, v) (R236): both zeros are zero, the sign is bit 47 (log 37). -/
def regCondHolds (c : RegCond) (v : Word) : Bool :=
  match c with
  | .zero => isZero v
  | .nonzero => !isZero v
  | .plus => !v.msb
  | .minus => v.msb

/-- key_cond(j, keys) (R237). -/
def keyCondHolds (c : KeyCond) (k : Keys) : Bool :=
  match c with
  | .always => true
  | .key1 => k.key1
  | .key2 => k.key2
  | .key3 => k.key3

/-- AJP (R238). -/
def execAjp (j : JumpKind) (c : RegCond) (m : Addr) (s : State) : Result :=
  .next (if regCondHolds c s.a then s.jumpBy j m else s.goNext)

/-- QJP (R239). -/
def execQjp (j : JumpKind) (c : RegCond) (m : Addr) (s : State) : Result :=
  .next (if regCondHolds c s.q then s.jumpBy j m else s.goNext)

/-- SLJ (R240). -/
def execSlj (j : JumpKind) (c : KeyCond) (m : Addr) (s : State) : Result :=
  .next (if keyCondHolds c s.jumpKey then s.jumpBy j m else s.goNext)

/-- SLS (R241): the stop condition holds, it stops with P and half still naming it, its jump still to be made on
restart (`State.resumeStop`); otherwise it jumps. -/
def execSls (j : JumpKind) (c : KeyCond) (m : Addr) (s : State) : Result :=
  .next (if keyCondHolds c s.stopKey then s.stop .sls else s.jumpBy j m)

/-- ZRO, code 00 (R106): stop(illegal), whatever the designator and the address. -/
def execZro (_b : Designator) (_m : Addr) (s : State) : Result := .next (s.stop .illegal)

/-- SEV, code 77 (R106): stop(illegal), whatever the designator and the address. -/
def execSev (_b : Designator) (_m : Addr) (s : State) : Result := .next (s.stop .illegal)

end Sys2Proof.Machine
end

