-- ==== Sys2Proof/Machine/NoAddress.lean ====
section
/-! DEFINITION. No-address instructions (spec/45_no_address.md R220 to R226). -/

namespace Sys2Proof.Machine

/-- ENQ (R221): Q <- Y with its sign extended. -/
def execEnq (b : Designator) (y : Addr) (s : State) : Result :=
  withAddress s b y fun s y => (s.setQ (sext48 y)).goNext

/-- ENA (R222): A <- Y with its sign extended. -/
def execEna (b : Designator) (y : Addr) (s : State) : Result :=
  withAddress s b y fun s y => (s.setA (sext48 y)).goNext

/-- INA (R223): A <- A + Y, with the overflow fault (R183; log 36). -/
def execIna (b : Designator) (y : Addr) (s : State) : Result :=
  withAddress s b y fun s y => (s.addToA s.a (sext48 y)).goNext

/-- ENI (R224): Br <- y; a pass when r = 0. -/
def execEni (b : Designator) (y : Addr) (s : State) : Result :=
  withIndex s b y fun s r y => (s.setB r y).goNext

/-- INI (R225): Br <- Br + y in one's complement (D2); a pass when r = 0. -/
def execIni (b : Designator) (y : Addr) (s : State) : Result :=
  withIndex s b y fun s r y => (s.setB r (ocAdd (s.getB r) y)).goNext

end Sys2Proof.Machine
end

