-- ==== Sys2Proof/Machine/SearchReplace.lean ====
section
/-! DEFINITION. Storage search and replace instructions (spec/48_search_and_replace.md R280 to R295). -/

namespace Sys2Proof.Machine

/-- The ending of a search (R280, R286): found, the full exit; not found, the half exit from the upper position and
the full exit from the lower one. -/
def State.searchEnd (s : State) (found : Bool) : State :=
  if found then s.exitFull
  else
    match s.half with
    | .upper => s.exitHalf
    | .lower => s.exitFull

/-- What can happen between the words of a search or a transfer (R376(b), R304): other agents act, then an interrupt
that is due abandons the instruction, Br holding the remaining count (D34); otherwise it goes on, and they may act
again before the reference of the next word. -/
def State.betweenWords (s : State) (goOn : State → State) : State :=
  if s.point.interruptDue then s.point.interruptEntry else goOn s.point

/-- The words of a search with index register r, from the highest address down (R280); the number is the count left. -/
def searchWords (found : Word → Bool) (r : IndexReg) (m : Addr) : Nat → State → State
  | 0, s => s.searchEnd false
  | n + 1, s =>
    let t := s.point.setB (some r) (dec15 (s.point.b.get r))
    if found (t.read (ocAdd m (t.b.get r))) then t.searchEnd true
    else
      match n with
      | 0 => t.searchEnd false
      | k + 1 => t.betweenWords (searchWords found r m (k + 1))

/-- The common procedure of the searches (R280): the one word at m when r = 0, else the list whose length is in Br. -/
def search (found : Word → Bool) (b : Designator) (m : Addr) (s : State) : Result :=
  withIndex s b m fun s r m =>
    match r with
    | none => s.point.searchEnd (found (s.point.read m))
    | some r => searchWords found r m (s.b.get r).toNat s

/-- EQS (R282): a word equal to A. -/
def execEqs (b : Designator) (m : Addr) (s : State) : Result := search (fun w => searchEq w s.a) b m s

/-- THS (R283): a word greater than A. -/
def execThs (b : Designator) (m : Addr) (s : State) : Result := search (fun w => searchGt w s.a) b m s

/-- MEQ (R284): a word whose logical product with Q equals A. -/
def execMeq (b : Designator) (m : Addr) (s : State) : Result := search (fun w => searchEq (s.q &&& w) s.a) b m s

/-- MTH (R285): a word whose logical product with Q is greater than A. -/
def execMth (b : Designator) (m : Addr) (s : State) : Result := search (fun w => searchGt (s.q &&& w) s.a) b m s

/-- What the replace instructions share (R290): word M is read; x is added to it with the overflow fault; the sum goes
to A and back to word M. The read and the write are two references, between which other agents may act (R81; log 7). -/
def State.replaceWith (s : State) (m : Addr) (x : Word) : State :=
  ((s.point.addToA (s.read m) x).write m (ocAdd (s.read m) x)).goNext

/-- RAD (R291): (M) + A. -/
def execRad (b : Designator) (m : Addr) (s : State) : Result :=
  withOperand s b m fun s m => s.replaceWith m s.a

/-- RSB (R292): (M) - A. -/
def execRsb (b : Designator) (m : Addr) (s : State) : Result :=
  withOperand s b m fun s m => s.replaceWith m (cmpl s.a)

/-- RAO (R293): (M) + 1. -/
def execRao (b : Designator) (m : Addr) (s : State) : Result :=
  withOperand s b m fun s m => s.replaceWith m 1#48

/-- RSO (R294): (M) - 1. -/
def execRso (b : Designator) (m : Addr) (s : State) : Result :=
  withOperand s b m fun s m => s.replaceWith m (cmpl 1#48)

end Sys2Proof.Machine
end

