-- ==== Sys2Proof/Machine/Shifting.lean ====
section
/-! DEFINITION. Shifting instructions (spec/41_shifting.md R150 to R157). The closed forms are those of R157(a). -/

namespace Sys2Proof.Machine

/-- What the six shifts share (R150): the modified count K as an unsigned number (D23), the shift fault set when it
exceeds 127, then the shift, given as what it does with K; it ends in next. No other agent acts from its start to its
end (R431). -/
def shiftBy (b : Designator) (k : Addr) (s : State) (shift : State → Nat → State) : Result :=
  withAtomic s b k fun s k => (shift (s.setShiftFaultIf (decide (shiftLimit < k.toNat))) k.toNat).goNext

/-- ARS (R151): A right, the sign extended. -/
def execArs (b : Designator) (k : Addr) (s : State) : Result :=
  shiftBy b k s fun s k => s.setA (asr s.a (min k 48))

/-- QRS (R152): Q right, the sign extended. -/
def execQrs (b : Designator) (k : Addr) (s : State) : Result :=
  shiftBy b k s fun s k => s.setQ (asr s.q (min k 48))

/-- LRS (R153): AQ right as one 96-bit register, the sign of A extended. -/
def execLrs (b : Designator) (k : Addr) (s : State) : Result :=
  shiftBy b k s fun s k => s.setAQ (asr (double s.a s.q) (min k 96))

/-- ALS (R154): A left, circular. -/
def execAls (b : Designator) (k : Addr) (s : State) : Result :=
  shiftBy b k s fun s k => s.setA (rotl s.a (k % 48))

/-- QLS (R155): Q left, circular. -/
def execQls (b : Designator) (k : Addr) (s : State) : Result :=
  shiftBy b k s fun s k => s.setQ (rotl s.q (k % 48))

/-- LLS (R156): AQ left, circular, as one 96-bit register. -/
def execLls (b : Designator) (k : Addr) (s : State) : Result :=
  shiftBy b k s fun s k => s.setAQ (rotl (double s.a s.q) (k % 96))

end Sys2Proof.Machine
end

