-- ==== Sys2Proof/Machine/StorageTestLogical.lean ====
section
/-! DEFINITION. Storage test and logical instructions (spec/47_storage_test_and_logical.md R260 to R272). -/

namespace Sys2Proof.Machine

/-- SSK (R261): full exit when (M) is negative, half exit when it is positive. -/
def execSsk (b : Designator) (m : Addr) (s : State) : Result :=
  withOperand s b m fun s m => s.exitIf (s.read m).msb

/-- SSH (R262): (M) is shifted left circularly one place; the exit is by its sign before the shift. The read and the
write are two references, between which other agents may act (R81; log 7). -/
def execSsh (b : Designator) (m : Addr) (s : State) : Result :=
  withOperand s b m fun s m => (s.point.write m (rotl (s.read m) 1)).exitIf (s.read m).msb

/-- SST (R264): A <- A or (M). -/
def execSst (b : Designator) (m : Addr) (s : State) : Result :=
  withOperand s b m fun s m => (s.setA (s.a ||| s.read m)).goNext

/-- SCL (R266): A <- A and not (M). -/
def execScl (b : Designator) (m : Addr) (s : State) : Result :=
  withOperand s b m fun s m => (s.setA (s.a &&& ~~~s.read m)).goNext

/-- SCM (R265): A <- A exclusive or (M). -/
def execScm (b : Designator) (m : Addr) (s : State) : Result :=
  withOperand s b m fun s m => (s.setA (s.a ^^^ s.read m)).goNext

/-- SSU (R267): the bits of (M) where Q is 1, the bits of A elsewhere. -/
def execSsu (b : Designator) (m : Addr) (s : State) : Result :=
  withOperand s b m fun s m => (s.setA ((s.a &&& ~~~s.q) ||| (s.read m &&& s.q))).goNext

/-- LDL (R268): A <- Q and (M). -/
def execLdl (b : Designator) (m : Addr) (s : State) : Result :=
  withOperand s b m fun s m => (s.setA (s.q &&& s.read m)).goNext

/-- ADL (R269): A <- A + (Q and (M)), with the overflow fault (log 36). -/
def execAdl (b : Designator) (m : Addr) (s : State) : Result :=
  withOperand s b m fun s m => (s.addToA s.a (s.q &&& s.read m)).goNext

/-- SBL (R270): A <- A - (Q and (M)), with the overflow fault (log 36). -/
def execSbl (b : Designator) (m : Addr) (s : State) : Result :=
  withOperand s b m fun s m => (s.addToA s.a (cmpl (s.q &&& s.read m))).goNext

/-- STL (R271): (M) <- Q and A. -/
def execStl (b : Designator) (m : Addr) (s : State) : Result :=
  withOperand s b m fun s m => (s.write m (s.q &&& s.a)).goNext

end Sys2Proof.Machine
end

