-- ==== Sys2Proof/Machine/Transfer.lean ====
section
/-! DEFINITION. Transfer instructions on channel 7 (spec/49_transfer_and_external_function.md R300 to R304). -/

namespace Sys2Proof.Machine

/-- The instruction waits for its equipment (R304(c)): it is held, its operands resolved, and goes on in the next turn
without a fetch and without an interrupt or breakpoint test. Log 21. -/
def State.wait (s : State) (i : Instr) : State := { s with held := some i }

/-- The designator that names an index register directly, or none. -/
def designatorFor : Option IndexReg → Designator
  | none => .direct
  | some r => .index r

/-- The next word of channel 7 input goes to storage (R302). -/
def State.inputWord (s : State) (m : Addr) (w : Word) (rest : List Word) : State :=
  { s.write m w with equipment := { s.equipment with ch7In := rest } }

/-- The words of an input transfer with index register r, from the highest address down (R302); the number is the
count left. While it waits for a word the index register still counts that word: the prose of R302 reduces Bb "as each
word is transferred", its pseudocode before the wait. DESIGN CHOICE, log 21. -/
def inputWords (r : IndexReg) (m : Addr) : Nat → State → State
  | 0, s => s.goNext
  | n + 1, s =>
    match s.point.equipment.ch7In with
    | [] => s.point.wait (.int (.index r) m)
    | w :: rest =>
      let k := dec15 (s.point.b.get r)
      let t := (s.point.setB (some r) k).inputWord (ocAdd m k) w rest
      match n with
      | 0 => t.goNext
      | k + 1 => t.betweenWords (inputWords r m (k + 1))

/-- INT (R302). -/
def execInt (b : Designator) (m : Addr) (s : State) : Result :=
  withIndex s b m fun s r m =>
    match r with
    | none =>
      match s.point.equipment.ch7In with
      | [] => s.point.wait (.int .direct m)
      | w :: rest => (s.point.inputWord m w rest).goNext
    | some r => inputWords r m (s.b.get r).toNat s

/-- A word is sent on channel 7 output, which accepts one word fewer from now on (R303). -/
def State.outputWord (s : State) (w : Word) : State :=
  { s with
    equipment :=
      { s.equipment with ch7Accept := s.equipment.ch7Accept - 1, ch7Out := s.equipment.ch7Out ++ [w] } }

/-- The words of an output transfer with index register r, from the highest address down (R303); the number is the
count left. While it waits for the equipment the index register still counts the word to be sent, as in `inputWords`,
and that word is read from storage only when the equipment accepts it, so that what another agent writes there during
the wait is what is sent: "send MemRead(...)" of R303 does not say which comes first. DESIGN CHOICE, log 21. -/
def outputWords (r : IndexReg) (m : Addr) : Nat → State → State
  | 0, s => s.goNext
  | n + 1, s =>
    if s.point.equipment.ch7Accept = 0 then s.point.wait (.out (.index r) m)
    else
      let k := dec15 (s.point.b.get r)
      let t := (s.point.setB (some r) k).outputWord (s.point.read (ocAdd m k))
      match n with
      | 0 => t.goNext
      | k + 1 => t.betweenWords (outputWords r m (k + 1))

/-- OUT (R303). Without an index register too the word is read when the equipment accepts it, after the wait. DESIGN
CHOICE, log 21. -/
def execOut (b : Designator) (m : Addr) (s : State) : Result :=
  withIndex s b m fun s r m =>
    match r with
    | none =>
      if s.point.equipment.ch7Accept = 0 then s.point.wait (.out .direct m)
      else (s.point.outputWord (s.point.read m)).goNext
    | some r => outputWords r m (s.b.get r).toNat s

end Sys2Proof.Machine
end

