-- ==== Sys2Proof/Machine/Dispatch.lean ====
section
/-! DEFINITION. The meaning of every instruction, one arm per row of the opcode table (spec/30_encoding.md R104). -/

namespace Sys2Proof.Machine

def exec (i : Instr) (s : State) : Host.Outcome State Fault Refusal :=
  match i with
  | .zro b e => Sys2Proof.Machine.execZro b e s
  | .ars b e => Sys2Proof.Machine.execArs b e s
  | .qrs b e => Sys2Proof.Machine.execQrs b e s
  | .lrs b e => Sys2Proof.Machine.execLrs b e s
  | .enq b e => Sys2Proof.Machine.execEnq b e s
  | .als b e => Sys2Proof.Machine.execAls b e s
  | .qls b e => Sys2Proof.Machine.execQls b e s
  | .lls b e => Sys2Proof.Machine.execLls b e s
  | .ena b e => Sys2Proof.Machine.execEna b e s
  | .ina b e => Sys2Proof.Machine.execIna b e s
  | .lda b e => Sys2Proof.Machine.execLda b e s
  | .lac b e => Sys2Proof.Machine.execLac b e s
  | .add b e => Sys2Proof.Machine.execAdd b e s
  | .sub b e => Sys2Proof.Machine.execSub b e s
  | .ldq b e => Sys2Proof.Machine.execLdq b e s
  | .lqc b e => Sys2Proof.Machine.execLqc b e s
  | .sta b e => Sys2Proof.Machine.execSta b e s
  | .stq b e => Sys2Proof.Machine.execStq b e s
  | .ajp j c m => Sys2Proof.Machine.execAjp j c m s
  | .qjp j c m => Sys2Proof.Machine.execQjp j c m s
  | .mui b e => Sys2Proof.Machine.execMui b e s
  | .dvi b e => Sys2Proof.Machine.execDvi b e s
  | .muf b e => Sys2Proof.Machine.execMuf b e s
  | .dvf b e => Sys2Proof.Machine.execDvf b e s
  | .fad b e => Sys2Proof.Machine.execFad b e s
  | .fsb b e => Sys2Proof.Machine.execFsb b e s
  | .fmu b e => Sys2Proof.Machine.execFmu b e s
  | .fdv b e => Sys2Proof.Machine.execFdv b e s
  | .sca b e => Sys2Proof.Machine.execSca b e s
  | .scq b e => Sys2Proof.Machine.execScq b e s
  | .ssk b e => Sys2Proof.Machine.execSsk b e s
  | .ssh b e => Sys2Proof.Machine.execSsh b e s
  | .sst b e => Sys2Proof.Machine.execSst b e s
  | .scl b e => Sys2Proof.Machine.execScl b e s
  | .scm b e => Sys2Proof.Machine.execScm b e s
  | .ssu b e => Sys2Proof.Machine.execSsu b e s
  | .ldl b e => Sys2Proof.Machine.execLdl b e s
  | .adl b e => Sys2Proof.Machine.execAdl b e s
  | .sbl b e => Sys2Proof.Machine.execSbl b e s
  | .stl b e => Sys2Proof.Machine.execStl b e s
  | .eni b e => Sys2Proof.Machine.execEni b e s
  | .ini b e => Sys2Proof.Machine.execIni b e s
  | .liu b e => Sys2Proof.Machine.execLiu b e s
  | .lil b e => Sys2Proof.Machine.execLil b e s
  | .isk b e => Sys2Proof.Machine.execIsk b e s
  | .ijp b e => Sys2Proof.Machine.execIjp b e s
  | .siu b e => Sys2Proof.Machine.execSiu b e s
  | .sil b e => Sys2Proof.Machine.execSil b e s
  | .sau b e => Sys2Proof.Machine.execSau b e s
  | .sal b e => Sys2Proof.Machine.execSal b e s
  | .int b e => Sys2Proof.Machine.execInt b e s
  | .out b e => Sys2Proof.Machine.execOut b e s
  | .eqs b e => Sys2Proof.Machine.execEqs b e s
  | .ths b e => Sys2Proof.Machine.execThs b e s
  | .meq b e => Sys2Proof.Machine.execMeq b e s
  | .mth b e => Sys2Proof.Machine.execMth b e s
  | .rad b e => Sys2Proof.Machine.execRad b e s
  | .rsb b e => Sys2Proof.Machine.execRsb b e s
  | .rao b e => Sys2Proof.Machine.execRao b e s
  | .rso b e => Sys2Proof.Machine.execRso b e s
  | .exf j y => Sys2Proof.Machine.execExf j y s
  | .slj j c m => Sys2Proof.Machine.execSlj j c m s
  | .sls j c m => Sys2Proof.Machine.execSls j c m s
  | .sev b e => Sys2Proof.Machine.execSev b e s

end Sys2Proof.Machine
end

