-- ==== Sys2Proof/Machine/Operator.lean ====
section
/-! DEFINITION. The operator: master clear, Start and Step, registers keyed in, keys and switches, the start of
execution by Auto Load (spec/10_state.md R40 to R46; spec/60_exceptions.md R361 to R364, R410;
spec/70_reset_and_hazards.md R420 to R424). -/

namespace Sys2Proof.Machine

/-- The position a free bit stands for. -/
def halfOfBit (x : Bool) : Half := if x then .lower else .upper

/-- The control registers after a master clear: unspecified (R46, U13). Log 28. -/
def freeControlRegs (n : Nat) : PerChannel ControlReg :=
  let addr (k : Nat) : Addr := lowerAddress (Config.freeWord (n + k))
  ⟨⟨addr 0, addr 1⟩, ⟨addr 2, addr 3⟩, ⟨addr 4, addr 5⟩, ⟨addr 6, addr 7⟩, ⟨addr 8, addr 9⟩, ⟨addr 10, addr 11⟩⟩

/-- internal_master_clear (R46, R420): the operational registers and the control flip-flops of the table; storage, the
external lines, the keys and the switches stay. The End of Tape indicator of the reader is set "On a computer master
clear" (R332), which is this one, and by the external clear too (R46, R420). DEDUCED, log 41. -/
def State.internalClear (s : State) : State :=
  { s with
    a := 0#48
    q := 0#48
    b := ⟨0#15, 0#15, 0#15, 0#15, 0#15, 0#15⟩
    p := 0#15
    u1 := 0#48
    half := .upper
    run := .stopped .clear
    faults := Faults.none
    selArith := false
    selInactive := PerChannel.all false
    imr := PerLine.all false
    lockout := false
    intExit := false
    monExit := halfOfBit (Config.freeBit s.freeCount)
    lastPos := halfOfBit (Config.freeBit (s.freeCount + 1))
    clockRunning := false
    console := { s.console with endOfTape := true }
    active := PerChannel.all false
    cr := freeControlRegs s.freeCount
    held := none
    breakPassed := false
    freeCount := s.freeCount + 12 }

/-- external_master_clear (R420): every equipment drops its selections and interrupt selections; the paper tape reader
is selected and its End of Tape indicator set. Of the "registers and control FFs of the external equipment" that the
clear leaves out the source names none: the Carriage Return indicator, the hang-up, the case, the characters assembled
so far, the switches, the punch motor and channel 7 stay. DESIGN CHOICE, log 42. -/
def State.externalClear (s : State) : State :=
  { s with
    extInt := PerLine.all false
    console :=
      { s.console with
        input := .reader, output := .none, crInterrupt := false, eotInterrupt := false, endOfTape := true } }

/-- The bits of the current instruction in U1 (R25, R26). -/
def State.currentBits (s : State) : InstrBits :=
  match s.half with
  | .upper => upperInstr s.u1
  | .lower => lowerInstr s.u1

/-- What a selective stop still has to do when the computer is started again (R241, R364): its jump or return jump,
made without testing the stop keys. An instruction keyed in meanwhile takes its place (R364). R364 says both that this
jump "is made first" and that "a restart uses the changed values": a P keyed in meanwhile does not replace the jump, so
that a normal jump loses it and a return jump stores it plus one. The jump is made whatever the mode switch is, in the
sweep position too, where R410 executes no half-word, and in the repeat position once. DESIGN CHOICE, log 19. -/
def State.resumeStop (s : State) : State :=
  match s.held with
  | some _ => s
  | none =>
    match decode s.currentBits with
    | .sls j _ m => s.releaseLockout (s.jumpBy j m)
    | _ => s

/-- Start (R364): high-speed mode; the cycle resumes at (P, half). After a stop on an illegal
code it does nothing until the operator has changed what is to be executed (R106, log 17). -/
def State.operatorStart (s : State) : State :=
  match s.run with
  | .running => { s with singleStep := false }
  | .stopped .illegal => s
  | .stopped .sls => { s.resumeStop with run := .running, singleStep := false }
  | .stopped .breakpoint => { s with run := .running, singleStep := false, breakPassed := true }
  | .stopped .operator => { s with run := .running, singleStep := false }
  | .stopped .clear => { s with run := .running, singleStep := false }

/-- Step (R364): exactly one instruction, then stopped(operator). After a selective stop that one instruction is the
SLS itself, whose jump is still to be made (log 19). -/
def State.operatorStep (s : State) : State :=
  match s.run with
  | .running => { s with singleStep := true }
  | .stopped .illegal => s
  | .stopped .sls =>
    match s.held with
    | some _ => { s with run := .running, singleStep := true }
    | none => { s.resumeStop with run := .stopped .operator, singleStep := true }
  | .stopped .breakpoint => { s with run := .running, singleStep := true, breakPassed := true }
  | .stopped .operator => { s with run := .running, singleStep := true }
  | .stopped .clear => { s with run := .running, singleStep := true }

/-- The stop that the operator restarts from once an instruction or an address has been keyed in: after an illegal code
the changed values are there to be used (R364, U11), as the load procedure needs that has to step an instruction it keys
over a word of zeros (R423). DEDUCED, log 17. -/
def State.rekeyed (s : State) : State :=
  match s.run with
  | .stopped .illegal => s.stop .operator
  | .stopped .sls => s
  | .stopped .breakpoint => s
  | .stopped .operator => s
  | .stopped .clear => s
  | .running => s

/-- A register keyed in (R364). An instruction that is held (keyed into U1 before, or left by the repeat position) stays
held when P is keyed: a restart executes it first, at the new P and without a fetch there. The spec says only that a
restart uses the changed values. DESIGN CHOICE, log 27. -/
def State.keyIn (s : State) : KeyedRegister → State
  | .a w => s.setA w
  | .q w => s.setQ w
  | .p m => { s.rekeyed with p := m }
  | .index r y => s.setB (some r) y
  | .instruction w =>
    match s.half with
    | .upper => { s.rekeyed with u1 := w ++ lowerInstr s.u1, held := some (decode w) }
    | .lower => { s.rekeyed with u1 := upperInstr s.u1 ++ w, held := some (decode w) }

/-- The Auto Load button, its words 0o00000, 0o00001 and 0o00003 written (`State.autoLoadWord`), starts execution at
0o00000 (R424); before that it starts nothing. The Start/Step selection and the mode switch stay, so that the routine is
stepped, repeated or swept as they say. An instruction that is held (an INT or OUT waiting for channel 7, one keyed into
U1 or left by the repeat position) is dropped, unfinished. DESIGN CHOICE, log 33. -/
def State.autoLoadStart (s : State) : State :=
  if s.bootWritten = bootWords.length then
    { s with p := 0#15, half := .upper, run := .running, held := none, breakPassed := false, bootWritten := 0 }
  else s

/-- One act of the operator, or the start of execution by Auto Load. Registers are keyed only while the computer is stopped (R364). -/
def State.deliverOperator (s : State) : OperatorEvent → State
  | .jumpKeys k => { s with jumpKey := k }
  | .stopKeys k => { s with stopKey := k }
  | .breakpoint a => { s with breakpoint := a }
  | .modeSwitch m => { s with modeSwitch := m }
  | .key r => if s.run = .running then s else s.keyIn r
  | .start => s.operatorStart
  | .step => s.operatorStep
  | .internalClear => s.internalClear
  | .externalClear => s.externalClear
  | .autoLoadStart => s.autoLoadStart

/-- One event of the environment. -/
def State.deliver (s : State) : Event → State
  | .io e => s.deliverIo e
  | .operator e => s.deliverOperator e

end Sys2Proof.Machine
end

