-- ==== Sys2Proof/Machine/Cycle.lean ====
section
/-! DEFINITION. The instruction cycle (spec/30_encoding.md R108): the environment's events, the interrupt test, the
breakpoint test, the fetch, the execution and what follows its completion. -/

namespace Sys2Proof.Machine

/-- The environment's part in this turn (log 6): the events before it happen, and those for the points before the
storage references are laid ready. -/
def State.beginTurn (s : State) : State :=
  match s.moments with
  | [] => { s with mid := [] }
  | m :: rest => m.events.foldl State.deliver { s with moments := rest, mid := m.inside }

/-- Is the mode switch to bring the control section back to the same instruction (R410)? Not when the instruction has
stopped the computer, waits, or has been abandoned for an interrupt. -/
def State.repeats (s t : State) : Bool :=
  decide (s.modeSwitch = .repeatInstr) && decide (t.run = .running) && decide (t.held = none) &&
    (s.lockout || !t.lockout)

/-- What follows an instruction i begun in s and ended in t: the lockout is released (R383), the mode switch may bring
the same instruction back (R410), and single step stops the computer (R364). An instruction that has stopped the
computer or waits is not complete, and none of this follows yet. In step mode a search or transfer that is abandoned for
an interrupt between its words counts as the single instruction: the computer stops right after the interrupt entry,
before the control word's lower instruction. The spec does not say: DESIGN CHOICE, log 27. -/
def State.complete (s : State) (i : Instr) (t : State) : State :=
  if t.run = .running ∧ t.held = none then
    let u := s.releaseLockout t
    let v := if s.repeats t then { u with p := s.p, u1 := s.u1, half := s.half, held := some i } else u
    let w := if s.singleStep then v.stop .operator else v
    { w with mid := [] }
  else { t with mid := [] }

/-- The state in which the current instruction is executed: last_pos is recorded (R108, R379) and nothing is held. -/
def State.beginInstr (s : State) : State := { s with lastPos := s.half, held := none }

/-- The current instruction: the one held, or the one that U1 and the instruction position give (R108). -/
def State.currentInstr (s : State) : Instr :=
  match s.held with
  | some i => i
  | none => decode s.currentBits

/-- Sweep (R410): the half-word is displayed and not executed, and control goes on to the next. `last_pos` stays, for
it is set "at the start of the execution" of an instruction (R379) and nothing is executed. DEDUCED, log 27. An
instruction that is held when the switch is moved to sweep (one that waits for channel 7, or is keyed into U1) is
dropped unfinished, and control goes on to the next half-word all the same. The spec does not say: DESIGN CHOICE,
log 27. -/
def State.sweepOn (s : State) : State :=
  let t := { s.goNext with held := none, mid := [] }
  if s.singleStep then t.stop .operator else t

/-- The current instruction is executed and completed (R108), or swept over (R43, R410; `State.sweepOn`, log 27). -/
def executeCurrent (s : State) : Result :=
  if s.modeSwitch = .sweep then .next s.sweepOn
  else
    match exec s.currentInstr s.beginInstr with
    | .next t => .next (s.beginInstr.complete s.currentInstr t)
    | .fault r => .fault r
    | .refused r => .refused r

/-- Is this a point at which an interrupt may be taken between instructions (R376(a), INT_POINTS)? -/
def State.atInterruptPoint (s : State) : Bool :=
  match s.params.intPoints with
  | .stepBoundary => decide (s.half = .upper)
  | .everyInstruction => true

/-- The fetch of a program step: one read of word P into U1 (R90, R108). The pass of a breakpoint ends with the first
step fetched. When an interrupt is taken first at a restart from a breakpoint stop, that step is the routine's, and the
breakpoint stops the computer again on the return. DESIGN CHOICE, log 27. -/
def State.fetchStep (s : State) : State := { s.point with u1 := s.point.read s.p, breakPassed := false }

/-- Does the breakpoint stop the computer before this step (R362)? Not the step it has been restarted at. -/
def State.breakpointStops (s : State) : Bool := decide (s.breakpoint = some s.p) && !s.breakPassed

/-- One turn of the control section while it runs (R108). An interrupt entry is a turn of its own and
no single instruction of the step mode: the control word's lower instruction is that (DESIGN CHOICE, log 27). A held
instruction (one that waits, that the mode switch
repeats or that has been keyed in) begins without a fetch and without an interrupt or breakpoint test. DESIGN CHOICE,
log 21, log 27. -/
def programTurn (s : State) : Result :=
  if s.faults.anyStorage then .refused .storageUnitInoperative
  else
    match s.held with
    | some _ => executeCurrent s
    | none =>
      if s.atInterruptPoint && s.interruptDue then .next { s.interruptEntry with mid := [] }
      else
        match s.half with
        | .lower => executeCurrent s
        | .upper =>
          if s.breakpointStops then .next { s.stop .breakpoint with mid := [] }
          else executeCurrent s.fetchStep

/-- One step of the machine: the environment's events, then one turn of the control section if it runs; while it is
stopped only the environment acts (R363; log 18). -/
def turn (s : State) : Result :=
  match s.beginTurn.run with
  | .stopped _ => .next { s.beginTurn with mid := [] }
  | .running => programTurn s.beginTurn

/-- The word of a program step whose upper instruction is the given opcode-table word and whose lower half is zeros. -/
def tableProgramStep (nbits w : Nat) : Word := BitVec.ofNat 24 (w % 2 ^ nbits) ++ 0#24

/-- The machine with an opcode-table word where it fetches its next instruction, and running there (log 26): the word
at P has it as its upper instruction; the computer runs, at an upper instruction, with no event, no breakpoint, no
switch, no standing interrupt and no storage fault that would keep it from fetching. -/
def State.placeFetchWord (s : State) (nbits w : Nat) : State :=
  { s.write s.p (tableProgramStep nbits w) with
    half := .upper
    run := .running
    held := none
    breakpoint := none
    modeSwitch := .neutral
    lockout := s.lockout || s.interruptDue
    faults := { s.faults with oddStorage := false, evenStorage := false }
    moments := []
    mid := [] }

end Sys2Proof.Machine
end

