-- ==== Sys2Proof/Machine/Step.lean ====
section
/-! DEFINITION. One step of the machine (spec/30_encoding.md R108; Machine/Cycle.lean). -/

namespace Sys2Proof.Machine

/-- One step: the environment's events, then one turn of the control section. -/
def step (s : State) : Host.Outcome State Fault Refusal := turn s

/-- The state with one opcode-table word placed where the next step fetches (log 26). -/
def State.withFetchWord (s : State) (nbits w : Nat) : State := s.placeFetchWord nbits w

end Sys2Proof.Machine
end

