-- ==== Sys2Proof/Safety.lean ====
section
/-! DEFINITION. What counts as a safe state and a safe run, and the terms that statements about the machine use:
where control goes after an instruction, which operand an instruction has, the value of a floating point word. -/

namespace Sys2Proof.Machine

/-- The invariant of the machine: storage is in its canonical form; no mask flip-flop is set (R35, D22); no storage
fault stands (R370, U12); `int_exit` is set only under the lockout (R383); an active channel has words left to move
(R313, R316). -/
structure State.Inv (s : State) : Prop where
  memory : s.mem.wf = true
  mask : s.imr = PerLine.all false
  storage : s.faults.anyStorage = false
  exit : s.intExit = true → s.lockout = true
  buffers : ∀ c : Channel, s.active.get c = true → (s.cr.get c).u ≠ (s.cr.get c).l

/-- The steps of a run, ending at the first fault or refusal. -/
def runSteps : Nat → State → Result
  | 0, s => .next s
  | n + 1, s =>
    match step s with
    | .next t => runSteps n t
    | .fault r => .fault r
    | .refused r => .refused r

/-- A run of n steps is safe: no step ends in a fault or a refusal. -/
def State.safeFor (s : State) (n : Nat) : Prop := ∃ t, runSteps n s = .next t

/-- The designator and the execution address of an instruction to which indirect addressing applies (R78); none for
the jumps, the stops, the external function instruction and the two illegal codes. -/
def indexOperand : Instr → Option (Designator × Addr)
  | .ars b e | .qrs b e | .lrs b e | .enq b e | .als b e | .qls b e | .lls b e | .ena b e => some (b, e)
  | .ina b e | .lda b e | .lac b e | .add b e | .sub b e | .ldq b e | .lqc b e | .sta b e => some (b, e)
  | .stq b e | .mui b e | .dvi b e | .muf b e | .dvf b e | .fad b e | .fsb b e | .fmu b e => some (b, e)
  | .fdv b e | .sca b e | .scq b e | .ssk b e | .ssh b e | .sst b e | .scl b e | .scm b e => some (b, e)
  | .ssu b e | .ldl b e | .adl b e | .sbl b e | .stl b e | .eni b e | .ini b e | .liu b e => some (b, e)
  | .lil b e | .isk b e | .ijp b e | .siu b e | .sil b e | .sau b e | .sal b e | .int b e => some (b, e)
  | .out b e | .eqs b e | .ths b e | .meq b e | .mth b e | .rad b e | .rsb b e | .rao b e => some (b, e)
  | .rso b e => some (b, e)
  | .zro _ _ | .sev _ _ | .ajp _ _ _ | .qjp _ _ _ | .exf _ _ | .slj _ _ _ | .sls _ _ _ => none

/-- Is it an instruction during which no other agent acts: a shift (R150, R431), a multiply, a divide or one of the
floating point family (R188)? -/
def isAtomic : Instr → Bool
  | .ars _ _ | .qrs _ _ | .lrs _ _ | .als _ _ | .qls _ _ | .lls _ _ | .mui _ _ | .dvi _ _ | .muf _ _ => true
  | .dvf _ _ | .fad _ _ | .fsb _ _ | .fmu _ _ | .fdv _ _ | .sca _ _ | .scq _ _ => true
  | .zro _ _ | .sev _ _ | .enq _ _ | .ena _ _ | .ina _ _ | .lda _ _ | .lac _ _ | .add _ _ | .sub _ _ => false
  | .ldq _ _ | .lqc _ _ | .sta _ _ | .stq _ _ | .ajp _ _ _ | .qjp _ _ _ | .ssk _ _ | .ssh _ _ => false
  | .sst _ _ | .scl _ _ | .scm _ _ | .ssu _ _ | .ldl _ _ | .adl _ _ | .sbl _ _ | .stl _ _ | .eni _ _ => false
  | .ini _ _ | .liu _ _ | .lil _ _ | .isk _ _ | .ijp _ _ | .siu _ _ | .sil _ _ | .sau _ _ | .sal _ _ => false
  | .int _ _ | .out _ _ | .eqs _ _ | .ths _ _ | .meq _ _ | .mth _ _ | .rad _ _ | .rsb _ _ | .rao _ _ => false
  | .rso _ _ | .exf _ _ | .slj _ _ _ | .sls _ _ _ => false

/-- The state in which the indirect chain of an instruction is followed: other agents act between its references, but
not inside an atomic instruction. -/
def chainStart (i : Instr) (s : State) : State := if isAtomic i then { s with mid := [] } else s

/-- The address part of where `next` leaves control (R109). -/
def State.nextP (s : State) : Addr :=
  match s.half with
  | .upper => s.p
  | .lower => s.p + 1#15

/-- The instruction position where `next` leaves control (R109). -/
def State.nextHalf (s : State) : Half :=
  match s.half with
  | .upper => .lower
  | .lower => .upper

/-- The state with control where `next` leaves it (R109). -/
def State.advanced (s : State) : State := { s with p := s.nextP, half := s.nextHalf }

/-- The state after a full exit when c holds, after a half exit when it does not (R110, R111). -/
def State.exitOn (s : State) (c : Bool) : State :=
  if c then { s with p := s.p + 1#15, half := .upper } else { s with half := .lower }

/-- No other agent acts inside the next instruction, and no interrupt can be taken between its words. The references of
such an instruction leave everything else as it is. -/
def State.undisturbed (s : State) : Prop := s.mid = [] ∧ s.interruptDue = false

/-- The word that a search or a transfer reaches with count j (R280, R302): its address, by one's complement
addition (D3). -/
def listAddress (m : Addr) (j : Nat) : Addr := ocAdd m (BitVec.ofNat 15 j)

/-- The word `new` is the word `old` with its upper address, bits 38 to 24, replaced by y (R101). -/
def upperReplaced (old new : Word) (y : Addr) : Prop :=
  upperAddress new = y ∧ ∀ i : Nat, i < 24 ∨ 39 ≤ i → new.getLsbD i = old.getLsbD i

/-- The word `new` is the word `old` with its lower address, bits 14 to 0, replaced by y (R101). -/
def lowerReplaced (old new : Word) (y : Addr) : Prop :=
  lowerAddress new = y ∧ ∀ i : Nat, 15 ≤ i → new.getLsbD i = old.getLsbD i

/-- Storage in t is storage in s with the word at m replaced by w: every other address reads as before. -/
def storedAt (s t : State) (m : Addr) (w : Word) : Prop :=
  t.read m = w ∧ ∀ x : Addr, x ≠ m → t.read x = s.read x

/-- Is it one of the addresses 0o00007 to 0o00017 of the interrupt control words (R377)? -/
def inControlBlock (m : Addr) : Bool := decide (7 ≤ m.toNat ∧ m.toNat ≤ 15)

/-- What a jump to m does from s (R112, R113, R383): a normal jump continues at the upper instruction of m, and into
the control words under the lockout it begins the return; a return jump, after what other agents do before its storage
reference (R84), stores P + 1 in the upper address of word m and continues at its lower instruction. -/
def jumpOutcome (s t : State) : JumpKind → Addr → Prop
  | .normal, m =>
    t = { s with p := m, half := .upper, intExit := s.intExit || (s.lockout && inControlBlock m) }
  | .ret, m =>
    t = { s.point with mem := t.mem, p := m, u1 := t.u1, half := .lower } ∧
      storedAt s.point t m t.u1 ∧ upperReplaced (s.point.read m) t.u1 (s.p + 1#15)

/-- The condition of AJP and QJP on a register value (R236). -/
def regCondition : RegCond → Word → Prop
  | .zero, v => v = 0#48 ∨ v = BitVec.allOnes 48
  | .nonzero, v => v ≠ 0#48 ∧ v ≠ BitVec.allOnes 48
  | .plus, v => v.getLsbD 47 = false
  | .minus, v => v.getLsbD 47 = true

/-- The condition of SLJ and SLS on three keys (R237). -/
def keyCondition : KeyCond → Keys → Prop
  | .always, _ => True
  | .key1, k => k.key1 = true
  | .key2, k => k.key2 = true
  | .key3, k => k.key3 = true

/-- What a search does from s when no other agent acts and no interrupt is due (R280, R286): the words at
m + (count - 1) down to m, or the one word at m without an index register; the count is left in the register. -/
def searchOutcome (found : Word → Bool) (s t : State) : Option IndexReg → Addr → Prop
  | none, m =>
    (found (s.read m) = true → t = s.exitOn true) ∧ (found (s.read m) = false → t = s.advanced)
  | some r, m =>
    (∃ j : Nat, j < (s.b.get r).toNat ∧ found (s.read (listAddress m j)) = true ∧
        (∀ i : Nat, j < i → i < (s.b.get r).toNat → found (s.read (listAddress m i)) = false) ∧
        t = { s with b := s.b.set r (BitVec.ofNat 15 j), p := s.p + 1#15, half := .upper }) ∨
      ((∀ i : Nat, i < (s.b.get r).toNat → found (s.read (listAddress m i)) = false) ∧
        t = { s with b := s.b.set r 0#15, p := s.nextP, half := s.nextHalf })

/-- Does the search i, with the registers of u, find what it looks for in the word w (R282 to R285)? -/
def searchFinds (i : Designator → Addr → Instr) (u : State) (w : Word) (found : Bool) : Prop :=
  (i = .eqs ∧ found = decide (sval w = sval u.a)) ∨ (i = .ths ∧ found = decide (u.a.toInt < w.toInt)) ∨
    (i = .meq ∧ found = decide (sval (u.q &&& w) = sval u.a)) ∨
    (i = .mth ∧ found = decide (u.a.toInt < (u.q &&& w).toInt))

/-- The number of a buffer channel (R300). -/
def channelNumber : Channel → Nat
  | .c1 => 1
  | .c2 => 2
  | .c3 => 3
  | .c4 => 4
  | .c5 => 5
  | .c6 => 6

/-- The number that a floating point word taken apart stands for (R201): (-1)^s * c * 2^(e - 36). -/
def FpParts.value (f : FpParts) : ℚ := (if f.neg then -1 else 1) * (f.coef : ℚ) * (2 : ℚ) ^ (f.exp - 36)

/-- The value of a floating point word (R201). -/
def floatValue (w : Word) : ℚ := (fpUnpack w).value

/-- Parts that a word holds in normalized form: an exponent in range and a coefficient from one half to below one
(R200, R201). -/
def FpParts.normalized (f : FpParts) : Prop :=
  -1023 ≤ f.exp ∧ f.exp ≤ 1023 ∧ 2 ^ 35 ≤ f.coef ∧ f.coef < 2 ^ 36

/-- The result in t is v rounded, and no fault is set (R203): A is normalized and lies less than one unit of its last
place from v. -/
def roundedInto (s t : State) (v : ℚ) : Prop :=
  t.faults = s.faults ∧ t.freeCount = s.freeCount ∧ (fpUnpack t.a).normalized ∧
    |floatValue t.a - v| < (2 : ℚ) ^ ((fpUnpack t.a).exp - 36)

/-- What a floating point operation with the exact result v, not zero, does from s (R203, R208): only A, Q, the
exponent fault indicator and the count of free values change besides control; either the result is v rounded, or the
exponent fault is set; it is rounded where v is in range, exact where v is representable, and the fault is set where v
is out of range. -/
def floatOutcome (s t : State) (v : ℚ) : Prop :=
  t = { s with
        a := t.a, q := t.q, faults := { s.faults with exponent := t.faults.exponent }, freeCount := t.freeCount,
        p := s.nextP, half := s.nextHalf } ∧
    (roundedInto s t v ∨ t.faults.exponent = true) ∧
    ((2 : ℚ) ^ (-1024 : Int) ≤ |v| → |v| ≤ (2 ^ 36 - 1) * (2 : ℚ) ^ (987 : Int) → roundedInto s t v) ∧
    (∀ f : FpParts, f.normalized → f.value = v → t.a = fpPack f) ∧
    ((2 : ℚ) ^ (1023 : Int) ≤ |v| ∨ |v| < (2 : ℚ) ^ (-1025 : Int) → t.faults.exponent = true)

end Sys2Proof.Machine
end

