-- ==== Sys2Proof/Certificates/Slice0/Obligations.lean ====
section
/-! DEFINITION. The statements for the provers. Each docstring names the rules of spec/ it formalises, and the log entry
of every clause that rests on a choice of the model. -/

section
open Sys2Proof Sys2Proof.Machine

/-! ### Encoding -/

/-- R100, R103, R104: decoding the encoding of any instruction gives it back, with every operand at every value. -/
def Obligations.DecodeEncode : Prop := ∀ i : Instr, decode (encode i) = i

/-- R103: "every one of the 2^24 instruction patterns decodes to exactly one row of the table", and no bit of it is
dropped. -/
def Obligations.EncodeDecode : Prop := ∀ w : InstrBits, encode (decode w) = w

/-- R100, R104: words of the source and of the spec's examples decode to the instructions they stand for. -/
def Obligations.DecodedWords : Prop :=
  decode 0o12000310#24 = .lda .direct 0o310#15 ∧
  decode 0o14100210#24 = .add (.index .b1) 0o210#15 ∧
  decode 0o20000400#24 = .sta .direct 0o400#15 ∧
  decode 0o53100005#24 = .lil (.index .b1) 0o5#15 ∧
  decode 0o54200005#24 = .isk (.index .b2) 0o5#15 ∧
  decode 0o22600200#24 = .ajp .ret .plus 0o200#15 ∧
  decode 0o74700010#24 = .exf .sense 0o10#15 ∧
  decode 0o74200600#24 = .exf (.activate .c2) 0o600#15 ∧
  decode 0o74000070#24 = .exf .select 0o70#15 ∧
  decode 0o75040000#24 = .slj .normal .always 0o40000#15 ∧
  decode 0o76000301#24 = .sls .normal .always 0o301#15 ∧
  decode 0o64700100#24 = .eqs .indirect 0o100#15 ∧
  decode 0o00000000#24 = .zro .direct 0o0#15 ∧
  decode 0o77777777#24 = .sev .indirect 0o77777#15

/-! ### The instruction cycle -/

/-- R108, R90, R383: with the computer running and the mode switch neutral, a step executes the current instruction:
with nothing held, no interrupt to take and no breakpoint to stop at, the one decoded from the upper half of the word at
P (fetched after what other agents do before that reference, R84), or from the lower half of U1; a held instruction
(R304(c), one that waits; R364, one keyed in) without fetch, interrupt or breakpoint test (log 21, log 27). After it,
the lockout falls if an upper instruction that began with `int_exit` set has completed (log 16); in step mode the
computer stops (R364); an instruction that stops the computer or waits is left as its meaning leaves it; a stuck
instruction stops the step with the same fault. -/
def Obligations.StepRunsDecodedInstruction : Prop :=
  ∀ (s u v : State) (i : Instr),
    s.beginTurn = u → u.run = .running → u.faults.anyStorage = false → u.modeSwitch = .neutral →
    ((u.held = none ∧ (u.atInterruptPoint && u.interruptDue) = false ∧ u.half = .upper ∧
        (u.breakpoint ≠ some u.p ∨ u.breakPassed = true) ∧ i = decode (upperInstr (u.point.read u.p)) ∧
        v = { u.point with u1 := u.point.read u.p, breakPassed := false, lastPos := .upper }) ∨
      (u.held = none ∧ (u.atInterruptPoint && u.interruptDue) = false ∧ u.half = .lower ∧
        i = decode (lowerInstr u.u1) ∧ v = { u with lastPos := .lower }) ∨
      (u.held = some i ∧ v = { u with lastPos := u.half, held := none })) →
    (∀ t, exec i v = .next t → t.run = .running → t.held = none →
      step s = .next { t with
        lockout := t.lockout && !(decide (v.half = .upper) && v.intExit && t.intExit)
        intExit := t.intExit && !(decide (v.half = .upper) && v.intExit)
        run := if v.singleStep then .stopped .operator else .running
        mid := [] }) ∧
    (∀ t, exec i v = .next t → t.run ≠ .running ∨ t.held ≠ none → step s = .next { t with mid := [] }) ∧
    (∀ r, exec i v = .fault r → step s = .fault r)

/-- R361, R362, R363, R364: a stopped computer executes nothing; at the start of a step whose address is the breakpoint
the running computer stops, before the fetch, and nothing but `run` changes; Start and Step after that stop mark the
breakpoint as passed, so that the step at P is not tested again (StepRunsDecodedInstruction); with no events in the
script nothing happens before the turn. -/
def Obligations.StoppedAndBreakpoint : Prop :=
  (∀ (s u : State) (why : StopReason), s.beginTurn = u → u.run = .stopped why → step s = .next { u with mid := [] }) ∧
  (∀ s u : State, s.beginTurn = u → u.run = .running → u.faults.anyStorage = false → u.held = none →
    u.half = .upper → u.interruptDue = false → u.breakpoint = some u.p → u.breakPassed = false →
    step s = .next { u with run := .stopped .breakpoint, mid := [] }) ∧
  (∀ s : State, s.run = .stopped .breakpoint →
    s.deliver (.operator .start) = { s with run := .running, singleStep := false, breakPassed := true } ∧
    s.deliver (.operator .step) = { s with run := .running, singleStep := true, breakPassed := true }) ∧
  (∀ s : State, s.moments = [] → s.beginTurn = { s with mid := [] })

/-- R378, R379: what an interrupt entry saves and where it goes. The entered word is one of 0o00007 to 0o00017: 0o00007
by the spec's default, else as INT_ENTRY decides (log 15); P goes to its upper address, in storage and in U1, the other
33 bits stay; `mon_exit` takes the position of the last instruction (decision D16; log 40); the lockout is set; the
lower instruction of the word is next; nothing else changes. A step takes it when an interrupt is due at the start of a
program step (R376). -/
def Obligations.InterruptEntry : Prop :=
  (∀ (u t : State) (e : Addr), t = u.interruptEntry → e = u.entryAddress →
    inControlBlock e = true ∧ (u.params.intEntry = [] → e = 0o7#15) ∧
    (∀ rule rest, u.params.intEntry = rule :: rest → (∀ c x, (c, x) ∈ rule.causes → u.causeStands c = x) →
      e = BitVec.ofNat 15 (7 + rule.offset.val)) ∧
    t = { u with
          mem := t.mem, u1 := t.u1, p := e, half := .lower, monExit := u.lastPos, lockout := true,
          intExit := false } ∧
    storedAt u t e t.u1 ∧ upperReplaced (u.read e) t.u1 u.p) ∧
  (∀ s u : State, s.beginTurn = u → u.run = .running → u.faults.anyStorage = false → u.held = none →
    u.half = .upper ∨ u.params.intPoints = .everyInstruction → u.interruptDue = true →
    step s = .next { u.interruptEntry with mid := [] })

/-- R383, R112: the return. In the routine, with the lockout set, the upper instruction `75 0 e` with e in the control
block and then the upper instruction `75 0 m` of that word bring control to m with the lockout released: two steps, in
which nothing else but U1, the record of the last position and the mark of a passed breakpoint changes. -/
def Obligations.InterruptReturn : Prop :=
  ∀ (s : State) (e m : Addr),
    s.moments = [] → s.run = .running → s.faults.anyStorage = false → s.modeSwitch = .neutral →
    s.singleStep = false → s.held = none → s.breakpoint = none → s.half = .upper →
    s.lockout = true → s.intExit = false → inControlBlock e = true →
    decode (upperInstr (s.read s.p)) = .slj .normal .always e →
    decode (upperInstr (s.read e)) = .slj .normal .always m →
    runSteps 2 s = .next { s with
      p := m, half := .upper, u1 := s.read e, lastPos := .upper, breakPassed := false, lockout := false
      intExit := false, mid := [] }

/-- R373, R374, R375: when an interrupt is due. Requests are levels (D11). The line of channel 1 also carries the
console's own request: a carriage return, or an end of tape, with its interrupt selected (R389, log 22). -/
def Obligations.InterruptDue : Prop :=
  ∀ s : State, s.interruptDue = true ↔
    s.lockout = false ∧
      ((s.selArith = true ∧
          (s.faults.divide = true ∨ s.faults.shift = true ∨ s.faults.overflow = true ∨ s.faults.exponent = true ∨
            s.faults.clockOverflow = true)) ∨
        (∃ c : Channel, s.selInactive.get c = true ∧ s.active.get c = false) ∨
        ∃ l : Line, s.imr.get l = false ∧
          (s.extInt.get l = true ∨
            (l = .channel .c1 ∧
              ((s.console.crInterrupt = true ∧ s.console.carriageReturn = true) ∨
                (s.console.eotInterrupt = true ∧ s.console.endOfTape = true)))))

/-- R46, R420: what the two master clears write and leave alone. The control flip-flops are those of decision D14;
`cr`, `mon_exit` and `last_pos` are unspecified and not mentioned (log 28). That the internal clear sets the End of Tape
indicator too is log 41; what the external clear keeps of the console is log 42. -/
def Obligations.MasterClear : Prop :=
  (∀ s t : State, t = s.deliver (.operator .internalClear) →
    t.a = 0#48 ∧ t.q = 0#48 ∧ (∀ r, t.b.get r = 0#15) ∧ t.p = 0#15 ∧ t.u1 = 0#48 ∧ t.half = .upper ∧
    t.run = .stopped .clear ∧ t.faults = Faults.none ∧ t.selArith = false ∧ (∀ c, t.selInactive.get c = false) ∧
    (∀ c, t.active.get c = false) ∧ (∀ l, t.imr.get l = false) ∧ t.lockout = false ∧ t.intExit = false ∧
    t.clockRunning = false ∧ t.held = none ∧ (∀ x, t.read x = s.read x) ∧ t.extInt = s.extInt ∧
    t.jumpKey = s.jumpKey ∧ t.stopKey = s.stopKey ∧ t.breakpoint = s.breakpoint ∧ t.modeSwitch = s.modeSwitch ∧
    t.console = { s.console with endOfTape := true } ∧ t.equipment = s.equipment ∧ t.params = s.params) ∧
  (∀ s t : State, t = s.deliver (.operator .externalClear) →
    t = { s with
          extInt := t.extInt
          console := { s.console with
            input := .reader, output := .none, crInterrupt := false, eotInterrupt := false, endOfTape := true } } ∧
    ∀ l, t.extInt.get l = false)

/-- R46, R420: the machine right after reset: the registers the source clears, the stop, the reader selected with its
End of Tape indicator set. The control flip-flops (D14) and storage reading as zero (log 2) are the spec's and the
model's choices. -/
def Obligations.ResetState : Prop :=
  State.reset.a = 0#48 ∧ State.reset.q = 0#48 ∧ (∀ r, State.reset.b.get r = 0#15) ∧ State.reset.p = 0#15 ∧
  State.reset.u1 = 0#48 ∧ State.reset.half = .upper ∧ State.reset.run = .stopped .clear ∧
  State.reset.faults = Faults.none ∧ State.reset.lockout = false ∧ State.reset.intExit = false ∧
  State.reset.clockRunning = false ∧ (∀ c, State.reset.active.get c = false) ∧
  State.reset.console.input = .reader ∧ State.reset.console.endOfTape = true ∧
  State.reset.console.crInterrupt = false ∧ ∀ x, State.reset.read x = unlistedWord

/-- The invariant of `State.Inv` holds at reset (R35, R70, R313, R370, R383). -/
def Obligations.InvariantAtReset : Prop := State.reset.Inv

/-- Every step keeps the invariant, whatever the environment does: storage in its canonical form, no mask, no storage
fault, `int_exit` only under the lockout, active channels with words left to move (R35, R70, R313, R316, R370, R383). -/
def Obligations.StepKeepsInvariant : Prop := ∀ s t : State, s.Inv → step s = .next t → t.Inv

/-- R360, R406: from a state of the invariant no run ever ends in a refusal, and one that does not go on is stuck in an
endless indirect chain. -/
def Obligations.RunsAreNeverRefused : Prop :=
  ∀ (n : Nat) (s : State), s.Inv → s.safeFor n ∨ runSteps n s = .fault .endlessIndirection

/-! ### Operands -/

/-- R76, R77, R84: the three modes of address modification, with the state in which the references of the chain have
been made: other agents act before each of them. The reference of an operand in storage has such a point of its own; in
a shift, a multiply, a divide and the floating point family the chain is followed with no other agent acting (R188,
R431, log 7). -/
def Obligations.AddressModification : Prop :=
  ∀ (s : State) (e : Addr) (w : Word), w = s.point.read e →
    s.resolveAll .direct e = some (s, e) ∧
    (∀ r, s.resolveAll (.index r) e = some (s, ocAdd e (s.b.get r))) ∧
    s.resolveAll .indirect e = s.point.resolveAll (designatorOf (w.extractLsb' 15 3)) (w.extractLsb' 0 15) ∧
    s.indirect .direct e = some (s, none, e) ∧
    (∀ r, s.indirect (.index r) e = some (s, some r, e)) ∧
    s.indirect .indirect e = s.point.indirect (designatorOf (w.extractLsb' 15 3)) (w.extractLsb' 0 15) ∧
    ∀ b : Designator,
      (∀ u m, s.operand b e = some (u, m) ↔ ∃ v, s.resolveAll b e = some (v, m) ∧ u = v.point) ∧
      (∀ u r m, s.indirectOperand b e = some (u, r, m) ↔ ∃ v, s.indirect b e = some (v, r, m) ∧ u = v.point) ∧
      (∀ k, s.resolveAtomic b e = some k ↔
        State.resolveAll { s with mid := [] } b e = some ({ s with mid := [] }, k)) ∧
      ∀ r k, s.indirectAtomic b e = some (r, k) ↔
        State.indirect { s with mid := [] } b e = some ({ s with mid := [] }, r, k)

/-- R77, D18, log 8: an indirect chain that ends after any number of passes ends within the model's limit, so the
model's stuck chains are exactly the endless ones, whatever other agents do between the references. -/
def Obligations.IndirectChainLimit : Prop :=
  ∀ (s : State) (b : Designator) (e : Addr) (x : State × Option IndexReg × Addr),
    s.indirect b e = some x ↔ ∃ n : Nat, s.indirectWithin n b e = some x

/-- R406, R77: no instruction fails; the only one that does not complete has an endless indirect chain, which in a
shift, a multiply, a divide and the floating point family is followed with no other agent acting (R188, R431, log 7). -/
def Obligations.ExecStuckOnlyOnEndlessChain : Prop :=
  ∀ (i : Instr) (s : State),
    (∀ b e, indexOperand i = some (b, e) → (chainStart i s).indirect b e = none →
      exec i s = .fault .endlessIndirection) ∧
    ((∀ b e, indexOperand i = some (b, e) → (chainStart i s).indirect b e ≠ none) → ∃ t, exec i s = .next t)

/-- R79: when a modified address is 77777, and the examples of the rule. -/
def Obligations.ModifiedAddressNegativeZero : Prop :=
  (∀ (s u : State) (b : Designator) (e : Addr), s.resolveAll b e = some (u, 0o77777#15) ↔
    ∃ r e', s.indirect b e = some (u, r, e') ∧ e' = 0o77777#15 ∧ ∀ r', r = some r' → s.b.get r' = 0o77777#15) ∧
  ocAdd 0o77777#15 0o0#15 = 0o0#15 ∧ ocAdd 0o0#15 0o77777#15 = 0o0#15 ∧
  ocAdd 0o77777#15 0o77777#15 = 0o77777#15 ∧ ocAdd 0o5#15 0o77776#15 = 0o4#15 ∧ ocAdd 0o77776#15 0o3#15 = 0o2#15

/-! ### Arithmetic -/

/-- R10: one's complement addition: the formula, which the spec marks as its own inference, and with it the congruence,
the rule of the zeros, commutativity, subtraction. -/
def Obligations.OnesComplementAddition : Prop :=
  ∀ (n : Nat) (x y : BitVec n),
    (ocAdd x y).toNat =
      (if 2 ^ n - 1 ≤ x.toNat + y.toNat then x.toNat + y.toNat - (2 ^ n - 1) else x.toNat + y.toNat) ∧
    (ocAdd x y).toNat % (2 ^ n - 1) = (x.toNat + y.toNat) % (2 ^ n - 1) ∧
    (ocAdd x y = BitVec.allOnes n ↔ x = BitVec.allOnes n ∧ y = BitVec.allOnes n) ∧
    ocAdd x y = ocAdd y x ∧ ocSub x y = ocAdd x (~~~y)

/-- R11: the overflow predicate and its equivalent on the sign bits; without overflow the sum is the true sum (R9). -/
def Obligations.OverflowPredicate : Prop :=
  ∀ x y : Word,
    (ocOvf x y = true ↔ sval x + sval y < -(2 ^ 47 - 1) ∨ 2 ^ 47 - 1 < sval x + sval y) ∧
    (ocOvf x y = true ↔ x.getLsbD 47 = y.getLsbD 47 ∧ (ocAdd x y).getLsbD 47 ≠ x.getLsbD 47) ∧
    (ocOvf x y = false → sval (ocAdd x y) = sval x + sval y)

/-- R281: the equality of the searches is equality of the signed values, and their "greater than" is the order of the
patterns as two's complement integers (D24). -/
def Obligations.SearchComparisons : Prop :=
  ∀ x y : Word,
    (searchEq x y = true ↔ sval x = sval y) ∧
    (searchEq x y = true ↔ x = y ∨ ((x = 0#48 ∨ x = BitVec.allOnes 48) ∧ (y = 0#48 ∨ y = BitVec.allOnes 48))) ∧
    (searchGt x y = true ↔ y.toInt < x.toInt)

/-- R15, R81, R101: a partial store replaces 15 bits of one word: the word's other 33 bits and every other word read as
before. -/
def Obligations.PartialStores : Prop :=
  ∀ (s : State) (m y : Addr),
    (∃ w, storedAt s (s.storeUpper m y) m w ∧ upperReplaced (s.read m) w y) ∧
    ∃ w, storedAt s (s.storeLower m y) m w ∧ lowerReplaced (s.read m) w y

/-! ### Data transmission, address modification, no address -/

/-- R131, R132, R133, R134: LDA, LAC, LDQ and LQC write one register and nothing else; the operand M is the resolved
address. The state in which the operand is resolved and referred to is u (R84; OtherAgentsFrame). -/
def Obligations.LoadRegister : Prop :=
  ∀ (s u : State) (b : Designator) (e m : Addr), s.operand b e = some (u, m) →
    exec (.lda b e) s = .next { u with a := u.read m, p := u.nextP, half := u.nextHalf } ∧
    exec (.lac b e) s = .next { u with a := ~~~u.read m, p := u.nextP, half := u.nextHalf } ∧
    exec (.ldq b e) s = .next { u with q := u.read m, p := u.nextP, half := u.nextHalf } ∧
    exec (.lqc b e) s = .next { u with q := ~~~u.read m, p := u.nextP, half := u.nextHalf }

/-- R135, R136, R271: STA, STQ and STL write the word at M and nothing else. The state in which the operand is resolved
and referred to is u (R84; OtherAgentsFrame). -/
def Obligations.StoreRegister : Prop :=
  ∀ (s u : State) (b : Designator) (e m : Addr), s.operand b e = some (u, m) →
    (∃ t, exec (.sta b e) s = .next t ∧ t = { u with mem := t.mem, p := u.nextP, half := u.nextHalf } ∧
      storedAt u t m u.a) ∧
    (∃ t, exec (.stq b e) s = .next t ∧ t = { u with mem := t.mem, p := u.nextP, half := u.nextHalf } ∧
      storedAt u t m u.q) ∧
    ∃ t, exec (.stl b e) s = .next t ∧ t = { u with mem := t.mem, p := u.nextP, half := u.nextHalf } ∧
      storedAt u t m (u.q &&& u.a)

/-- R137, R138: LIU and LIL load an address field of (m) into the index register that the designator names after
indirection; without one they are a pass. The state in which the operand is resolved and referred to is u (R84;
OtherAgentsFrame). -/
def Obligations.LoadIndex : Prop :=
  ∀ (s u : State) (b : Designator) (e m : Addr),
    (s.indirectOperand b e = some (u, none, m) →
      exec (.liu b e) s = .next u.advanced ∧ exec (.lil b e) s = .next u.advanced) ∧
    ∀ r, s.indirectOperand b e = some (u, some r, m) →
      (∃ t, exec (.liu b e) s = .next t ∧ t = { u with b := t.b, p := u.nextP, half := u.nextHalf } ∧
        t.b.get r = (u.read m).extractLsb' 24 15 ∧ ∀ r', r' ≠ r → t.b.get r' = u.b.get r') ∧
      ∃ t, exec (.lil b e) s = .next t ∧ t = { u with b := t.b, p := u.nextP, half := u.nextHalf } ∧
        t.b.get r = (u.read m).extractLsb' 0 15 ∧ ∀ r', r' ≠ r → t.b.get r' = u.b.get r'

/-- R139, R140, R166, R167: SIU, SIL, SAU and SAL replace one address field of one word and change nothing else. The
state in which the operand is resolved and referred to is u (R84; OtherAgentsFrame). -/
def Obligations.StoreAddressField : Prop :=
  (∀ (s u : State) (b : Designator) (e m : Addr) (r : Option IndexReg), s.indirectOperand b e = some (u, r, m) →
    (∃ t, exec (.siu b e) s = .next t ∧ t = { u with mem := t.mem, p := u.nextP, half := u.nextHalf } ∧
      storedAt u t m (t.read m) ∧ upperReplaced (u.read m) (t.read m) (u.getB r)) ∧
    ∃ t, exec (.sil b e) s = .next t ∧ t = { u with mem := t.mem, p := u.nextP, half := u.nextHalf } ∧
      storedAt u t m (t.read m) ∧ lowerReplaced (u.read m) (t.read m) (u.getB r)) ∧
  ∀ (s u : State) (b : Designator) (e m : Addr), s.operand b e = some (u, m) →
    (∃ t, exec (.sau b e) s = .next t ∧ t = { u with mem := t.mem, p := u.nextP, half := u.nextHalf } ∧
      storedAt u t m (t.read m) ∧ upperReplaced (u.read m) (t.read m) (u.a.extractLsb' 0 15)) ∧
    ∃ t, exec (.sal b e) s = .next t ∧ t = { u with mem := t.mem, p := u.nextP, half := u.nextHalf } ∧
      storedAt u t m (t.read m) ∧ lowerReplaced (u.read m) (t.read m) (u.a.extractLsb' 0 15)

/-- R221, R222, R224: ENQ and ENA enter Y with its highest bit extended; ENI enters y into the index register named, and
is a pass without one. The state in which the operand is resolved and referred to is u (R84; OtherAgentsFrame). -/
def Obligations.EnterOperand : Prop :=
  (∀ (s u : State) (b : Designator) (e y : Addr), s.resolveAll b e = some (u, y) →
    (∃ t, exec (.ena b e) s = .next t ∧ t = { u with a := t.a, p := u.nextP, half := u.nextHalf } ∧
      ∀ i : Nat, i < 48 → t.a.getLsbD i = y.getLsbD (min i 14)) ∧
    ∃ t, exec (.enq b e) s = .next t ∧ t = { u with q := t.q, p := u.nextP, half := u.nextHalf } ∧
      ∀ i : Nat, i < 48 → t.q.getLsbD i = y.getLsbD (min i 14)) ∧
  ∀ (s u : State) (b : Designator) (e y : Addr),
    (s.indirect b e = some (u, none, y) → exec (.eni b e) s = .next u.advanced) ∧
    ∀ r, s.indirect b e = some (u, some r, y) →
      exec (.eni b e) s = .next { u with b := u.b.set r y, p := u.nextP, half := u.nextHalf }

/-- R168, R169, R225: ISK, IJP and INI on the index register named after indirection. Bit patterns are compared (D25),
ISK and IJP count in two's complement, INI adds in one's complement (D2); a jump of IJP into the control words under the
lockout begins the return (R383, D12); without a register ISK compares zero with y, IJP does not jump and INI is a pass.
The state in which the operand is resolved and referred to is u (R84; OtherAgentsFrame). -/
def Obligations.IndexCounting : Prop :=
  ∀ (s u : State) (b : Designator) (e y : Addr),
    (s.indirect b e = some (u, none, y) →
      exec (.isk b e) s = .next (u.exitOn (decide (y = 0#15))) ∧ exec (.ijp b e) s = .next u.advanced ∧
        exec (.ini b e) s = .next u.advanced) ∧
    ∀ r, s.indirect b e = some (u, some r, y) →
      (u.b.get r = y →
        exec (.isk b e) s = .next { u with b := u.b.set r 0#15, p := u.p + 1#15, half := .upper }) ∧
      (u.b.get r ≠ y → exec (.isk b e) s = .next { u with b := u.b.set r (u.b.get r + 1#15), half := .lower }) ∧
      (u.b.get r = 0#15 → exec (.ijp b e) s = .next u.advanced) ∧
      (u.b.get r ≠ 0#15 → exec (.ijp b e) s = .next { u with
        b := u.b.set r (u.b.get r - 1#15), p := y, half := .upper
        intExit := u.intExit || (u.lockout && inControlBlock y) }) ∧
      exec (.ini b e) s = .next { u with b := u.b.set r (ocAdd (u.b.get r) y), p := u.nextP, half := u.nextHalf }

/-! ### Shifts -/

/-- R150 to R153: the right shifts, bit by bit, with K as an unsigned count (D23): a bit comes from K places to its
left, the sign beyond; the shift fault is set when K is above 127; nothing else changes. -/
def Obligations.RightShifts : Prop :=
  ∀ (s : State) (b : Designator) (e k : Addr) (f : Faults), s.resolveAtomic b e = some k →
    f = { s.faults with shift := s.faults.shift || decide (127 < k.toNat) } →
    (∃ t, exec (.ars b e) s = .next t ∧ t = { s with a := t.a, faults := f, p := s.nextP, half := s.nextHalf } ∧
      ∀ i : Nat, i < 48 → t.a.getLsbD i = s.a.getLsbD (min (i + k.toNat) 47)) ∧
    (∃ t, exec (.qrs b e) s = .next t ∧ t = { s with q := t.q, faults := f, p := s.nextP, half := s.nextHalf } ∧
      ∀ i : Nat, i < 48 → t.q.getLsbD i = s.q.getLsbD (min (i + k.toNat) 47)) ∧
    ∃ t, exec (.lrs b e) s = .next t ∧
      t = { s with a := t.a, q := t.q, faults := f, p := s.nextP, half := s.nextHalf } ∧
      ∀ i : Nat, i < 96 → (double t.a t.q).getLsbD i = (double s.a s.q).getLsbD (min (i + k.toNat) 95)

/-- R150, R154 to R156: the left circular shifts, bit by bit, with K as an unsigned count (D23). -/
def Obligations.LeftShifts : Prop :=
  ∀ (s : State) (b : Designator) (e k : Addr) (f : Faults), s.resolveAtomic b e = some k →
    f = { s.faults with shift := s.faults.shift || decide (127 < k.toNat) } →
    (∃ t, exec (.als b e) s = .next t ∧ t = { s with a := t.a, faults := f, p := s.nextP, half := s.nextHalf } ∧
      ∀ i : Nat, i < 48 → t.a.getLsbD ((i + k.toNat) % 48) = s.a.getLsbD i) ∧
    (∃ t, exec (.qls b e) s = .next t ∧ t = { s with q := t.q, faults := f, p := s.nextP, half := s.nextHalf } ∧
      ∀ i : Nat, i < 48 → t.q.getLsbD ((i + k.toNat) % 48) = s.q.getLsbD i) ∧
    ∃ t, exec (.lls b e) s = .next t ∧
      t = { s with a := t.a, q := t.q, faults := f, p := s.nextP, half := s.nextHalf } ∧
      ∀ i : Nat, i < 96 → (double t.a t.q).getLsbD ((i + k.toNat) % 96) = (double s.a s.q).getLsbD i

/-! ### Fixed point arithmetic -/

/-- R181, R182, R183: ADD and SUB: the one's complement sum in A, also after an overflow (D1), and the overflow fault
when the capacity of A is exceeded. The state in which the operand is resolved and referred to is u (R84;
OtherAgentsFrame). -/
def Obligations.AddSubtract : Prop :=
  ∀ (s u : State) (b : Designator) (e m : Addr), s.operand b e = some (u, m) →
    exec (.add b e) s = .next { u with
      a := ocAdd u.a (u.read m)
      faults := { u.faults with overflow := u.faults.overflow || ocOvf u.a (u.read m) }
      p := u.nextP, half := u.nextHalf } ∧
    exec (.sub b e) s = .next { u with
      a := ocSub u.a (u.read m)
      faults := { u.faults with overflow := u.faults.overflow || ocOvf u.a (~~~u.read m) }
      p := u.nextP, half := u.nextHalf }

/-- R223, R269, R270: INA, ADL and SBL add as ADD does. That they set the overflow fault is what these rules derive,
against R368: log 36. The state in which the operand is resolved and referred to is u (R84; OtherAgentsFrame). -/
def Obligations.AddOperandAndMasked : Prop :=
  (∀ (s u : State) (b : Designator) (e y : Addr), s.resolveAll b e = some (u, y) →
    exec (.ina b e) s = .next { u with
      a := ocAdd u.a (y.signExtend 48)
      faults := { u.faults with overflow := u.faults.overflow || ocOvf u.a (y.signExtend 48) }
      p := u.nextP, half := u.nextHalf }) ∧
  ∀ (s u : State) (b : Designator) (e m : Addr) (x : Word), s.operand b e = some (u, m) → x = u.q &&& u.read m →
    exec (.adl b e) s = .next { u with
      a := ocAdd u.a x, faults := { u.faults with overflow := u.faults.overflow || ocOvf u.a x }
      p := u.nextP, half := u.nextHalf } ∧
    exec (.sbl b e) s = .next { u with
      a := ocSub u.a x, faults := { u.faults with overflow := u.faults.overflow || ocOvf u.a (~~~x) }
      p := u.nextP, half := u.nextHalf }

/-- R184, R185: MUI leaves the product in QA, MUF twice it in AQ; the sign bit is set exactly when the signs of the
operands differ, also for a zero product (D4); no fault indicator changes. No other agent acts during either (R188, log
7). -/
def Obligations.Multiply : Prop :=
  ∀ (s : State) (b : Designator) (e m : Addr), s.resolveAtomic b e = some m →
    (∃ t, exec (.mui b e) s = .next t ∧ t = { s with a := t.a, q := t.q, p := s.nextP, half := s.nextHalf } ∧
      sval (double t.q t.a) = sval s.a * sval (s.read m) ∧ t.q.msb = (s.a.msb != (s.read m).msb)) ∧
    ∃ t, exec (.muf b e) s = .next t ∧ t = { s with a := t.a, q := t.q, p := s.nextP, half := s.nextHalf } ∧
      sval (double t.a t.q) = 2 * (sval s.a * sval (s.read m)) ∧ t.a.msb = (s.a.msb != (s.read m).msb)

/-- R186: DVI divides the integer in QA: quotient truncated in A, remainder with the sign of the dividend in Q, signs
kept on zeros (D4); with a zero divisor or a quotient above 2^47 - 1 the divide fault is set and A and Q are free (D5,
log 9). No other agent acts during it (R188, log 7). -/
def Obligations.DivideInteger : Prop :=
  ∀ (s : State) (b : Designator) (e m : Addr) (x : Word) (d : DoubleWord),
    s.resolveAtomic b e = some m → x = s.read m → d = double s.q s.a →
    (sval x ≠ 0 → ((sval d).tdiv (sval x)).natAbs ≤ 2 ^ 47 - 1 →
      ∃ t, exec (.dvi b e) s = .next t ∧ t = { s with a := t.a, q := t.q, p := s.nextP, half := s.nextHalf } ∧
        sval t.a = (sval d).tdiv (sval x) ∧ t.a.msb = (d.msb != x.msb) ∧
        sval t.q = (sval d).tmod (sval x) ∧ t.q.msb = d.msb) ∧
    (sval x = 0 ∨ 2 ^ 47 - 1 < ((sval d).tdiv (sval x)).natAbs →
      ∃ t, exec (.dvi b e) s = .next t ∧
        t = { s with
              a := t.a, q := t.q, freeCount := t.freeCount, faults := { s.faults with divide := true }
              p := s.nextP, half := s.nextHalf })

/-- R187: DVF divides the fraction in AQ: the quotient in A, in Q a word with the sign of the dividend that is a zero
when the division is exact (otherwise open: D6, log 10); the divide fault as in DVI. No other agent acts during it
(R188, log 7). -/
def Obligations.DivideFractional : Prop :=
  ∀ (s : State) (b : Designator) (e m : Addr) (x : Word) (d : DoubleWord),
    s.resolveAtomic b e = some m → x = s.read m → d = double s.a s.q →
    (sval x ≠ 0 → ((sval d).tdiv (2 * sval x)).natAbs ≤ 2 ^ 47 - 1 →
      ∃ t, exec (.dvf b e) s = .next t ∧ t = { s with a := t.a, q := t.q, p := s.nextP, half := s.nextHalf } ∧
        sval t.a = (sval d).tdiv (2 * sval x) ∧ t.a.msb = (d.msb != x.msb) ∧ t.q.msb = d.msb ∧
        (2 * sval x ∣ sval d → sval t.q = 0)) ∧
    (sval x = 0 ∨ 2 ^ 47 - 1 < ((sval d).tdiv (2 * sval x)).natAbs →
      ∃ t, exec (.dvf b e) s = .next t ∧
        t = { s with
              a := t.a, q := t.q, freeCount := t.freeCount, faults := { s.faults with divide := true }
              p := s.nextP, half := s.nextHalf })

/-! ### Floating point and scaling -/

/-- R202: the worked conversions of the source, both ways. -/
def Obligations.FloatWorkedConversions : Prop :=
  fpPack ⟨false, 3, 2 ^ 35⟩ = 0o2003400000000000#48 ∧ fpPack ⟨true, 3, 2 ^ 35⟩ = 0o5774377777777777#48 ∧
  fpPack ⟨false, 0, 2 ^ 35⟩ = 0o2000400000000000#48 ∧ fpPack ⟨false, -3, 2 ^ 35⟩ = 0o1774400000000000#48 ∧
  floatValue 0o2003400000000000#48 = 4 ∧ floatValue 0o5774377777777777#48 = -4 ∧
  floatValue 0o1774400000000000#48 = 1 / 16 ∧ floatValue 0o2000400000000000#48 = 1 / 2

/-- R201: packing then unpacking gives every sign, exponent and coefficient back, and every word has an exponent in
range. -/
def Obligations.FloatPackUnpack : Prop :=
  (∀ f : FpParts, -1023 ≤ f.exp → f.exp ≤ 1023 → f.coef < 2 ^ 36 → fpUnpack (fpPack f) = f) ∧
  ∀ w : Word, -1023 ≤ (fpUnpack w).exp ∧ (fpUnpack w).exp ≤ 1023 ∧ (fpUnpack w).coef < 2 ^ 36

/-- R203 to R207, D33: a floating point result that is exactly zero leaves +0 in A and in Q and sets no fault. A
division by zero completes and leaves A, Q and the exponent fault indicator free, and changes nothing else (U7, log 12).
No other agent acts during it (R188, log 7). -/
def Obligations.FloatZeroCases : Prop :=
  ∀ (s : State) (b : Designator) (e m : Addr) (z : State), s.resolveAtomic b e = some m →
    z = { s with a := 0#48, q := 0#48, p := s.nextP, half := s.nextHalf } →
    (floatValue s.a + floatValue (s.read m) = 0 → exec (.fad b e) s = .next z) ∧
    (floatValue s.a - floatValue (s.read m) = 0 → exec (.fsb b e) s = .next z) ∧
    (floatValue s.a * floatValue (s.read m) = 0 → exec (.fmu b e) s = .next z) ∧
    (floatValue s.a = 0 → floatValue (s.read m) ≠ 0 → exec (.fdv b e) s = .next z) ∧
    (floatValue (s.read m) = 0 → ∃ t, exec (.fdv b e) s = .next t ∧
      t = { s with
            a := t.a, q := t.q, freeCount := t.freeCount, faults := { s.faults with exponent := t.faults.exponent }
            p := s.nextP, half := s.nextHalf })

/-- R203 to R208: a floating point operation rounds the exact result of the operation on the operand values, exactly
where it is representable (FP_ROUND is open: log 11), or sets the exponent fault (A and Q free: log 12); unnormalized
operands have their values too (log 13). No other agent acts during it (R188, log 7). -/
def Obligations.FloatOperationsRoundExactResult : Prop :=
  ∀ (s : State) (b : Designator) (e m : Addr), s.resolveAtomic b e = some m →
    (floatValue s.a + floatValue (s.read m) ≠ 0 →
      ∃ t, exec (.fad b e) s = .next t ∧ floatOutcome s t (floatValue s.a + floatValue (s.read m))) ∧
    (floatValue s.a - floatValue (s.read m) ≠ 0 →
      ∃ t, exec (.fsb b e) s = .next t ∧ floatOutcome s t (floatValue s.a - floatValue (s.read m))) ∧
    (floatValue s.a * floatValue (s.read m) ≠ 0 →
      ∃ t, exec (.fmu b e) s = .next t ∧ floatOutcome s t (floatValue s.a * floatValue (s.read m))) ∧
    (floatValue s.a ≠ 0 → floatValue (s.read m) ≠ 0 →
      ∃ t, exec (.fdv b e) s = .next t ∧ floatOutcome s t (floatValue s.a / floatValue (s.read m)))

/-- R210: SCA rotates A left until its two top bits differ or the count runs out, and leaves the reduced count in the
index register named; a zero of either sign is not scaled. Any 15-bit count is taken and no shift fault is set (log 38).
No other agent acts during it (R188, log 7). -/
def Obligations.ScaleA : Prop :=
  ∀ (s : State) (b : Designator) (e k : Addr) (r : Option IndexReg), s.indirectAtomic b e = some (r, k) →
    (s.a = 0#48 ∨ s.a = BitVec.allOnes 48 →
      exec (.sca b e) s = .next { s with b := (s.setB r k).b, p := s.nextP, half := s.nextHalf }) ∧
    (s.a ≠ 0#48 → s.a ≠ BitVec.allOnes 48 → ∃ n : Nat, n ≤ k.toNat ∧
      exec (.sca b e) s = .next { s with
        a := s.a.rotateLeft n, b := (s.setB r (BitVec.ofNat 15 (k.toNat - n))).b, p := s.nextP, half := s.nextHalf } ∧
      (n = k.toNat ∨ (s.a.rotateLeft n).getLsbD 47 ≠ (s.a.rotateLeft n).getLsbD 46) ∧
      ∀ j : Nat, j < n → (s.a.rotateLeft j).getLsbD 47 = (s.a.rotateLeft j).getLsbD 46)

/-- R211: SCQ does the same on AQ. Where A is a zero and Q is not the same zero the zero test is open (D8, log 14): the
outcome is one of the two. Any 15-bit count is taken and no shift fault is set (log 38). No other agent acts during it
(R188, log 7). -/
def Obligations.ScaleAQ : Prop :=
  ∀ (s : State) (b : Designator) (e k : Addr) (r : Option IndexReg) (d : DoubleWord) (unscaled : State)
    (scaled : Nat → State),
    s.indirectAtomic b e = some (r, k) → d = double s.a s.q →
    unscaled = { s with b := (s.setB r k).b, p := s.nextP, half := s.nextHalf } →
    scaled = (fun n => { s with
      a := (d.rotateLeft n).extractLsb' 48 48, q := (d.rotateLeft n).extractLsb' 0 48
      b := (s.setB r (BitVec.ofNat 15 (k.toNat - n))).b, p := s.nextP, half := s.nextHalf }) →
    (d = 0#96 ∨ d = BitVec.allOnes 96 → exec (.scq b e) s = .next unscaled) ∧
    (d ≠ 0#96 → d ≠ BitVec.allOnes 96 → ∃ n : Nat, n ≤ k.toNat ∧
      (n = k.toNat ∨ (d.rotateLeft n).getLsbD 95 ≠ (d.rotateLeft n).getLsbD 94) ∧
      (∀ j : Nat, j < n → (d.rotateLeft j).getLsbD 95 = (d.rotateLeft j).getLsbD 94) ∧
      (exec (.scq b e) s = .next (scaled n) ∨
        ((s.a = 0#48 ∨ s.a = BitVec.allOnes 48) ∧ exec (.scq b e) s = .next unscaled)))

/-! ### Jumps and stops -/

/-- R113, R236 to R240: AJP, QJP and SLJ jump by either kind of jump when their condition holds, and otherwise go on to
the next instruction. The zero test counts both zeros (R236, log 37); a normal jump into the control words under the
lockout begins the return (R383, D12). -/
def Obligations.ConditionalJumps : Prop :=
  ∀ (s : State) (j : JumpKind) (m : Addr),
    (∀ c : RegCond,
      (regCondition c s.a → ∃ t, exec (.ajp j c m) s = .next t ∧ jumpOutcome s t j m) ∧
      (¬regCondition c s.a → exec (.ajp j c m) s = .next s.advanced) ∧
      (regCondition c s.q → ∃ t, exec (.qjp j c m) s = .next t ∧ jumpOutcome s t j m) ∧
      (¬regCondition c s.q → exec (.qjp j c m) s = .next s.advanced)) ∧
    ∀ c : KeyCond,
      (keyCondition c s.jumpKey → ∃ t, exec (.slj j c m) s = .next t ∧ jumpOutcome s t j m) ∧
      (¬keyCondition c s.jumpKey → exec (.slj j c m) s = .next s.advanced)

/-- R241, R364: SLS stops with nothing but `run` changed when its condition holds, and jumps when it does not; started
again, it makes its jump without testing the keys, whatever the mode switch is and whether or not P has been keyed in
(log 19), and the release of the lockout follows it (R383, log 16): after Start the computer runs on, after Step that
jump is the one instruction executed and it stops again. -/
def Obligations.SelectiveStop : Prop :=
  (∀ (s : State) (j : JumpKind) (c : KeyCond) (m : Addr),
    (keyCondition c s.stopKey → exec (.sls j c m) s = .next { s with run := .stopped .sls }) ∧
    (¬keyCondition c s.stopKey → ∃ t, exec (.sls j c m) s = .next t ∧ jumpOutcome s t j m)) ∧
  ∀ (s : State) (j : JumpKind) (c : KeyCond) (m : Addr),
    s.run = .stopped .sls → s.held = none → decode s.currentBits = .sls j c m →
    ∃ t, jumpOutcome s t j m ∧
      s.deliver (.operator .start) = { t with
        run := .running, singleStep := false
        lockout := t.lockout && !(decide (s.half = .upper) && s.intExit && t.intExit)
        intExit := t.intExit && !(decide (s.half = .upper) && s.intExit) } ∧
      s.deliver (.operator .step) = { t with
        run := .stopped .operator, singleStep := true
        lockout := t.lockout && !(decide (s.half = .upper) && s.intExit && t.intExit)
        intExit := t.intExit && !(decide (s.half = .upper) && s.intExit) }

/-- R106, D19: the illegal codes stop the computer, whatever the designator and the address, and change nothing else;
Start and Step do nothing after such a stop until the operator has keyed an instruction or an address, which leaves the
computer stopped by the operator (log 17; the load procedure of R423 does it). -/
def Obligations.IllegalCodes : Prop :=
  (∀ (s : State) (b : Designator) (m : Addr),
    exec (.zro b m) s = .next { s with run := .stopped .illegal } ∧
    exec (.sev b m) s = .next { s with run := .stopped .illegal }) ∧
  ∀ s : State, s.run = .stopped .illegal →
    s.deliver (.operator .start) = s ∧ s.deliver (.operator .step) = s ∧
    (∀ m : Addr, s.deliver (.operator (.key (.p m))) = { s with p := m, run := .stopped .operator }) ∧
    ∀ (w : InstrBits) (t : State), t = s.deliver (.operator (.key (.instruction w))) →
      t = { s with u1 := t.u1, run := .stopped .operator, held := some (decode w) } ∧ t.currentBits = w

/-! ### Storage test, logical, search, replace -/

/-- R261, R262: SSK and SSH exit by the sign of (M); SSH rotates the word left one place. The read and the write of SSH
are two references, and what other agents do between them stands, but for the word itself (R81, log 7). The state in
which the operand is resolved and referred to is u (R84; OtherAgentsFrame). -/
def Obligations.StorageTest : Prop :=
  ∀ (s u : State) (b : Designator) (e m : Addr), s.operand b e = some (u, m) →
    exec (.ssk b e) s = .next (u.exitOn ((u.read m).getLsbD 47)) ∧
    ∃ t, exec (.ssh b e) s = .next t ∧ t = { u.point.exitOn ((u.read m).getLsbD 47) with mem := t.mem } ∧
      storedAt u.point t m (t.read m) ∧
      ∀ i : Nat, i < 48 → (t.read m).getLsbD ((i + 1) % 48) = (u.read m).getLsbD i

/-- R264 to R268: SST, SCM, SCL, SSU and LDL, bit by bit as the source's tables give them; A alone changes. The state in
which the operand is resolved and referred to is u (R84; OtherAgentsFrame). -/
def Obligations.LogicalInstructions : Prop :=
  ∀ (s u : State) (b : Designator) (e m : Addr) (x : Word), s.operand b e = some (u, m) → x = u.read m →
    (∃ t, exec (.sst b e) s = .next t ∧ t = { u with a := t.a, p := u.nextP, half := u.nextHalf } ∧
      ∀ i : Nat, t.a.getLsbD i = (u.a.getLsbD i || x.getLsbD i)) ∧
    (∃ t, exec (.scm b e) s = .next t ∧ t = { u with a := t.a, p := u.nextP, half := u.nextHalf } ∧
      ∀ i : Nat, t.a.getLsbD i = (u.a.getLsbD i != x.getLsbD i)) ∧
    (∃ t, exec (.scl b e) s = .next t ∧ t = { u with a := t.a, p := u.nextP, half := u.nextHalf } ∧
      ∀ i : Nat, t.a.getLsbD i = (u.a.getLsbD i && !x.getLsbD i)) ∧
    (∃ t, exec (.ssu b e) s = .next t ∧ t = { u with a := t.a, p := u.nextP, half := u.nextHalf } ∧
      ∀ i : Nat, t.a.getLsbD i = if u.q.getLsbD i then x.getLsbD i else u.a.getLsbD i) ∧
    ∃ t, exec (.ldl b e) s = .next t ∧ t = { u with a := t.a, p := u.nextP, half := u.nextHalf } ∧
      ∀ i : Nat, t.a.getLsbD i = (u.q.getLsbD i && x.getLsbD i)

/-- R290 to R294: the replace instructions: the sum in A and at M, also after an overflow (D1), and the overflow fault.
What other agents do between the read and the write stands, but for the word at M itself (R81, log 7). The state in
which the operand is resolved and referred to is u (R84; OtherAgentsFrame). -/
def Obligations.ReplaceInstructions : Prop :=
  ∀ (s u : State) (b : Designator) (e m : Addr), s.operand b e = some (u, m) →
    ∀ (i : Instr) (x : Word),
      (i = .rad b e ∧ x = u.a) ∨ (i = .rsb b e ∧ x = ~~~u.a) ∨ (i = .rao b e ∧ x = 1#48) ∨
        (i = .rso b e ∧ x = 0o7777777777777776#48) →
      ∃ t, exec i s = .next t ∧
        t = { u.point with
              mem := t.mem, a := ocAdd (u.read m) x
              faults := { u.point.faults with overflow := u.point.faults.overflow || ocOvf (u.read m) x }
              p := u.nextP, half := u.nextHalf } ∧
        storedAt u.point t m (ocAdd (u.read m) x)

/-- R280 to R286 with no other agent acting and no interrupt due: the four searches examine the list from its highest
address down (addresses formed by D3), leave the offset of the first match in the index register and exit fully, or
leave zero and go on to the next instruction (D28 in the lower position); only the index register changes. That "greater
than" is the order of two's complement integers is decision D24 (R281; log 40). -/
def Obligations.SearchList : Prop :=
  ∀ (s : State) (b : Designator) (e m : Addr) (r : Option IndexReg),
    s.indirect b e = some (s, r, m) → s.undisturbed →
    (∃ t, exec (.eqs b e) s = .next t ∧ searchOutcome (fun w => decide (sval w = sval s.a)) s t r m) ∧
    (∃ t, exec (.ths b e) s = .next t ∧ searchOutcome (fun w => decide (s.a.toInt < w.toInt)) s t r m) ∧
    (∃ t, exec (.meq b e) s = .next t ∧ searchOutcome (fun w => decide (sval (s.q &&& w) = sval s.a)) s t r m) ∧
    ∃ t, exec (.mth b e) s = .next t ∧ searchOutcome (fun w => decide (s.a.toInt < (s.q &&& w).toInt)) s t r m

/-- R280, R286, R304, R376(b): a search word by word, whatever other agents do. The word examined is the one at m +
(count - 1), by one's complement addition (D3; log 40), and the count left is in the index register. A match exits
fully; after the last word, or with no count, the search goes on to the next instruction (D28 in the lower position);
after a word that does not end it other agents act; if an interrupt is then due it is entered, the index register
holding the remaining count (D34); if not, the search goes on as the same instruction would from there. Without an index
register the one word at m is examined. -/
def Obligations.SearchWordByWord : Prop :=
  (∀ (s u v : State) (b : Designator) (e m : Addr) (r : IndexReg) (i : Designator → Addr → Instr) (found : Bool),
    s.indirectOperand b e = some (u, some r, m) → u.b.get r ≠ 0#15 →
    searchFinds i u (u.read (ocAdd m (u.b.get r - 1#15))) found → v = { u with b := u.b.set r (u.b.get r - 1#15) } →
    (found = true → exec (i b e) s = .next (v.exitOn true)) ∧
    (found = false → u.b.get r = 1#15 → exec (i b e) s = .next v.advanced) ∧
    (found = false → u.b.get r ≠ 1#15 →
      exec (i b e) s =
        if v.point.interruptDue then .next v.point.interruptEntry else exec (i (.index r) m) v.point)) ∧
  (∀ (s u : State) (b : Designator) (e m : Addr) (r : IndexReg) (i : Designator → Addr → Instr) (w : Word)
      (found : Bool),
    s.indirect b e = some (u, some r, m) → u.b.get r = 0#15 → searchFinds i u w found →
    exec (i b e) s = .next u.advanced) ∧
  ∀ (s u : State) (b : Designator) (e m : Addr) (i : Designator → Addr → Instr) (found : Bool),
    s.indirectOperand b e = some (u, none, m) → searchFinds i u (u.read m) found →
    exec (i b e) s = .next (if found then u.exitOn true else u.advanced)

/-! ### Transfers and the external function instruction -/

/-- R302, R304: INT with no other agent acting, no interrupt due and words enough at hand stores them from the highest
address down (addresses formed by D3) and leaves zero in the index register. Word by word, whatever other agents do: a
word at hand is stored; after the last one the transfer ends; after another, other agents act, and if an interrupt is
then due it is entered, the index register holding the remaining count (D34), else the transfer goes on as the same
instruction would from there; with no word at hand it waits, nothing moved (log 21); with no count it is a pass. -/
def Obligations.InputTransfer : Prop :=
  (∀ (s : State) (b : Designator) (e m : Addr) (r : IndexReg) (ws rest : List Word),
    s.indirect b e = some (s, some r, m) → s.undisturbed → s.equipment.ch7In = ws ++ rest →
    ws.length = (s.b.get r).toNat →
    ∃ t, exec (.int b e) s = .next t ∧
      t = { s with
            mem := t.mem, b := s.b.set r 0#15, equipment := { s.equipment with ch7In := rest }
            p := s.nextP, half := s.nextHalf } ∧
      (∀ (j : Nat) (w : Word), ws[j]? = some w → t.read (listAddress m (ws.length - 1 - j)) = w) ∧
      ∀ x : Addr, (∀ j : Nat, j < ws.length → x ≠ listAddress m j) → t.read x = s.read x) ∧
  (∀ (s u v : State) (b : Designator) (e m : Addr) (r : IndexReg) (w : Word) (rest : List Word),
    s.indirectOperand b e = some (u, some r, m) → u.b.get r ≠ 0#15 → u.equipment.ch7In = w :: rest →
    v = { u.write (ocAdd m (u.b.get r - 1#15)) w with
          b := u.b.set r (u.b.get r - 1#15), equipment := { u.equipment with ch7In := rest } } →
    (u.b.get r = 1#15 → exec (.int b e) s = .next v.advanced) ∧
    (u.b.get r ≠ 1#15 →
      exec (.int b e) s =
        if v.point.interruptDue then .next v.point.interruptEntry else exec (.int (.index r) m) v.point)) ∧
  (∀ (s u : State) (b : Designator) (e m : Addr) (w : Word) (rest : List Word),
    s.indirectOperand b e = some (u, none, m) → u.equipment.ch7In = w :: rest →
    ∃ t, exec (.int b e) s = .next t ∧
      t = { u with
            mem := t.mem, equipment := { u.equipment with ch7In := rest }, p := u.nextP, half := u.nextHalf } ∧
      storedAt u t m w) ∧
  (∀ (s u : State) (b : Designator) (e m : Addr), u.equipment.ch7In = [] →
    (s.indirectOperand b e = some (u, none, m) →
      exec (.int b e) s = .next { u with held := some (.int .direct m) }) ∧
    ∀ r, s.indirectOperand b e = some (u, some r, m) → u.b.get r ≠ 0#15 →
      exec (.int b e) s = .next { u with held := some (.int (.index r) m) }) ∧
  ∀ (s u : State) (b : Designator) (e m : Addr) (r : IndexReg),
    s.indirect b e = some (u, some r, m) → u.b.get r = 0#15 → exec (.int b e) s = .next u.advanced

/-- R303, R304: OUT with no other agent acting, no interrupt due and an equipment that accepts enough words sends them
from the highest address down (addresses formed by D3) and leaves zero in the index register. Word by word, whatever
other agents do: a word that is accepted is sent; after the last one the transfer ends; after another, other agents act,
and if an interrupt is then due it is entered, the index register holding the remaining count (D34), else the transfer
goes on as the same instruction would from there; while none is accepted it waits, nothing moved (log 21); with no count
it is a pass. -/
def Obligations.OutputTransfer : Prop :=
  (∀ (s : State) (b : Designator) (e m : Addr) (r : IndexReg),
    s.indirect b e = some (s, some r, m) → s.undisturbed → (s.b.get r).toNat ≤ s.equipment.ch7Accept →
    exec (.out b e) s = .next { s with
      b := s.b.set r 0#15
      equipment := { s.equipment with
        ch7Accept := s.equipment.ch7Accept - (s.b.get r).toNat
        ch7Out := s.equipment.ch7Out ++
          (List.range (s.b.get r).toNat).reverse.map fun j => s.read (listAddress m j) }
      p := s.nextP, half := s.nextHalf }) ∧
  (∀ (s u v : State) (b : Designator) (e m : Addr) (r : IndexReg),
    s.indirectOperand b e = some (u, some r, m) → u.b.get r ≠ 0#15 → u.equipment.ch7Accept ≠ 0 →
    v = { u with
          b := u.b.set r (u.b.get r - 1#15)
          equipment := { u.equipment with
            ch7Accept := u.equipment.ch7Accept - 1
            ch7Out := u.equipment.ch7Out ++ [u.read (ocAdd m (u.b.get r - 1#15))] } } →
    (u.b.get r = 1#15 → exec (.out b e) s = .next v.advanced) ∧
    (u.b.get r ≠ 1#15 →
      exec (.out b e) s =
        if v.point.interruptDue then .next v.point.interruptEntry else exec (.out (.index r) m) v.point)) ∧
  (∀ (s u : State) (b : Designator) (e m : Addr),
    s.indirectOperand b e = some (u, none, m) → u.equipment.ch7Accept ≠ 0 →
    exec (.out b e) s = .next { u with
      equipment := { u.equipment with
        ch7Accept := u.equipment.ch7Accept - 1, ch7Out := u.equipment.ch7Out ++ [u.read m] }
      p := u.nextP, half := u.nextHalf }) ∧
  (∀ (s u : State) (b : Designator) (e m : Addr), u.equipment.ch7Accept = 0 →
    (s.indirectOperand b e = some (u, none, m) →
      exec (.out b e) s = .next { u with held := some (.out .direct m) }) ∧
    ∀ r, s.indirectOperand b e = some (u, some r, m) → u.b.get r ≠ 0#15 →
      exec (.out b e) s = .next { u with held := some (.out (.index r) m) }) ∧
  ∀ (s u : State) (b : Designator) (e m : Addr) (r : IndexReg),
    s.indirect b e = some (u, some r, m) → u.b.get r = 0#15 → exec (.out b e) s = .next u.advanced

/-- R318: the internal select codes; each writes its selections or indicators and nothing else. That `00070` clears the
clock overflow indicator too is D13. `C0000` reaches the equipment only (what it does there: log 23, log 34). -/
def Obligations.InternalSelectCodes : Prop :=
  ∀ s : State,
    (∀ c : Channel,
      exec (.exf .select (BitVec.ofNat 15 (8 * channelNumber c))) s =
        .next { s with selInactive := s.selInactive.set c true, p := s.nextP, half := s.nextHalf } ∧
      exec (.exf .select (BitVec.ofNat 15 (8 * channelNumber c + 1))) s =
        .next { s with selInactive := s.selInactive.set c false, p := s.nextP, half := s.nextHalf } ∧
      ∃ t, exec (.exf .select (BitVec.ofNat 15 (4096 * channelNumber c))) s = .next t ∧
        t = { s with console := t.console, equipment := t.equipment, p := s.nextP, half := s.nextHalf }) ∧
    exec (.exf .select 0o100#15) s = .next { s with selArith := true, p := s.nextP, half := s.nextHalf } ∧
    exec (.exf .select 0o101#15) s = .next { s with selArith := false, p := s.nextP, half := s.nextHalf } ∧
    exec (.exf .select 0o70#15) s = .next { s with
      faults := { Faults.none with oddStorage := s.faults.oddStorage, evenStorage := s.faults.evenStorage }
      p := s.nextP, half := s.nextHalf } ∧
    exec (.exf .select 0o1000#15) s = .next { s with clockRunning := true, p := s.nextP, half := s.nextHalf } ∧
    exec (.exf .select 0o2000#15) s = .next { s with clockRunning := false, p := s.nextP, half := s.nextHalf } ∧
    exec (.exf .select 0o200#15) s = .next { s with
      console := { s.console with carriageReturn := false }, p := s.nextP, half := s.nextHalf }

/-- R313: activate writes the starting address into the control word of its channel and both addresses into CRj, and
makes the channel active when they differ; it does the same on an active channel (D35). Other agents act before its one
storage reference (R81, R84). -/
def Obligations.ActivateBuffer : Prop :=
  ∀ (s u : State) (c : Channel) (y word l : Addr),
    u = s.point → word = BitVec.ofNat 15 (channelNumber c) → l = (u.read word).extractLsb' 0 15 →
    ∃ t, exec (.exf (.activate c) y) s = .next t ∧
      t = { u with mem := t.mem, cr := t.cr, active := t.active, p := u.nextP, half := u.nextHalf } ∧
      storedAt u t word (t.read word) ∧ upperReplaced (u.read word) (t.read word) y ∧
      t.cr.get c = ⟨y, l⟩ ∧ t.active.get c = decide (y ≠ l) ∧
      ∀ d : Channel, d ≠ c → t.cr.get d = u.cr.get d ∧ t.active.get d = u.active.get d

/-- R314, R319: the internal sense codes exit fully when the condition of their row holds, the odd code of a pair when
it does not; no state but the exit changes. The line of channel 1 stands by the level the equipment sets, or by the
console's own request: a carriage return, or an end of tape, with its interrupt selected (R389, log 22). -/
def Obligations.InternalSenseCodes : Prop :=
  ∀ (s : State) (code : Nat) (condition : Bool),
    (code = 0o110 ∧ condition = s.faults.divide) ∨ (code = 0o120 ∧ condition = s.faults.shift) ∨
      (code = 0o130 ∧ condition = s.faults.overflow) ∨ (code = 0o140 ∧ condition = s.faults.exponent) ∨
      (code = 0o300 ∧ condition = s.faults.clockOverflow) ∨ (code = 0o200 ∧ condition = decide (s.monExit = .lower)) ∨
      (code = 0o160 ∧ condition = s.extInt.get .out7) ∨ (code = 0o170 ∧ condition = s.extInt.get .in7) ∨
      (∃ c : Channel, code = 8 * channelNumber c ∧ condition = s.active.get c) ∨
      (∃ c : Channel, c ≠ .c1 ∧ code = 512 * channelNumber c ∧ condition = s.extInt.get (.channel c)) ∨
      (code = 0o1000 ∧ condition =
        (s.extInt.get (.channel .c1) || (s.console.crInterrupt && s.console.carriageReturn) ||
          (s.console.eotInterrupt && s.console.endOfTape))) →
    exec (.exf .sense (BitVec.ofNat 15 code)) s = .next (s.exitOn condition) ∧
    exec (.exf .sense (BitVec.ofNat 15 (code + 1))) s = .next (s.exitOn (!condition))

/-- R334, R335: the ten console select codes write the console's selections and indicators; the code is recorded for the
environment (log 23), and nothing else changes; selecting an equipment replaces the one selected on its channel and
leaves the one on the other channel selected (log 22). The console sense codes exit fully when their condition holds,
the odd code of a pair when it does not, and change no state but the exit. -/
def Obligations.ConsoleCodes : Prop :=
  (∀ (s : State) (y : Addr) (c : Console),
    (y = 0o11100#15 ∧ c = { s.console with input := .keyboard, crInterrupt := false, carriageReturn := false }) ∨
      (y = 0o11140#15 ∧ c = { s.console with input := .keyboard, crInterrupt := true, carriageReturn := false }) ∨
      (y = 0o11200#15 ∧ c = { s.console with input := .reader, eotInterrupt := false }) ∨
      (y = 0o11210#15 ∧ c = { s.console with endOfTape := true, eotInterrupt := false }) ∨
      (y = 0o11220#15 ∧ c = { s.console with input := .reader, eotInterrupt := true }) ∨
      (y = 0o21100#15 ∧ c = { s.console with output := .typewriter true }) ∨
      (y = 0o21110#15 ∧ c = { s.console with output := .typewriter false }) ∨
      (y = 0o21200#15 ∧ c = { s.console with output := .punch true, punchMotor := true }) ∨
      (y = 0o21210#15 ∧ c = { s.console with output := .punch false, punchMotor := true }) ∨
      (y = 0o21240#15 ∧ c = { s.console with punchMotor := false }) →
    exec (.exf .select y) s = .next { s with
      console := c, equipment := { s.equipment with selects := s.equipment.selects ++ [y] }
      p := s.nextP, half := s.nextHalf }) ∧
  ∀ (s : State) (code : Nat) (condition : Bool),
    (code = 0o11100 ∧ condition = s.console.carriageReturn) ∨ (code = 0o11140 ∧ condition = !s.console.upperCase) ∨
      (code = 0o11200 ∧ condition = s.console.endOfTape) ∨
      (code = 0o11210 ∧ condition = s.console.readerAssembly) ∨ (code = 0o21200 ∧ condition = s.console.outOfTape) →
    exec (.exf .sense (BitVec.ofNat 15 code)) s = .next (s.exitOn condition) ∧
    exec (.exf .sense (BitVec.ofNat 15 (code + 1))) s = .next (s.exitOn (!condition))

/-- R320, R321, D17, log 20, log 23: every select and every sense completes. An internal select changes nothing in the
storage, A, Q, the index registers or the channels; a select in no list changes nothing but control; an external select
(channel field 1 to 6) is recorded for the equipment and changes nothing else but the console, and that only by the
console's own codes and by the two that clear its channels. A sense of any code takes one of the two exits and changes
nothing else but the count of free values; an external one outside the console's list exits fully exactly when an
equipment answers the code. -/
def Obligations.EveryCodeCompletes : Prop :=
  ∀ (s : State) (y : Addr),
    (∃ t, exec (.exf .select y) s = .next t ∧
      t = { s with
            selInactive := t.selInactive, selArith := t.selArith, faults := t.faults, clockRunning := t.clockRunning
            console := t.console, equipment := t.equipment, p := s.nextP, half := s.nextHalf }) ∧
    (selectCodeListed y = false → exec (.exf .select y) s = .next s.advanced) ∧
    (1 ≤ y.toNat / 4096 → y.toNat / 4096 ≤ 6 →
      (∃ t, exec (.exf .select y) s = .next t ∧
        t = { s with
              console := t.console, equipment := { s.equipment with selects := s.equipment.selects ++ [y] }
              p := s.nextP, half := s.nextHalf } ∧
        (consoleSelect y = none → y ≠ 0o10000#15 → y ≠ 0o20000#15 → t.console = s.console)) ∧
      (consoleCondition y = none →
        exec (.exf .sense y) s = .next (s.exitOn (decide (y ∈ s.equipment.answers))))) ∧
    ∃ t c, exec (.exf .sense y) s = .next t ∧ t = { s.exitOn c with freeCount := t.freeCount } ∧
      (senseCodeListed y = true → t.freeCount = s.freeCount)

/-! ### The other agents -/

/-- R316: a word on an active channel whose equipment is not hung up: on an input channel it is stored at the current
address, on an output channel it is read from there and delivered; the current address is advanced (D15), and the
channel becomes inactive when it reaches the terminal address. On an inactive channel, and to a typewriter that is hung
up (R331), nothing moves (log 35; on channel 2 for no other equipment either: log 22). On channel 2 the console
equipment selected takes the word too (R330, R331, R333, log 22): in the assembly mode eight characters, the upper six
bits first, the punch adding the seventh level to the first; in the character mode the lowest six bits are typed, the
lowest seven punched. -/
def Obligations.BufferWord : Prop :=
  ∀ (s t : State) (c : Channel) (w x : Word),
    t = s.deliver (.io (.bufferWord c w)) → x = s.read (s.cr.get c).u →
    (s.active.get c = false → t = s) ∧
    (c = .c2 → s.console.outputHung = true → t = s) ∧
    (s.active.get c = true → (c = .c2 → s.console.outputHung = false) →
      t.cr.get c = ⟨(s.cr.get c).u + 1#15, (s.cr.get c).l⟩ ∧
      t.active.get c = decide ((s.cr.get c).u + 1#15 ≠ (s.cr.get c).l) ∧
      (∀ d : Channel, d ≠ c → t.cr.get d = s.cr.get d ∧ t.active.get d = s.active.get d) ∧
      (c = .c1 ∨ c = .c3 ∨ c = .c5 →
        t = { s with mem := t.mem, cr := t.cr, active := t.active } ∧ storedAt s t (s.cr.get c).u w) ∧
      (c = .c2 ∨ c = .c4 ∨ c = .c6 →
        t = { s with
              cr := t.cr, active := t.active, console := t.console
              equipment := { s.equipment with bufferOut := s.equipment.bufferOut ++ [(c, x)] } }) ∧
      (c ≠ .c2 ∨ s.console.output = .none → t.console = s.console) ∧
      (c = .c2 → s.console.output = .typewriter true → t.console = { s.console with
        typed := s.console.typed ++
          [x.extractLsb' 42 6, x.extractLsb' 36 6, x.extractLsb' 30 6, x.extractLsb' 24 6,
            x.extractLsb' 18 6, x.extractLsb' 12 6, x.extractLsb' 6 6, x.extractLsb' 0 6] }) ∧
      (c = .c2 → s.console.output = .typewriter false →
        t.console = { s.console with typed := s.console.typed ++ [x.extractLsb' 0 6] }) ∧
      (c = .c2 → s.console.output = .punch true → t.console = { s.console with
        punched := s.console.punched ++
          [1#1 ++ x.extractLsb' 42 6, 0#1 ++ x.extractLsb' 36 6, 0#1 ++ x.extractLsb' 30 6,
            0#1 ++ x.extractLsb' 24 6, 0#1 ++ x.extractLsb' 18 6, 0#1 ++ x.extractLsb' 12 6,
            0#1 ++ x.extractLsb' 6 6, 0#1 ++ x.extractLsb' 0 6] }) ∧
      (c = .c2 → s.console.output = .punch false →
        t.console = { s.console with punched := s.console.punched ++ [x.extractLsb' 0 7] }))

/-- R398, R399: the clock advances word 0o00000 by one while it runs; the clock overflow indicator is set on the advance
from 2^47 - 1 and on no other; nothing else changes, and nothing at all while it is stopped. The advance is one
event (D29). -/
def Obligations.ClockAdvance : Prop :=
  ∀ s t : State, t = s.deliver (.io .clockTick) →
    (s.clockRunning = false → t = s) ∧
    (s.clockRunning = true →
      t = { s with mem := t.mem, faults := { s.faults with clockOverflow := t.faults.clockOverflow } } ∧
      storedAt s t 0#15 (ocAdd (s.read 0#15) 1#48) ∧
      (t.faults.clockOverflow = true ↔
        s.faults.clockOverflow = true ∨ s.read 0#15 = 0o3777777777777777#48))

/-- R81, R84, R316: what the other agents do at a point before a storage reference of the program leaves the operational
registers, the control state, the interrupt selections, the keys and the four arithmetic fault indicators alone. The
same holds of the state in which the references of an operand have been made, which is the state they began in when no
other agent acts. -/
def Obligations.OtherAgentsFrame : Prop :=
  ∀ (s u : State) (b : Designator) (e : Addr),
    (u = s.point ∨ (∃ m, s.resolveAll b e = some (u, m)) ∨ (∃ m, s.operand b e = some (u, m)) ∨
      (∃ r m, s.indirect b e = some (u, r, m)) ∨ ∃ r m, s.indirectOperand b e = some (u, r, m)) →
    u = { s with
          mem := u.mem, cr := u.cr, active := u.active, extInt := u.extInt
          faults := { s.faults with clockOverflow := u.faults.clockOverflow }
          console := u.console, equipment := u.equipment, bootWritten := u.bootWritten, mid := u.mid } ∧
    (s.faults.clockOverflow = true → u.faults.clockOverflow = true) ∧
    (s.mid = [] → u = s)

/-! ### Rules over all instructions -/

/-- R31, R183, R365 to R369: no instruction but `74 0 00070` clears a fault indicator (the exponent indicator is also
open after a floating division by zero: U7, log 12), and only the instructions the spec names set the divide, the
shift, the overflow (log 36) and the exponent indicator. -/
def Obligations.FaultIndicators : Prop :=
  ∀ (i : Instr) (s t : State), exec i s = .next t → i ≠ .exf .select 0o70#15 →
    (s.faults.divide = true → t.faults.divide = true) ∧
    (s.faults.shift = true → t.faults.shift = true) ∧
    (s.faults.overflow = true → t.faults.overflow = true) ∧
    (s.faults.clockOverflow = true → t.faults.clockOverflow = true) ∧
    ((∀ b m, i ≠ .fdv b m) → s.faults.exponent = true → t.faults.exponent = true) ∧
    (s.faults.divide = false → t.faults.divide = true → ∃ b m, i = .dvi b m ∨ i = .dvf b m) ∧
    (s.faults.shift = false → t.faults.shift = true →
      ∃ b k, i = .ars b k ∨ i = .qrs b k ∨ i = .lrs b k ∨ i = .als b k ∨ i = .qls b k ∨ i = .lls b k) ∧
    (s.faults.overflow = false → t.faults.overflow = true →
      ∃ b m, i = .add b m ∨ i = .sub b m ∨ i = .ina b m ∨ i = .adl b m ∨ i = .sbl b m ∨ i = .rad b m ∨ i = .rsb b m ∨
        i = .rao b m ∨ i = .rso b m) ∧
    (s.faults.exponent = false → t.faults.exponent = true →
      ∃ b m, i = .fad b m ∨ i = .fsb b m ∨ i = .fmu b m ∨ i = .fdv b m)

/-- R34, R41, R42, R43, R405: no instruction changes the keys, the breakpoint, the switches or the parameters; none but
a select changes an interrupt selection or the clock's running; none sets the lockout but a search or a transfer that
is interrupted (R376(b)), and none clears it. -/
def Obligations.SwitchesAndSelections : Prop :=
  ∀ (i : Instr) (s t : State), exec i s = .next t →
    t.jumpKey = s.jumpKey ∧ t.stopKey = s.stopKey ∧ t.breakpoint = s.breakpoint ∧ t.modeSwitch = s.modeSwitch ∧
    t.singleStep = s.singleStep ∧ t.params = s.params ∧ t.imr = s.imr ∧ t.moments = s.moments ∧
    ((∀ y, i ≠ .exf .select y) →
      t.selArith = s.selArith ∧ t.selInactive = s.selInactive ∧ t.clockRunning = s.clockRunning) ∧
    (s.lockout = true → t.lockout = true) ∧
    (s.lockout = false → t.lockout = true →
      ∃ b m, i = .eqs b m ∨ i = .ths b m ∨ i = .meq b m ∨ i = .mth b m ∨ i = .int b m ∨ i = .out b m)

end
end

