-- ==== Sys2Proof/Laws/State.lean ====
section
/-! SUPPORT. One lemma for each field and each plain update of State: what the update leaves alone, and what it writes. -/

namespace Sys2Proof.Machine

/-! ### setA -/

@[simp] theorem State.setA_a (s : State) (w : Word) : (s.setA w).a = w := rfl
@[simp] theorem State.setA_q (s : State) (w : Word) : (s.setA w).q = s.q := rfl
@[simp] theorem State.setA_b (s : State) (w : Word) : (s.setA w).b = s.b := rfl
@[simp] theorem State.setA_p (s : State) (w : Word) : (s.setA w).p = s.p := rfl
@[simp] theorem State.setA_u1 (s : State) (w : Word) : (s.setA w).u1 = s.u1 := rfl
@[simp] theorem State.setA_half (s : State) (w : Word) : (s.setA w).half = s.half := rfl
@[simp] theorem State.setA_mem (s : State) (w : Word) : (s.setA w).mem = s.mem := rfl
@[simp] theorem State.setA_cr (s : State) (w : Word) : (s.setA w).cr = s.cr := rfl
@[simp] theorem State.setA_active (s : State) (w : Word) : (s.setA w).active = s.active := rfl
@[simp] theorem State.setA_faults (s : State) (w : Word) : (s.setA w).faults = s.faults := rfl
@[simp] theorem State.setA_selArith (s : State) (w : Word) : (s.setA w).selArith = s.selArith := rfl
@[simp] theorem State.setA_selInactive (s : State) (w : Word) : (s.setA w).selInactive = s.selInactive := rfl
@[simp] theorem State.setA_extInt (s : State) (w : Word) : (s.setA w).extInt = s.extInt := rfl
@[simp] theorem State.setA_imr (s : State) (w : Word) : (s.setA w).imr = s.imr := rfl
@[simp] theorem State.setA_lockout (s : State) (w : Word) : (s.setA w).lockout = s.lockout := rfl
@[simp] theorem State.setA_intExit (s : State) (w : Word) : (s.setA w).intExit = s.intExit := rfl
@[simp] theorem State.setA_monExit (s : State) (w : Word) : (s.setA w).monExit = s.monExit := rfl
@[simp] theorem State.setA_lastPos (s : State) (w : Word) : (s.setA w).lastPos = s.lastPos := rfl
@[simp] theorem State.setA_clockRunning (s : State) (w : Word) : (s.setA w).clockRunning = s.clockRunning := rfl
@[simp] theorem State.setA_run (s : State) (w : Word) : (s.setA w).run = s.run := rfl
@[simp] theorem State.setA_jumpKey (s : State) (w : Word) : (s.setA w).jumpKey = s.jumpKey := rfl
@[simp] theorem State.setA_stopKey (s : State) (w : Word) : (s.setA w).stopKey = s.stopKey := rfl
@[simp] theorem State.setA_breakpoint (s : State) (w : Word) : (s.setA w).breakpoint = s.breakpoint := rfl
@[simp] theorem State.setA_modeSwitch (s : State) (w : Word) : (s.setA w).modeSwitch = s.modeSwitch := rfl
@[simp] theorem State.setA_singleStep (s : State) (w : Word) : (s.setA w).singleStep = s.singleStep := rfl
@[simp] theorem State.setA_console (s : State) (w : Word) : (s.setA w).console = s.console := rfl
@[simp] theorem State.setA_equipment (s : State) (w : Word) : (s.setA w).equipment = s.equipment := rfl
@[simp] theorem State.setA_held (s : State) (w : Word) : (s.setA w).held = s.held := rfl
@[simp] theorem State.setA_breakPassed (s : State) (w : Word) : (s.setA w).breakPassed = s.breakPassed := rfl
@[simp] theorem State.setA_freeCount (s : State) (w : Word) : (s.setA w).freeCount = s.freeCount := rfl
@[simp] theorem State.setA_bootWritten (s : State) (w : Word) : (s.setA w).bootWritten = s.bootWritten := rfl
@[simp] theorem State.setA_params (s : State) (w : Word) : (s.setA w).params = s.params := rfl
@[simp] theorem State.setA_moments (s : State) (w : Word) : (s.setA w).moments = s.moments := rfl
@[simp] theorem State.setA_mid (s : State) (w : Word) : (s.setA w).mid = s.mid := rfl

/-! ### setQ -/

@[simp] theorem State.setQ_a (s : State) (w : Word) : (s.setQ w).a = s.a := rfl
@[simp] theorem State.setQ_q (s : State) (w : Word) : (s.setQ w).q = w := rfl
@[simp] theorem State.setQ_b (s : State) (w : Word) : (s.setQ w).b = s.b := rfl
@[simp] theorem State.setQ_p (s : State) (w : Word) : (s.setQ w).p = s.p := rfl
@[simp] theorem State.setQ_u1 (s : State) (w : Word) : (s.setQ w).u1 = s.u1 := rfl
@[simp] theorem State.setQ_half (s : State) (w : Word) : (s.setQ w).half = s.half := rfl
@[simp] theorem State.setQ_mem (s : State) (w : Word) : (s.setQ w).mem = s.mem := rfl
@[simp] theorem State.setQ_cr (s : State) (w : Word) : (s.setQ w).cr = s.cr := rfl
@[simp] theorem State.setQ_active (s : State) (w : Word) : (s.setQ w).active = s.active := rfl
@[simp] theorem State.setQ_faults (s : State) (w : Word) : (s.setQ w).faults = s.faults := rfl
@[simp] theorem State.setQ_selArith (s : State) (w : Word) : (s.setQ w).selArith = s.selArith := rfl
@[simp] theorem State.setQ_selInactive (s : State) (w : Word) : (s.setQ w).selInactive = s.selInactive := rfl
@[simp] theorem State.setQ_extInt (s : State) (w : Word) : (s.setQ w).extInt = s.extInt := rfl
@[simp] theorem State.setQ_imr (s : State) (w : Word) : (s.setQ w).imr = s.imr := rfl
@[simp] theorem State.setQ_lockout (s : State) (w : Word) : (s.setQ w).lockout = s.lockout := rfl
@[simp] theorem State.setQ_intExit (s : State) (w : Word) : (s.setQ w).intExit = s.intExit := rfl
@[simp] theorem State.setQ_monExit (s : State) (w : Word) : (s.setQ w).monExit = s.monExit := rfl
@[simp] theorem State.setQ_lastPos (s : State) (w : Word) : (s.setQ w).lastPos = s.lastPos := rfl
@[simp] theorem State.setQ_clockRunning (s : State) (w : Word) : (s.setQ w).clockRunning = s.clockRunning := rfl
@[simp] theorem State.setQ_run (s : State) (w : Word) : (s.setQ w).run = s.run := rfl
@[simp] theorem State.setQ_jumpKey (s : State) (w : Word) : (s.setQ w).jumpKey = s.jumpKey := rfl
@[simp] theorem State.setQ_stopKey (s : State) (w : Word) : (s.setQ w).stopKey = s.stopKey := rfl
@[simp] theorem State.setQ_breakpoint (s : State) (w : Word) : (s.setQ w).breakpoint = s.breakpoint := rfl
@[simp] theorem State.setQ_modeSwitch (s : State) (w : Word) : (s.setQ w).modeSwitch = s.modeSwitch := rfl
@[simp] theorem State.setQ_singleStep (s : State) (w : Word) : (s.setQ w).singleStep = s.singleStep := rfl
@[simp] theorem State.setQ_console (s : State) (w : Word) : (s.setQ w).console = s.console := rfl
@[simp] theorem State.setQ_equipment (s : State) (w : Word) : (s.setQ w).equipment = s.equipment := rfl
@[simp] theorem State.setQ_held (s : State) (w : Word) : (s.setQ w).held = s.held := rfl
@[simp] theorem State.setQ_breakPassed (s : State) (w : Word) : (s.setQ w).breakPassed = s.breakPassed := rfl
@[simp] theorem State.setQ_freeCount (s : State) (w : Word) : (s.setQ w).freeCount = s.freeCount := rfl
@[simp] theorem State.setQ_bootWritten (s : State) (w : Word) : (s.setQ w).bootWritten = s.bootWritten := rfl
@[simp] theorem State.setQ_params (s : State) (w : Word) : (s.setQ w).params = s.params := rfl
@[simp] theorem State.setQ_moments (s : State) (w : Word) : (s.setQ w).moments = s.moments := rfl
@[simp] theorem State.setQ_mid (s : State) (w : Word) : (s.setQ w).mid = s.mid := rfl

/-! ### setAQ -/

@[simp] theorem State.setAQ_a (s : State) (x : DoubleWord) : (s.setAQ x).a = highHalf x := rfl
@[simp] theorem State.setAQ_q (s : State) (x : DoubleWord) : (s.setAQ x).q = lowHalf x := rfl
@[simp] theorem State.setAQ_b (s : State) (x : DoubleWord) : (s.setAQ x).b = s.b := rfl
@[simp] theorem State.setAQ_p (s : State) (x : DoubleWord) : (s.setAQ x).p = s.p := rfl
@[simp] theorem State.setAQ_u1 (s : State) (x : DoubleWord) : (s.setAQ x).u1 = s.u1 := rfl
@[simp] theorem State.setAQ_half (s : State) (x : DoubleWord) : (s.setAQ x).half = s.half := rfl
@[simp] theorem State.setAQ_mem (s : State) (x : DoubleWord) : (s.setAQ x).mem = s.mem := rfl
@[simp] theorem State.setAQ_cr (s : State) (x : DoubleWord) : (s.setAQ x).cr = s.cr := rfl
@[simp] theorem State.setAQ_active (s : State) (x : DoubleWord) : (s.setAQ x).active = s.active := rfl
@[simp] theorem State.setAQ_faults (s : State) (x : DoubleWord) : (s.setAQ x).faults = s.faults := rfl
@[simp] theorem State.setAQ_selArith (s : State) (x : DoubleWord) : (s.setAQ x).selArith = s.selArith := rfl
@[simp] theorem State.setAQ_selInactive (s : State) (x : DoubleWord) : (s.setAQ x).selInactive = s.selInactive := rfl
@[simp] theorem State.setAQ_extInt (s : State) (x : DoubleWord) : (s.setAQ x).extInt = s.extInt := rfl
@[simp] theorem State.setAQ_imr (s : State) (x : DoubleWord) : (s.setAQ x).imr = s.imr := rfl
@[simp] theorem State.setAQ_lockout (s : State) (x : DoubleWord) : (s.setAQ x).lockout = s.lockout := rfl
@[simp] theorem State.setAQ_intExit (s : State) (x : DoubleWord) : (s.setAQ x).intExit = s.intExit := rfl
@[simp] theorem State.setAQ_monExit (s : State) (x : DoubleWord) : (s.setAQ x).monExit = s.monExit := rfl
@[simp] theorem State.setAQ_lastPos (s : State) (x : DoubleWord) : (s.setAQ x).lastPos = s.lastPos := rfl
@[simp] theorem State.setAQ_clockRunning (s : State) (x : DoubleWord) : (s.setAQ x).clockRunning = s.clockRunning :=
  rfl
@[simp] theorem State.setAQ_run (s : State) (x : DoubleWord) : (s.setAQ x).run = s.run := rfl
@[simp] theorem State.setAQ_jumpKey (s : State) (x : DoubleWord) : (s.setAQ x).jumpKey = s.jumpKey := rfl
@[simp] theorem State.setAQ_stopKey (s : State) (x : DoubleWord) : (s.setAQ x).stopKey = s.stopKey := rfl
@[simp] theorem State.setAQ_breakpoint (s : State) (x : DoubleWord) : (s.setAQ x).breakpoint = s.breakpoint := rfl
@[simp] theorem State.setAQ_modeSwitch (s : State) (x : DoubleWord) : (s.setAQ x).modeSwitch = s.modeSwitch := rfl
@[simp] theorem State.setAQ_singleStep (s : State) (x : DoubleWord) : (s.setAQ x).singleStep = s.singleStep := rfl
@[simp] theorem State.setAQ_console (s : State) (x : DoubleWord) : (s.setAQ x).console = s.console := rfl
@[simp] theorem State.setAQ_equipment (s : State) (x : DoubleWord) : (s.setAQ x).equipment = s.equipment := rfl
@[simp] theorem State.setAQ_held (s : State) (x : DoubleWord) : (s.setAQ x).held = s.held := rfl
@[simp] theorem State.setAQ_breakPassed (s : State) (x : DoubleWord) : (s.setAQ x).breakPassed = s.breakPassed := rfl
@[simp] theorem State.setAQ_freeCount (s : State) (x : DoubleWord) : (s.setAQ x).freeCount = s.freeCount := rfl
@[simp] theorem State.setAQ_bootWritten (s : State) (x : DoubleWord) : (s.setAQ x).bootWritten = s.bootWritten := rfl
@[simp] theorem State.setAQ_params (s : State) (x : DoubleWord) : (s.setAQ x).params = s.params := rfl
@[simp] theorem State.setAQ_moments (s : State) (x : DoubleWord) : (s.setAQ x).moments = s.moments := rfl
@[simp] theorem State.setAQ_mid (s : State) (x : DoubleWord) : (s.setAQ x).mid = s.mid := rfl

/-! ### setQA -/

@[simp] theorem State.setQA_a (s : State) (x : DoubleWord) : (s.setQA x).a = lowHalf x := rfl
@[simp] theorem State.setQA_q (s : State) (x : DoubleWord) : (s.setQA x).q = highHalf x := rfl
@[simp] theorem State.setQA_b (s : State) (x : DoubleWord) : (s.setQA x).b = s.b := rfl
@[simp] theorem State.setQA_p (s : State) (x : DoubleWord) : (s.setQA x).p = s.p := rfl
@[simp] theorem State.setQA_u1 (s : State) (x : DoubleWord) : (s.setQA x).u1 = s.u1 := rfl
@[simp] theorem State.setQA_half (s : State) (x : DoubleWord) : (s.setQA x).half = s.half := rfl
@[simp] theorem State.setQA_mem (s : State) (x : DoubleWord) : (s.setQA x).mem = s.mem := rfl
@[simp] theorem State.setQA_cr (s : State) (x : DoubleWord) : (s.setQA x).cr = s.cr := rfl
@[simp] theorem State.setQA_active (s : State) (x : DoubleWord) : (s.setQA x).active = s.active := rfl
@[simp] theorem State.setQA_faults (s : State) (x : DoubleWord) : (s.setQA x).faults = s.faults := rfl
@[simp] theorem State.setQA_selArith (s : State) (x : DoubleWord) : (s.setQA x).selArith = s.selArith := rfl
@[simp] theorem State.setQA_selInactive (s : State) (x : DoubleWord) : (s.setQA x).selInactive = s.selInactive := rfl
@[simp] theorem State.setQA_extInt (s : State) (x : DoubleWord) : (s.setQA x).extInt = s.extInt := rfl
@[simp] theorem State.setQA_imr (s : State) (x : DoubleWord) : (s.setQA x).imr = s.imr := rfl
@[simp] theorem State.setQA_lockout (s : State) (x : DoubleWord) : (s.setQA x).lockout = s.lockout := rfl
@[simp] theorem State.setQA_intExit (s : State) (x : DoubleWord) : (s.setQA x).intExit = s.intExit := rfl
@[simp] theorem State.setQA_monExit (s : State) (x : DoubleWord) : (s.setQA x).monExit = s.monExit := rfl
@[simp] theorem State.setQA_lastPos (s : State) (x : DoubleWord) : (s.setQA x).lastPos = s.lastPos := rfl
@[simp] theorem State.setQA_clockRunning (s : State) (x : DoubleWord) : (s.setQA x).clockRunning = s.clockRunning :=
  rfl
@[simp] theorem State.setQA_run (s : State) (x : DoubleWord) : (s.setQA x).run = s.run := rfl
@[simp] theorem State.setQA_jumpKey (s : State) (x : DoubleWord) : (s.setQA x).jumpKey = s.jumpKey := rfl
@[simp] theorem State.setQA_stopKey (s : State) (x : DoubleWord) : (s.setQA x).stopKey = s.stopKey := rfl
@[simp] theorem State.setQA_breakpoint (s : State) (x : DoubleWord) : (s.setQA x).breakpoint = s.breakpoint := rfl
@[simp] theorem State.setQA_modeSwitch (s : State) (x : DoubleWord) : (s.setQA x).modeSwitch = s.modeSwitch := rfl
@[simp] theorem State.setQA_singleStep (s : State) (x : DoubleWord) : (s.setQA x).singleStep = s.singleStep := rfl
@[simp] theorem State.setQA_console (s : State) (x : DoubleWord) : (s.setQA x).console = s.console := rfl
@[simp] theorem State.setQA_equipment (s : State) (x : DoubleWord) : (s.setQA x).equipment = s.equipment := rfl
@[simp] theorem State.setQA_held (s : State) (x : DoubleWord) : (s.setQA x).held = s.held := rfl
@[simp] theorem State.setQA_breakPassed (s : State) (x : DoubleWord) : (s.setQA x).breakPassed = s.breakPassed := rfl
@[simp] theorem State.setQA_freeCount (s : State) (x : DoubleWord) : (s.setQA x).freeCount = s.freeCount := rfl
@[simp] theorem State.setQA_bootWritten (s : State) (x : DoubleWord) : (s.setQA x).bootWritten = s.bootWritten := rfl
@[simp] theorem State.setQA_params (s : State) (x : DoubleWord) : (s.setQA x).params = s.params := rfl
@[simp] theorem State.setQA_moments (s : State) (x : DoubleWord) : (s.setQA x).moments = s.moments := rfl
@[simp] theorem State.setQA_mid (s : State) (x : DoubleWord) : (s.setQA x).mid = s.mid := rfl

/-! ### setB -/

@[simp] theorem State.setB_a (s : State) (r : Option IndexReg) (y : Addr) : (s.setB r y).a = s.a := by cases r <;> rfl
@[simp] theorem State.setB_q (s : State) (r : Option IndexReg) (y : Addr) : (s.setB r y).q = s.q := by cases r <;> rfl
@[simp] theorem State.setB_p (s : State) (r : Option IndexReg) (y : Addr) : (s.setB r y).p = s.p := by cases r <;> rfl
@[simp] theorem State.setB_u1 (s : State) (r : Option IndexReg) (y : Addr) : (s.setB r y).u1 = s.u1 :=
  by cases r <;> rfl
@[simp] theorem State.setB_half (s : State) (r : Option IndexReg) (y : Addr) : (s.setB r y).half = s.half :=
  by cases r <;> rfl
@[simp] theorem State.setB_mem (s : State) (r : Option IndexReg) (y : Addr) : (s.setB r y).mem = s.mem :=
  by cases r <;> rfl
@[simp] theorem State.setB_cr (s : State) (r : Option IndexReg) (y : Addr) : (s.setB r y).cr = s.cr :=
  by cases r <;> rfl
@[simp] theorem State.setB_active (s : State) (r : Option IndexReg) (y : Addr) : (s.setB r y).active = s.active :=
  by cases r <;> rfl
@[simp] theorem State.setB_faults (s : State) (r : Option IndexReg) (y : Addr) : (s.setB r y).faults = s.faults :=
  by cases r <;> rfl
@[simp] theorem State.setB_selArith (s : State) (r : Option IndexReg) (y : Addr) : (s.setB r y).selArith = s.selArith :=
  by cases r <;> rfl
@[simp] theorem State.setB_selInactive (s : State) (r : Option IndexReg) (y : Addr) : (s.setB r y).selInactive = s.selInactive :=
  by cases r <;> rfl
@[simp] theorem State.setB_extInt (s : State) (r : Option IndexReg) (y : Addr) : (s.setB r y).extInt = s.extInt :=
  by cases r <;> rfl
@[simp] theorem State.setB_imr (s : State) (r : Option IndexReg) (y : Addr) : (s.setB r y).imr = s.imr :=
  by cases r <;> rfl
@[simp] theorem State.setB_lockout (s : State) (r : Option IndexReg) (y : Addr) : (s.setB r y).lockout = s.lockout :=
  by cases r <;> rfl
@[simp] theorem State.setB_intExit (s : State) (r : Option IndexReg) (y : Addr) : (s.setB r y).intExit = s.intExit :=
  by cases r <;> rfl
@[simp] theorem State.setB_monExit (s : State) (r : Option IndexReg) (y : Addr) : (s.setB r y).monExit = s.monExit :=
  by cases r <;> rfl
@[simp] theorem State.setB_lastPos (s : State) (r : Option IndexReg) (y : Addr) : (s.setB r y).lastPos = s.lastPos :=
  by cases r <;> rfl
@[simp] theorem State.setB_clockRunning (s : State) (r : Option IndexReg) (y : Addr) : (s.setB r y).clockRunning = s.clockRunning :=
  by cases r <;> rfl
@[simp] theorem State.setB_run (s : State) (r : Option IndexReg) (y : Addr) : (s.setB r y).run = s.run :=
  by cases r <;> rfl
@[simp] theorem State.setB_jumpKey (s : State) (r : Option IndexReg) (y : Addr) : (s.setB r y).jumpKey = s.jumpKey :=
  by cases r <;> rfl
@[simp] theorem State.setB_stopKey (s : State) (r : Option IndexReg) (y : Addr) : (s.setB r y).stopKey = s.stopKey :=
  by cases r <;> rfl
@[simp] theorem State.setB_breakpoint (s : State) (r : Option IndexReg) (y : Addr) : (s.setB r y).breakpoint = s.breakpoint :=
  by cases r <;> rfl
@[simp] theorem State.setB_modeSwitch (s : State) (r : Option IndexReg) (y : Addr) : (s.setB r y).modeSwitch = s.modeSwitch :=
  by cases r <;> rfl
@[simp] theorem State.setB_singleStep (s : State) (r : Option IndexReg) (y : Addr) : (s.setB r y).singleStep = s.singleStep :=
  by cases r <;> rfl
@[simp] theorem State.setB_console (s : State) (r : Option IndexReg) (y : Addr) : (s.setB r y).console = s.console :=
  by cases r <;> rfl
@[simp] theorem State.setB_equipment (s : State) (r : Option IndexReg) (y : Addr) : (s.setB r y).equipment = s.equipment :=
  by cases r <;> rfl
@[simp] theorem State.setB_held (s : State) (r : Option IndexReg) (y : Addr) : (s.setB r y).held = s.held :=
  by cases r <;> rfl
@[simp] theorem State.setB_breakPassed (s : State) (r : Option IndexReg) (y : Addr) : (s.setB r y).breakPassed = s.breakPassed :=
  by cases r <;> rfl
@[simp] theorem State.setB_freeCount (s : State) (r : Option IndexReg) (y : Addr) : (s.setB r y).freeCount = s.freeCount :=
  by cases r <;> rfl
@[simp] theorem State.setB_bootWritten (s : State) (r : Option IndexReg) (y : Addr) : (s.setB r y).bootWritten = s.bootWritten :=
  by cases r <;> rfl
@[simp] theorem State.setB_params (s : State) (r : Option IndexReg) (y : Addr) : (s.setB r y).params = s.params :=
  by cases r <;> rfl
@[simp] theorem State.setB_moments (s : State) (r : Option IndexReg) (y : Addr) : (s.setB r y).moments = s.moments :=
  by cases r <;> rfl
@[simp] theorem State.setB_mid (s : State) (r : Option IndexReg) (y : Addr) : (s.setB r y).mid = s.mid :=
  by cases r <;> rfl

/-! ### write -/

@[simp] theorem State.write_a (s : State) (m : Addr) (w : Word) : (s.write m w).a = s.a := rfl
@[simp] theorem State.write_q (s : State) (m : Addr) (w : Word) : (s.write m w).q = s.q := rfl
@[simp] theorem State.write_b (s : State) (m : Addr) (w : Word) : (s.write m w).b = s.b := rfl
@[simp] theorem State.write_p (s : State) (m : Addr) (w : Word) : (s.write m w).p = s.p := rfl
@[simp] theorem State.write_u1 (s : State) (m : Addr) (w : Word) : (s.write m w).u1 = s.u1 := rfl
@[simp] theorem State.write_half (s : State) (m : Addr) (w : Word) : (s.write m w).half = s.half := rfl
@[simp] theorem State.write_mem (s : State) (m : Addr) (w : Word) : (s.write m w).mem = s.mem.write m.toNat w := rfl
@[simp] theorem State.write_cr (s : State) (m : Addr) (w : Word) : (s.write m w).cr = s.cr := rfl
@[simp] theorem State.write_active (s : State) (m : Addr) (w : Word) : (s.write m w).active = s.active := rfl
@[simp] theorem State.write_faults (s : State) (m : Addr) (w : Word) : (s.write m w).faults = s.faults := rfl
@[simp] theorem State.write_selArith (s : State) (m : Addr) (w : Word) : (s.write m w).selArith = s.selArith := rfl
@[simp] theorem State.write_selInactive (s : State) (m : Addr) (w : Word) : (s.write m w).selInactive = s.selInactive :=
  rfl
@[simp] theorem State.write_extInt (s : State) (m : Addr) (w : Word) : (s.write m w).extInt = s.extInt := rfl
@[simp] theorem State.write_imr (s : State) (m : Addr) (w : Word) : (s.write m w).imr = s.imr := rfl
@[simp] theorem State.write_lockout (s : State) (m : Addr) (w : Word) : (s.write m w).lockout = s.lockout := rfl
@[simp] theorem State.write_intExit (s : State) (m : Addr) (w : Word) : (s.write m w).intExit = s.intExit := rfl
@[simp] theorem State.write_monExit (s : State) (m : Addr) (w : Word) : (s.write m w).monExit = s.monExit := rfl
@[simp] theorem State.write_lastPos (s : State) (m : Addr) (w : Word) : (s.write m w).lastPos = s.lastPos := rfl
@[simp] theorem State.write_clockRunning (s : State) (m : Addr) (w : Word) : (s.write m w).clockRunning = s.clockRunning :=
  rfl
@[simp] theorem State.write_run (s : State) (m : Addr) (w : Word) : (s.write m w).run = s.run := rfl
@[simp] theorem State.write_jumpKey (s : State) (m : Addr) (w : Word) : (s.write m w).jumpKey = s.jumpKey := rfl
@[simp] theorem State.write_stopKey (s : State) (m : Addr) (w : Word) : (s.write m w).stopKey = s.stopKey := rfl
@[simp] theorem State.write_breakpoint (s : State) (m : Addr) (w : Word) : (s.write m w).breakpoint = s.breakpoint :=
  rfl
@[simp] theorem State.write_modeSwitch (s : State) (m : Addr) (w : Word) : (s.write m w).modeSwitch = s.modeSwitch :=
  rfl
@[simp] theorem State.write_singleStep (s : State) (m : Addr) (w : Word) : (s.write m w).singleStep = s.singleStep :=
  rfl
@[simp] theorem State.write_console (s : State) (m : Addr) (w : Word) : (s.write m w).console = s.console := rfl
@[simp] theorem State.write_equipment (s : State) (m : Addr) (w : Word) : (s.write m w).equipment = s.equipment := rfl
@[simp] theorem State.write_held (s : State) (m : Addr) (w : Word) : (s.write m w).held = s.held := rfl
@[simp] theorem State.write_breakPassed (s : State) (m : Addr) (w : Word) : (s.write m w).breakPassed = s.breakPassed :=
  rfl
@[simp] theorem State.write_freeCount (s : State) (m : Addr) (w : Word) : (s.write m w).freeCount = s.freeCount := rfl
@[simp] theorem State.write_bootWritten (s : State) (m : Addr) (w : Word) : (s.write m w).bootWritten = s.bootWritten := rfl
@[simp] theorem State.write_params (s : State) (m : Addr) (w : Word) : (s.write m w).params = s.params := rfl
@[simp] theorem State.write_moments (s : State) (m : Addr) (w : Word) : (s.write m w).moments = s.moments := rfl
@[simp] theorem State.write_mid (s : State) (m : Addr) (w : Word) : (s.write m w).mid = s.mid := rfl

/-! ### setDivideFault -/

@[simp] theorem State.setDivideFault_a (s : State) : s.setDivideFault.a = s.a := rfl
@[simp] theorem State.setDivideFault_q (s : State) : s.setDivideFault.q = s.q := rfl
@[simp] theorem State.setDivideFault_b (s : State) : s.setDivideFault.b = s.b := rfl
@[simp] theorem State.setDivideFault_p (s : State) : s.setDivideFault.p = s.p := rfl
@[simp] theorem State.setDivideFault_u1 (s : State) : s.setDivideFault.u1 = s.u1 := rfl
@[simp] theorem State.setDivideFault_half (s : State) : s.setDivideFault.half = s.half := rfl
@[simp] theorem State.setDivideFault_mem (s : State) : s.setDivideFault.mem = s.mem := rfl
@[simp] theorem State.setDivideFault_cr (s : State) : s.setDivideFault.cr = s.cr := rfl
@[simp] theorem State.setDivideFault_active (s : State) : s.setDivideFault.active = s.active := rfl
@[simp] theorem State.setDivideFault_faults (s : State) : s.setDivideFault.faults = { s.faults with divide := true } :=
  rfl
@[simp] theorem State.setDivideFault_selArith (s : State) : s.setDivideFault.selArith = s.selArith := rfl
@[simp] theorem State.setDivideFault_selInactive (s : State) : s.setDivideFault.selInactive = s.selInactive := rfl
@[simp] theorem State.setDivideFault_extInt (s : State) : s.setDivideFault.extInt = s.extInt := rfl
@[simp] theorem State.setDivideFault_imr (s : State) : s.setDivideFault.imr = s.imr := rfl
@[simp] theorem State.setDivideFault_lockout (s : State) : s.setDivideFault.lockout = s.lockout := rfl
@[simp] theorem State.setDivideFault_intExit (s : State) : s.setDivideFault.intExit = s.intExit := rfl
@[simp] theorem State.setDivideFault_monExit (s : State) : s.setDivideFault.monExit = s.monExit := rfl
@[simp] theorem State.setDivideFault_lastPos (s : State) : s.setDivideFault.lastPos = s.lastPos := rfl
@[simp] theorem State.setDivideFault_clockRunning (s : State) : s.setDivideFault.clockRunning = s.clockRunning := rfl
@[simp] theorem State.setDivideFault_run (s : State) : s.setDivideFault.run = s.run := rfl
@[simp] theorem State.setDivideFault_jumpKey (s : State) : s.setDivideFault.jumpKey = s.jumpKey := rfl
@[simp] theorem State.setDivideFault_stopKey (s : State) : s.setDivideFault.stopKey = s.stopKey := rfl
@[simp] theorem State.setDivideFault_breakpoint (s : State) : s.setDivideFault.breakpoint = s.breakpoint := rfl
@[simp] theorem State.setDivideFault_modeSwitch (s : State) : s.setDivideFault.modeSwitch = s.modeSwitch := rfl
@[simp] theorem State.setDivideFault_singleStep (s : State) : s.setDivideFault.singleStep = s.singleStep := rfl
@[simp] theorem State.setDivideFault_console (s : State) : s.setDivideFault.console = s.console := rfl
@[simp] theorem State.setDivideFault_equipment (s : State) : s.setDivideFault.equipment = s.equipment := rfl
@[simp] theorem State.setDivideFault_held (s : State) : s.setDivideFault.held = s.held := rfl
@[simp] theorem State.setDivideFault_breakPassed (s : State) : s.setDivideFault.breakPassed = s.breakPassed := rfl
@[simp] theorem State.setDivideFault_freeCount (s : State) : s.setDivideFault.freeCount = s.freeCount := rfl
@[simp] theorem State.setDivideFault_bootWritten (s : State) : s.setDivideFault.bootWritten = s.bootWritten := rfl
@[simp] theorem State.setDivideFault_params (s : State) : s.setDivideFault.params = s.params := rfl
@[simp] theorem State.setDivideFault_moments (s : State) : s.setDivideFault.moments = s.moments := rfl
@[simp] theorem State.setDivideFault_mid (s : State) : s.setDivideFault.mid = s.mid := rfl

/-! ### setExponentFault -/

@[simp] theorem State.setExponentFault_a (s : State) : s.setExponentFault.a = s.a := rfl
@[simp] theorem State.setExponentFault_q (s : State) : s.setExponentFault.q = s.q := rfl
@[simp] theorem State.setExponentFault_b (s : State) : s.setExponentFault.b = s.b := rfl
@[simp] theorem State.setExponentFault_p (s : State) : s.setExponentFault.p = s.p := rfl
@[simp] theorem State.setExponentFault_u1 (s : State) : s.setExponentFault.u1 = s.u1 := rfl
@[simp] theorem State.setExponentFault_half (s : State) : s.setExponentFault.half = s.half := rfl
@[simp] theorem State.setExponentFault_mem (s : State) : s.setExponentFault.mem = s.mem := rfl
@[simp] theorem State.setExponentFault_cr (s : State) : s.setExponentFault.cr = s.cr := rfl
@[simp] theorem State.setExponentFault_active (s : State) : s.setExponentFault.active = s.active := rfl
@[simp] theorem State.setExponentFault_faults (s : State) : s.setExponentFault.faults = { s.faults with exponent := true } :=
  rfl
@[simp] theorem State.setExponentFault_selArith (s : State) : s.setExponentFault.selArith = s.selArith := rfl
@[simp] theorem State.setExponentFault_selInactive (s : State) : s.setExponentFault.selInactive = s.selInactive := rfl
@[simp] theorem State.setExponentFault_extInt (s : State) : s.setExponentFault.extInt = s.extInt := rfl
@[simp] theorem State.setExponentFault_imr (s : State) : s.setExponentFault.imr = s.imr := rfl
@[simp] theorem State.setExponentFault_lockout (s : State) : s.setExponentFault.lockout = s.lockout := rfl
@[simp] theorem State.setExponentFault_intExit (s : State) : s.setExponentFault.intExit = s.intExit := rfl
@[simp] theorem State.setExponentFault_monExit (s : State) : s.setExponentFault.monExit = s.monExit := rfl
@[simp] theorem State.setExponentFault_lastPos (s : State) : s.setExponentFault.lastPos = s.lastPos := rfl
@[simp] theorem State.setExponentFault_clockRunning (s : State) : s.setExponentFault.clockRunning = s.clockRunning :=
  rfl
@[simp] theorem State.setExponentFault_run (s : State) : s.setExponentFault.run = s.run := rfl
@[simp] theorem State.setExponentFault_jumpKey (s : State) : s.setExponentFault.jumpKey = s.jumpKey := rfl
@[simp] theorem State.setExponentFault_stopKey (s : State) : s.setExponentFault.stopKey = s.stopKey := rfl
@[simp] theorem State.setExponentFault_breakpoint (s : State) : s.setExponentFault.breakpoint = s.breakpoint := rfl
@[simp] theorem State.setExponentFault_modeSwitch (s : State) : s.setExponentFault.modeSwitch = s.modeSwitch := rfl
@[simp] theorem State.setExponentFault_singleStep (s : State) : s.setExponentFault.singleStep = s.singleStep := rfl
@[simp] theorem State.setExponentFault_console (s : State) : s.setExponentFault.console = s.console := rfl
@[simp] theorem State.setExponentFault_equipment (s : State) : s.setExponentFault.equipment = s.equipment := rfl
@[simp] theorem State.setExponentFault_held (s : State) : s.setExponentFault.held = s.held := rfl
@[simp] theorem State.setExponentFault_breakPassed (s : State) : s.setExponentFault.breakPassed = s.breakPassed := rfl
@[simp] theorem State.setExponentFault_freeCount (s : State) : s.setExponentFault.freeCount = s.freeCount := rfl
@[simp] theorem State.setExponentFault_bootWritten (s : State) : s.setExponentFault.bootWritten = s.bootWritten := rfl
@[simp] theorem State.setExponentFault_params (s : State) : s.setExponentFault.params = s.params := rfl
@[simp] theorem State.setExponentFault_moments (s : State) : s.setExponentFault.moments = s.moments := rfl
@[simp] theorem State.setExponentFault_mid (s : State) : s.setExponentFault.mid = s.mid := rfl

/-! ### setShiftFaultIf -/

@[simp] theorem State.setShiftFaultIf_a (s : State) (c : Bool) : (s.setShiftFaultIf c).a = s.a := rfl
@[simp] theorem State.setShiftFaultIf_q (s : State) (c : Bool) : (s.setShiftFaultIf c).q = s.q := rfl
@[simp] theorem State.setShiftFaultIf_b (s : State) (c : Bool) : (s.setShiftFaultIf c).b = s.b := rfl
@[simp] theorem State.setShiftFaultIf_p (s : State) (c : Bool) : (s.setShiftFaultIf c).p = s.p := rfl
@[simp] theorem State.setShiftFaultIf_u1 (s : State) (c : Bool) : (s.setShiftFaultIf c).u1 = s.u1 := rfl
@[simp] theorem State.setShiftFaultIf_half (s : State) (c : Bool) : (s.setShiftFaultIf c).half = s.half := rfl
@[simp] theorem State.setShiftFaultIf_mem (s : State) (c : Bool) : (s.setShiftFaultIf c).mem = s.mem := rfl
@[simp] theorem State.setShiftFaultIf_cr (s : State) (c : Bool) : (s.setShiftFaultIf c).cr = s.cr := rfl
@[simp] theorem State.setShiftFaultIf_active (s : State) (c : Bool) : (s.setShiftFaultIf c).active = s.active := rfl
@[simp] theorem State.setShiftFaultIf_faults (s : State) (c : Bool) : (s.setShiftFaultIf c).faults = { s.faults with shift := s.faults.shift || c } :=
  rfl
@[simp] theorem State.setShiftFaultIf_selArith (s : State) (c : Bool) : (s.setShiftFaultIf c).selArith = s.selArith :=
  rfl
@[simp] theorem State.setShiftFaultIf_selInactive (s : State) (c : Bool) : (s.setShiftFaultIf c).selInactive = s.selInactive :=
  rfl
@[simp] theorem State.setShiftFaultIf_extInt (s : State) (c : Bool) : (s.setShiftFaultIf c).extInt = s.extInt := rfl
@[simp] theorem State.setShiftFaultIf_imr (s : State) (c : Bool) : (s.setShiftFaultIf c).imr = s.imr := rfl
@[simp] theorem State.setShiftFaultIf_lockout (s : State) (c : Bool) : (s.setShiftFaultIf c).lockout = s.lockout :=
  rfl
@[simp] theorem State.setShiftFaultIf_intExit (s : State) (c : Bool) : (s.setShiftFaultIf c).intExit = s.intExit :=
  rfl
@[simp] theorem State.setShiftFaultIf_monExit (s : State) (c : Bool) : (s.setShiftFaultIf c).monExit = s.monExit :=
  rfl
@[simp] theorem State.setShiftFaultIf_lastPos (s : State) (c : Bool) : (s.setShiftFaultIf c).lastPos = s.lastPos :=
  rfl
@[simp] theorem State.setShiftFaultIf_clockRunning (s : State) (c : Bool) : (s.setShiftFaultIf c).clockRunning = s.clockRunning :=
  rfl
@[simp] theorem State.setShiftFaultIf_run (s : State) (c : Bool) : (s.setShiftFaultIf c).run = s.run := rfl
@[simp] theorem State.setShiftFaultIf_jumpKey (s : State) (c : Bool) : (s.setShiftFaultIf c).jumpKey = s.jumpKey :=
  rfl
@[simp] theorem State.setShiftFaultIf_stopKey (s : State) (c : Bool) : (s.setShiftFaultIf c).stopKey = s.stopKey :=
  rfl
@[simp] theorem State.setShiftFaultIf_breakpoint (s : State) (c : Bool) : (s.setShiftFaultIf c).breakpoint = s.breakpoint :=
  rfl
@[simp] theorem State.setShiftFaultIf_modeSwitch (s : State) (c : Bool) : (s.setShiftFaultIf c).modeSwitch = s.modeSwitch :=
  rfl
@[simp] theorem State.setShiftFaultIf_singleStep (s : State) (c : Bool) : (s.setShiftFaultIf c).singleStep = s.singleStep :=
  rfl
@[simp] theorem State.setShiftFaultIf_console (s : State) (c : Bool) : (s.setShiftFaultIf c).console = s.console :=
  rfl
@[simp] theorem State.setShiftFaultIf_equipment (s : State) (c : Bool) : (s.setShiftFaultIf c).equipment = s.equipment :=
  rfl
@[simp] theorem State.setShiftFaultIf_held (s : State) (c : Bool) : (s.setShiftFaultIf c).held = s.held := rfl
@[simp] theorem State.setShiftFaultIf_breakPassed (s : State) (c : Bool) : (s.setShiftFaultIf c).breakPassed = s.breakPassed :=
  rfl
@[simp] theorem State.setShiftFaultIf_freeCount (s : State) (c : Bool) : (s.setShiftFaultIf c).freeCount = s.freeCount :=
  rfl
@[simp] theorem State.setShiftFaultIf_bootWritten (s : State) (c : Bool) : (s.setShiftFaultIf c).bootWritten = s.bootWritten :=
  rfl
@[simp] theorem State.setShiftFaultIf_params (s : State) (c : Bool) : (s.setShiftFaultIf c).params = s.params := rfl
@[simp] theorem State.setShiftFaultIf_moments (s : State) (c : Bool) : (s.setShiftFaultIf c).moments = s.moments :=
  rfl
@[simp] theorem State.setShiftFaultIf_mid (s : State) (c : Bool) : (s.setShiftFaultIf c).mid = s.mid := rfl

/-! ### setOverflowIf -/

@[simp] theorem State.setOverflowIf_a (s : State) (c : Bool) : (s.setOverflowIf c).a = s.a := rfl
@[simp] theorem State.setOverflowIf_q (s : State) (c : Bool) : (s.setOverflowIf c).q = s.q := rfl
@[simp] theorem State.setOverflowIf_b (s : State) (c : Bool) : (s.setOverflowIf c).b = s.b := rfl
@[simp] theorem State.setOverflowIf_p (s : State) (c : Bool) : (s.setOverflowIf c).p = s.p := rfl
@[simp] theorem State.setOverflowIf_u1 (s : State) (c : Bool) : (s.setOverflowIf c).u1 = s.u1 := rfl
@[simp] theorem State.setOverflowIf_half (s : State) (c : Bool) : (s.setOverflowIf c).half = s.half := rfl
@[simp] theorem State.setOverflowIf_mem (s : State) (c : Bool) : (s.setOverflowIf c).mem = s.mem := rfl
@[simp] theorem State.setOverflowIf_cr (s : State) (c : Bool) : (s.setOverflowIf c).cr = s.cr := rfl
@[simp] theorem State.setOverflowIf_active (s : State) (c : Bool) : (s.setOverflowIf c).active = s.active := rfl
@[simp] theorem State.setOverflowIf_faults (s : State) (c : Bool) : (s.setOverflowIf c).faults = { s.faults with overflow := s.faults.overflow || c } :=
  rfl
@[simp] theorem State.setOverflowIf_selArith (s : State) (c : Bool) : (s.setOverflowIf c).selArith = s.selArith := rfl
@[simp] theorem State.setOverflowIf_selInactive (s : State) (c : Bool) : (s.setOverflowIf c).selInactive = s.selInactive :=
  rfl
@[simp] theorem State.setOverflowIf_extInt (s : State) (c : Bool) : (s.setOverflowIf c).extInt = s.extInt := rfl
@[simp] theorem State.setOverflowIf_imr (s : State) (c : Bool) : (s.setOverflowIf c).imr = s.imr := rfl
@[simp] theorem State.setOverflowIf_lockout (s : State) (c : Bool) : (s.setOverflowIf c).lockout = s.lockout := rfl
@[simp] theorem State.setOverflowIf_intExit (s : State) (c : Bool) : (s.setOverflowIf c).intExit = s.intExit := rfl
@[simp] theorem State.setOverflowIf_monExit (s : State) (c : Bool) : (s.setOverflowIf c).monExit = s.monExit := rfl
@[simp] theorem State.setOverflowIf_lastPos (s : State) (c : Bool) : (s.setOverflowIf c).lastPos = s.lastPos := rfl
@[simp] theorem State.setOverflowIf_clockRunning (s : State) (c : Bool) : (s.setOverflowIf c).clockRunning = s.clockRunning :=
  rfl
@[simp] theorem State.setOverflowIf_run (s : State) (c : Bool) : (s.setOverflowIf c).run = s.run := rfl
@[simp] theorem State.setOverflowIf_jumpKey (s : State) (c : Bool) : (s.setOverflowIf c).jumpKey = s.jumpKey := rfl
@[simp] theorem State.setOverflowIf_stopKey (s : State) (c : Bool) : (s.setOverflowIf c).stopKey = s.stopKey := rfl
@[simp] theorem State.setOverflowIf_breakpoint (s : State) (c : Bool) : (s.setOverflowIf c).breakpoint = s.breakpoint :=
  rfl
@[simp] theorem State.setOverflowIf_modeSwitch (s : State) (c : Bool) : (s.setOverflowIf c).modeSwitch = s.modeSwitch :=
  rfl
@[simp] theorem State.setOverflowIf_singleStep (s : State) (c : Bool) : (s.setOverflowIf c).singleStep = s.singleStep :=
  rfl
@[simp] theorem State.setOverflowIf_console (s : State) (c : Bool) : (s.setOverflowIf c).console = s.console := rfl
@[simp] theorem State.setOverflowIf_equipment (s : State) (c : Bool) : (s.setOverflowIf c).equipment = s.equipment :=
  rfl
@[simp] theorem State.setOverflowIf_held (s : State) (c : Bool) : (s.setOverflowIf c).held = s.held := rfl
@[simp] theorem State.setOverflowIf_breakPassed (s : State) (c : Bool) : (s.setOverflowIf c).breakPassed = s.breakPassed :=
  rfl
@[simp] theorem State.setOverflowIf_freeCount (s : State) (c : Bool) : (s.setOverflowIf c).freeCount = s.freeCount :=
  rfl
@[simp] theorem State.setOverflowIf_bootWritten (s : State) (c : Bool) : (s.setOverflowIf c).bootWritten = s.bootWritten :=
  rfl
@[simp] theorem State.setOverflowIf_params (s : State) (c : Bool) : (s.setOverflowIf c).params = s.params := rfl
@[simp] theorem State.setOverflowIf_moments (s : State) (c : Bool) : (s.setOverflowIf c).moments = s.moments := rfl
@[simp] theorem State.setOverflowIf_mid (s : State) (c : Bool) : (s.setOverflowIf c).mid = s.mid := rfl

/-! ### freeAQ -/

@[simp] theorem State.freeAQ_a (s : State) : s.freeAQ.a = Config.freeWord s.freeCount := rfl
@[simp] theorem State.freeAQ_q (s : State) : s.freeAQ.q = Config.freeWord (s.freeCount + 1) := rfl
@[simp] theorem State.freeAQ_b (s : State) : s.freeAQ.b = s.b := rfl
@[simp] theorem State.freeAQ_p (s : State) : s.freeAQ.p = s.p := rfl
@[simp] theorem State.freeAQ_u1 (s : State) : s.freeAQ.u1 = s.u1 := rfl
@[simp] theorem State.freeAQ_half (s : State) : s.freeAQ.half = s.half := rfl
@[simp] theorem State.freeAQ_mem (s : State) : s.freeAQ.mem = s.mem := rfl
@[simp] theorem State.freeAQ_cr (s : State) : s.freeAQ.cr = s.cr := rfl
@[simp] theorem State.freeAQ_active (s : State) : s.freeAQ.active = s.active := rfl
@[simp] theorem State.freeAQ_faults (s : State) : s.freeAQ.faults = s.faults := rfl
@[simp] theorem State.freeAQ_selArith (s : State) : s.freeAQ.selArith = s.selArith := rfl
@[simp] theorem State.freeAQ_selInactive (s : State) : s.freeAQ.selInactive = s.selInactive := rfl
@[simp] theorem State.freeAQ_extInt (s : State) : s.freeAQ.extInt = s.extInt := rfl
@[simp] theorem State.freeAQ_imr (s : State) : s.freeAQ.imr = s.imr := rfl
@[simp] theorem State.freeAQ_lockout (s : State) : s.freeAQ.lockout = s.lockout := rfl
@[simp] theorem State.freeAQ_intExit (s : State) : s.freeAQ.intExit = s.intExit := rfl
@[simp] theorem State.freeAQ_monExit (s : State) : s.freeAQ.monExit = s.monExit := rfl
@[simp] theorem State.freeAQ_lastPos (s : State) : s.freeAQ.lastPos = s.lastPos := rfl
@[simp] theorem State.freeAQ_clockRunning (s : State) : s.freeAQ.clockRunning = s.clockRunning := rfl
@[simp] theorem State.freeAQ_run (s : State) : s.freeAQ.run = s.run := rfl
@[simp] theorem State.freeAQ_jumpKey (s : State) : s.freeAQ.jumpKey = s.jumpKey := rfl
@[simp] theorem State.freeAQ_stopKey (s : State) : s.freeAQ.stopKey = s.stopKey := rfl
@[simp] theorem State.freeAQ_breakpoint (s : State) : s.freeAQ.breakpoint = s.breakpoint := rfl
@[simp] theorem State.freeAQ_modeSwitch (s : State) : s.freeAQ.modeSwitch = s.modeSwitch := rfl
@[simp] theorem State.freeAQ_singleStep (s : State) : s.freeAQ.singleStep = s.singleStep := rfl
@[simp] theorem State.freeAQ_console (s : State) : s.freeAQ.console = s.console := rfl
@[simp] theorem State.freeAQ_equipment (s : State) : s.freeAQ.equipment = s.equipment := rfl
@[simp] theorem State.freeAQ_held (s : State) : s.freeAQ.held = s.held := rfl
@[simp] theorem State.freeAQ_breakPassed (s : State) : s.freeAQ.breakPassed = s.breakPassed := rfl
@[simp] theorem State.freeAQ_freeCount (s : State) : s.freeAQ.freeCount = s.freeCount + 2 := rfl
@[simp] theorem State.freeAQ_bootWritten (s : State) : s.freeAQ.bootWritten = s.bootWritten := rfl
@[simp] theorem State.freeAQ_params (s : State) : s.freeAQ.params = s.params := rfl
@[simp] theorem State.freeAQ_moments (s : State) : s.freeAQ.moments = s.moments := rfl
@[simp] theorem State.freeAQ_mid (s : State) : s.freeAQ.mid = s.mid := rfl

/-! ### exitFull -/

@[simp] theorem State.exitFull_a (s : State) : s.exitFull.a = s.a := rfl
@[simp] theorem State.exitFull_q (s : State) : s.exitFull.q = s.q := rfl
@[simp] theorem State.exitFull_b (s : State) : s.exitFull.b = s.b := rfl
@[simp] theorem State.exitFull_p (s : State) : s.exitFull.p = inc15 s.p := rfl
@[simp] theorem State.exitFull_u1 (s : State) : s.exitFull.u1 = s.u1 := rfl
@[simp] theorem State.exitFull_half (s : State) : s.exitFull.half = .upper := rfl
@[simp] theorem State.exitFull_mem (s : State) : s.exitFull.mem = s.mem := rfl
@[simp] theorem State.exitFull_cr (s : State) : s.exitFull.cr = s.cr := rfl
@[simp] theorem State.exitFull_active (s : State) : s.exitFull.active = s.active := rfl
@[simp] theorem State.exitFull_faults (s : State) : s.exitFull.faults = s.faults := rfl
@[simp] theorem State.exitFull_selArith (s : State) : s.exitFull.selArith = s.selArith := rfl
@[simp] theorem State.exitFull_selInactive (s : State) : s.exitFull.selInactive = s.selInactive := rfl
@[simp] theorem State.exitFull_extInt (s : State) : s.exitFull.extInt = s.extInt := rfl
@[simp] theorem State.exitFull_imr (s : State) : s.exitFull.imr = s.imr := rfl
@[simp] theorem State.exitFull_lockout (s : State) : s.exitFull.lockout = s.lockout := rfl
@[simp] theorem State.exitFull_intExit (s : State) : s.exitFull.intExit = s.intExit := rfl
@[simp] theorem State.exitFull_monExit (s : State) : s.exitFull.monExit = s.monExit := rfl
@[simp] theorem State.exitFull_lastPos (s : State) : s.exitFull.lastPos = s.lastPos := rfl
@[simp] theorem State.exitFull_clockRunning (s : State) : s.exitFull.clockRunning = s.clockRunning := rfl
@[simp] theorem State.exitFull_run (s : State) : s.exitFull.run = s.run := rfl
@[simp] theorem State.exitFull_jumpKey (s : State) : s.exitFull.jumpKey = s.jumpKey := rfl
@[simp] theorem State.exitFull_stopKey (s : State) : s.exitFull.stopKey = s.stopKey := rfl
@[simp] theorem State.exitFull_breakpoint (s : State) : s.exitFull.breakpoint = s.breakpoint := rfl
@[simp] theorem State.exitFull_modeSwitch (s : State) : s.exitFull.modeSwitch = s.modeSwitch := rfl
@[simp] theorem State.exitFull_singleStep (s : State) : s.exitFull.singleStep = s.singleStep := rfl
@[simp] theorem State.exitFull_console (s : State) : s.exitFull.console = s.console := rfl
@[simp] theorem State.exitFull_equipment (s : State) : s.exitFull.equipment = s.equipment := rfl
@[simp] theorem State.exitFull_held (s : State) : s.exitFull.held = s.held := rfl
@[simp] theorem State.exitFull_breakPassed (s : State) : s.exitFull.breakPassed = s.breakPassed := rfl
@[simp] theorem State.exitFull_freeCount (s : State) : s.exitFull.freeCount = s.freeCount := rfl
@[simp] theorem State.exitFull_bootWritten (s : State) : s.exitFull.bootWritten = s.bootWritten := rfl
@[simp] theorem State.exitFull_params (s : State) : s.exitFull.params = s.params := rfl
@[simp] theorem State.exitFull_moments (s : State) : s.exitFull.moments = s.moments := rfl
@[simp] theorem State.exitFull_mid (s : State) : s.exitFull.mid = s.mid := rfl

/-! ### exitHalf -/

@[simp] theorem State.exitHalf_a (s : State) : s.exitHalf.a = s.a := rfl
@[simp] theorem State.exitHalf_q (s : State) : s.exitHalf.q = s.q := rfl
@[simp] theorem State.exitHalf_b (s : State) : s.exitHalf.b = s.b := rfl
@[simp] theorem State.exitHalf_p (s : State) : s.exitHalf.p = s.p := rfl
@[simp] theorem State.exitHalf_u1 (s : State) : s.exitHalf.u1 = s.u1 := rfl
@[simp] theorem State.exitHalf_half (s : State) : s.exitHalf.half = .lower := rfl
@[simp] theorem State.exitHalf_mem (s : State) : s.exitHalf.mem = s.mem := rfl
@[simp] theorem State.exitHalf_cr (s : State) : s.exitHalf.cr = s.cr := rfl
@[simp] theorem State.exitHalf_active (s : State) : s.exitHalf.active = s.active := rfl
@[simp] theorem State.exitHalf_faults (s : State) : s.exitHalf.faults = s.faults := rfl
@[simp] theorem State.exitHalf_selArith (s : State) : s.exitHalf.selArith = s.selArith := rfl
@[simp] theorem State.exitHalf_selInactive (s : State) : s.exitHalf.selInactive = s.selInactive := rfl
@[simp] theorem State.exitHalf_extInt (s : State) : s.exitHalf.extInt = s.extInt := rfl
@[simp] theorem State.exitHalf_imr (s : State) : s.exitHalf.imr = s.imr := rfl
@[simp] theorem State.exitHalf_lockout (s : State) : s.exitHalf.lockout = s.lockout := rfl
@[simp] theorem State.exitHalf_intExit (s : State) : s.exitHalf.intExit = s.intExit := rfl
@[simp] theorem State.exitHalf_monExit (s : State) : s.exitHalf.monExit = s.monExit := rfl
@[simp] theorem State.exitHalf_lastPos (s : State) : s.exitHalf.lastPos = s.lastPos := rfl
@[simp] theorem State.exitHalf_clockRunning (s : State) : s.exitHalf.clockRunning = s.clockRunning := rfl
@[simp] theorem State.exitHalf_run (s : State) : s.exitHalf.run = s.run := rfl
@[simp] theorem State.exitHalf_jumpKey (s : State) : s.exitHalf.jumpKey = s.jumpKey := rfl
@[simp] theorem State.exitHalf_stopKey (s : State) : s.exitHalf.stopKey = s.stopKey := rfl
@[simp] theorem State.exitHalf_breakpoint (s : State) : s.exitHalf.breakpoint = s.breakpoint := rfl
@[simp] theorem State.exitHalf_modeSwitch (s : State) : s.exitHalf.modeSwitch = s.modeSwitch := rfl
@[simp] theorem State.exitHalf_singleStep (s : State) : s.exitHalf.singleStep = s.singleStep := rfl
@[simp] theorem State.exitHalf_console (s : State) : s.exitHalf.console = s.console := rfl
@[simp] theorem State.exitHalf_equipment (s : State) : s.exitHalf.equipment = s.equipment := rfl
@[simp] theorem State.exitHalf_held (s : State) : s.exitHalf.held = s.held := rfl
@[simp] theorem State.exitHalf_breakPassed (s : State) : s.exitHalf.breakPassed = s.breakPassed := rfl
@[simp] theorem State.exitHalf_freeCount (s : State) : s.exitHalf.freeCount = s.freeCount := rfl
@[simp] theorem State.exitHalf_bootWritten (s : State) : s.exitHalf.bootWritten = s.bootWritten := rfl
@[simp] theorem State.exitHalf_params (s : State) : s.exitHalf.params = s.params := rfl
@[simp] theorem State.exitHalf_moments (s : State) : s.exitHalf.moments = s.moments := rfl
@[simp] theorem State.exitHalf_mid (s : State) : s.exitHalf.mid = s.mid := rfl

/-! ### goNext -/

@[simp] theorem State.goNext_a (s : State) : s.goNext.a = s.a := by cases h : s.half <;> simp [State.goNext, h]
@[simp] theorem State.goNext_q (s : State) : s.goNext.q = s.q := by cases h : s.half <;> simp [State.goNext, h]
@[simp] theorem State.goNext_b (s : State) : s.goNext.b = s.b := by cases h : s.half <;> simp [State.goNext, h]
@[simp] theorem State.goNext_u1 (s : State) : s.goNext.u1 = s.u1 := by cases h : s.half <;> simp [State.goNext, h]
@[simp] theorem State.goNext_mem (s : State) : s.goNext.mem = s.mem := by cases h : s.half <;> simp [State.goNext, h]
@[simp] theorem State.goNext_cr (s : State) : s.goNext.cr = s.cr := by cases h : s.half <;> simp [State.goNext, h]
@[simp] theorem State.goNext_active (s : State) : s.goNext.active = s.active :=
  by cases h : s.half <;> simp [State.goNext, h]
@[simp] theorem State.goNext_faults (s : State) : s.goNext.faults = s.faults :=
  by cases h : s.half <;> simp [State.goNext, h]
@[simp] theorem State.goNext_selArith (s : State) : s.goNext.selArith = s.selArith :=
  by cases h : s.half <;> simp [State.goNext, h]
@[simp] theorem State.goNext_selInactive (s : State) : s.goNext.selInactive = s.selInactive :=
  by cases h : s.half <;> simp [State.goNext, h]
@[simp] theorem State.goNext_extInt (s : State) : s.goNext.extInt = s.extInt :=
  by cases h : s.half <;> simp [State.goNext, h]
@[simp] theorem State.goNext_imr (s : State) : s.goNext.imr = s.imr := by cases h : s.half <;> simp [State.goNext, h]
@[simp] theorem State.goNext_lockout (s : State) : s.goNext.lockout = s.lockout :=
  by cases h : s.half <;> simp [State.goNext, h]
@[simp] theorem State.goNext_intExit (s : State) : s.goNext.intExit = s.intExit :=
  by cases h : s.half <;> simp [State.goNext, h]
@[simp] theorem State.goNext_monExit (s : State) : s.goNext.monExit = s.monExit :=
  by cases h : s.half <;> simp [State.goNext, h]
@[simp] theorem State.goNext_lastPos (s : State) : s.goNext.lastPos = s.lastPos :=
  by cases h : s.half <;> simp [State.goNext, h]
@[simp] theorem State.goNext_clockRunning (s : State) : s.goNext.clockRunning = s.clockRunning :=
  by cases h : s.half <;> simp [State.goNext, h]
@[simp] theorem State.goNext_run (s : State) : s.goNext.run = s.run := by cases h : s.half <;> simp [State.goNext, h]
@[simp] theorem State.goNext_jumpKey (s : State) : s.goNext.jumpKey = s.jumpKey :=
  by cases h : s.half <;> simp [State.goNext, h]
@[simp] theorem State.goNext_stopKey (s : State) : s.goNext.stopKey = s.stopKey :=
  by cases h : s.half <;> simp [State.goNext, h]
@[simp] theorem State.goNext_breakpoint (s : State) : s.goNext.breakpoint = s.breakpoint :=
  by cases h : s.half <;> simp [State.goNext, h]
@[simp] theorem State.goNext_modeSwitch (s : State) : s.goNext.modeSwitch = s.modeSwitch :=
  by cases h : s.half <;> simp [State.goNext, h]
@[simp] theorem State.goNext_singleStep (s : State) : s.goNext.singleStep = s.singleStep :=
  by cases h : s.half <;> simp [State.goNext, h]
@[simp] theorem State.goNext_console (s : State) : s.goNext.console = s.console :=
  by cases h : s.half <;> simp [State.goNext, h]
@[simp] theorem State.goNext_equipment (s : State) : s.goNext.equipment = s.equipment :=
  by cases h : s.half <;> simp [State.goNext, h]
@[simp] theorem State.goNext_held (s : State) : s.goNext.held = s.held :=
  by cases h : s.half <;> simp [State.goNext, h]
@[simp] theorem State.goNext_breakPassed (s : State) : s.goNext.breakPassed = s.breakPassed :=
  by cases h : s.half <;> simp [State.goNext, h]
@[simp] theorem State.goNext_freeCount (s : State) : s.goNext.freeCount = s.freeCount :=
  by cases h : s.half <;> simp [State.goNext, h]
@[simp] theorem State.goNext_bootWritten (s : State) : s.goNext.bootWritten = s.bootWritten :=
  by cases h : s.half <;> simp [State.goNext, h]
@[simp] theorem State.goNext_params (s : State) : s.goNext.params = s.params :=
  by cases h : s.half <;> simp [State.goNext, h]
@[simp] theorem State.goNext_moments (s : State) : s.goNext.moments = s.moments :=
  by cases h : s.half <;> simp [State.goNext, h]
@[simp] theorem State.goNext_mid (s : State) : s.goNext.mid = s.mid := by cases h : s.half <;> simp [State.goNext, h]

/-! ### jump -/

@[simp] theorem State.jump_a (s : State) (m : Addr) : (s.jump m).a = s.a := rfl
@[simp] theorem State.jump_q (s : State) (m : Addr) : (s.jump m).q = s.q := rfl
@[simp] theorem State.jump_b (s : State) (m : Addr) : (s.jump m).b = s.b := rfl
@[simp] theorem State.jump_p (s : State) (m : Addr) : (s.jump m).p = m := rfl
@[simp] theorem State.jump_u1 (s : State) (m : Addr) : (s.jump m).u1 = s.u1 := rfl
@[simp] theorem State.jump_half (s : State) (m : Addr) : (s.jump m).half = .upper := rfl
@[simp] theorem State.jump_mem (s : State) (m : Addr) : (s.jump m).mem = s.mem := rfl
@[simp] theorem State.jump_cr (s : State) (m : Addr) : (s.jump m).cr = s.cr := rfl
@[simp] theorem State.jump_active (s : State) (m : Addr) : (s.jump m).active = s.active := rfl
@[simp] theorem State.jump_faults (s : State) (m : Addr) : (s.jump m).faults = s.faults := rfl
@[simp] theorem State.jump_selArith (s : State) (m : Addr) : (s.jump m).selArith = s.selArith := rfl
@[simp] theorem State.jump_selInactive (s : State) (m : Addr) : (s.jump m).selInactive = s.selInactive := rfl
@[simp] theorem State.jump_extInt (s : State) (m : Addr) : (s.jump m).extInt = s.extInt := rfl
@[simp] theorem State.jump_imr (s : State) (m : Addr) : (s.jump m).imr = s.imr := rfl
@[simp] theorem State.jump_lockout (s : State) (m : Addr) : (s.jump m).lockout = s.lockout := rfl
@[simp] theorem State.jump_intExit (s : State) (m : Addr) : (s.jump m).intExit = (s.intExit || (s.lockout && isControlWord m)) :=
  rfl
@[simp] theorem State.jump_monExit (s : State) (m : Addr) : (s.jump m).monExit = s.monExit := rfl
@[simp] theorem State.jump_lastPos (s : State) (m : Addr) : (s.jump m).lastPos = s.lastPos := rfl
@[simp] theorem State.jump_clockRunning (s : State) (m : Addr) : (s.jump m).clockRunning = s.clockRunning := rfl
@[simp] theorem State.jump_run (s : State) (m : Addr) : (s.jump m).run = s.run := rfl
@[simp] theorem State.jump_jumpKey (s : State) (m : Addr) : (s.jump m).jumpKey = s.jumpKey := rfl
@[simp] theorem State.jump_stopKey (s : State) (m : Addr) : (s.jump m).stopKey = s.stopKey := rfl
@[simp] theorem State.jump_breakpoint (s : State) (m : Addr) : (s.jump m).breakpoint = s.breakpoint := rfl
@[simp] theorem State.jump_modeSwitch (s : State) (m : Addr) : (s.jump m).modeSwitch = s.modeSwitch := rfl
@[simp] theorem State.jump_singleStep (s : State) (m : Addr) : (s.jump m).singleStep = s.singleStep := rfl
@[simp] theorem State.jump_console (s : State) (m : Addr) : (s.jump m).console = s.console := rfl
@[simp] theorem State.jump_equipment (s : State) (m : Addr) : (s.jump m).equipment = s.equipment := rfl
@[simp] theorem State.jump_held (s : State) (m : Addr) : (s.jump m).held = s.held := rfl
@[simp] theorem State.jump_breakPassed (s : State) (m : Addr) : (s.jump m).breakPassed = s.breakPassed := rfl
@[simp] theorem State.jump_freeCount (s : State) (m : Addr) : (s.jump m).freeCount = s.freeCount := rfl
@[simp] theorem State.jump_bootWritten (s : State) (m : Addr) : (s.jump m).bootWritten = s.bootWritten := rfl
@[simp] theorem State.jump_params (s : State) (m : Addr) : (s.jump m).params = s.params := rfl
@[simp] theorem State.jump_moments (s : State) (m : Addr) : (s.jump m).moments = s.moments := rfl
@[simp] theorem State.jump_mid (s : State) (m : Addr) : (s.jump m).mid = s.mid := rfl

/-! ### stop -/

@[simp] theorem State.stop_a (s : State) (why : StopReason) : (s.stop why).a = s.a := rfl
@[simp] theorem State.stop_q (s : State) (why : StopReason) : (s.stop why).q = s.q := rfl
@[simp] theorem State.stop_b (s : State) (why : StopReason) : (s.stop why).b = s.b := rfl
@[simp] theorem State.stop_p (s : State) (why : StopReason) : (s.stop why).p = s.p := rfl
@[simp] theorem State.stop_u1 (s : State) (why : StopReason) : (s.stop why).u1 = s.u1 := rfl
@[simp] theorem State.stop_half (s : State) (why : StopReason) : (s.stop why).half = s.half := rfl
@[simp] theorem State.stop_mem (s : State) (why : StopReason) : (s.stop why).mem = s.mem := rfl
@[simp] theorem State.stop_cr (s : State) (why : StopReason) : (s.stop why).cr = s.cr := rfl
@[simp] theorem State.stop_active (s : State) (why : StopReason) : (s.stop why).active = s.active := rfl
@[simp] theorem State.stop_faults (s : State) (why : StopReason) : (s.stop why).faults = s.faults := rfl
@[simp] theorem State.stop_selArith (s : State) (why : StopReason) : (s.stop why).selArith = s.selArith := rfl
@[simp] theorem State.stop_selInactive (s : State) (why : StopReason) : (s.stop why).selInactive = s.selInactive :=
  rfl
@[simp] theorem State.stop_extInt (s : State) (why : StopReason) : (s.stop why).extInt = s.extInt := rfl
@[simp] theorem State.stop_imr (s : State) (why : StopReason) : (s.stop why).imr = s.imr := rfl
@[simp] theorem State.stop_lockout (s : State) (why : StopReason) : (s.stop why).lockout = s.lockout := rfl
@[simp] theorem State.stop_intExit (s : State) (why : StopReason) : (s.stop why).intExit = s.intExit := rfl
@[simp] theorem State.stop_monExit (s : State) (why : StopReason) : (s.stop why).monExit = s.monExit := rfl
@[simp] theorem State.stop_lastPos (s : State) (why : StopReason) : (s.stop why).lastPos = s.lastPos := rfl
@[simp] theorem State.stop_clockRunning (s : State) (why : StopReason) : (s.stop why).clockRunning = s.clockRunning :=
  rfl
@[simp] theorem State.stop_run (s : State) (why : StopReason) : (s.stop why).run = .stopped why := rfl
@[simp] theorem State.stop_jumpKey (s : State) (why : StopReason) : (s.stop why).jumpKey = s.jumpKey := rfl
@[simp] theorem State.stop_stopKey (s : State) (why : StopReason) : (s.stop why).stopKey = s.stopKey := rfl
@[simp] theorem State.stop_breakpoint (s : State) (why : StopReason) : (s.stop why).breakpoint = s.breakpoint := rfl
@[simp] theorem State.stop_modeSwitch (s : State) (why : StopReason) : (s.stop why).modeSwitch = s.modeSwitch := rfl
@[simp] theorem State.stop_singleStep (s : State) (why : StopReason) : (s.stop why).singleStep = s.singleStep := rfl
@[simp] theorem State.stop_console (s : State) (why : StopReason) : (s.stop why).console = s.console := rfl
@[simp] theorem State.stop_equipment (s : State) (why : StopReason) : (s.stop why).equipment = s.equipment := rfl
@[simp] theorem State.stop_held (s : State) (why : StopReason) : (s.stop why).held = s.held := rfl
@[simp] theorem State.stop_breakPassed (s : State) (why : StopReason) : (s.stop why).breakPassed = s.breakPassed :=
  rfl
@[simp] theorem State.stop_freeCount (s : State) (why : StopReason) : (s.stop why).freeCount = s.freeCount := rfl
@[simp] theorem State.stop_bootWritten (s : State) (why : StopReason) : (s.stop why).bootWritten = s.bootWritten := rfl
@[simp] theorem State.stop_params (s : State) (why : StopReason) : (s.stop why).params = s.params := rfl
@[simp] theorem State.stop_moments (s : State) (why : StopReason) : (s.stop why).moments = s.moments := rfl
@[simp] theorem State.stop_mid (s : State) (why : StopReason) : (s.stop why).mid = s.mid := rfl

/-! ### wait -/

@[simp] theorem State.wait_a (s : State) (i : Instr) : (s.wait i).a = s.a := rfl
@[simp] theorem State.wait_q (s : State) (i : Instr) : (s.wait i).q = s.q := rfl
@[simp] theorem State.wait_b (s : State) (i : Instr) : (s.wait i).b = s.b := rfl
@[simp] theorem State.wait_p (s : State) (i : Instr) : (s.wait i).p = s.p := rfl
@[simp] theorem State.wait_u1 (s : State) (i : Instr) : (s.wait i).u1 = s.u1 := rfl
@[simp] theorem State.wait_half (s : State) (i : Instr) : (s.wait i).half = s.half := rfl
@[simp] theorem State.wait_mem (s : State) (i : Instr) : (s.wait i).mem = s.mem := rfl
@[simp] theorem State.wait_cr (s : State) (i : Instr) : (s.wait i).cr = s.cr := rfl
@[simp] theorem State.wait_active (s : State) (i : Instr) : (s.wait i).active = s.active := rfl
@[simp] theorem State.wait_faults (s : State) (i : Instr) : (s.wait i).faults = s.faults := rfl
@[simp] theorem State.wait_selArith (s : State) (i : Instr) : (s.wait i).selArith = s.selArith := rfl
@[simp] theorem State.wait_selInactive (s : State) (i : Instr) : (s.wait i).selInactive = s.selInactive := rfl
@[simp] theorem State.wait_extInt (s : State) (i : Instr) : (s.wait i).extInt = s.extInt := rfl
@[simp] theorem State.wait_imr (s : State) (i : Instr) : (s.wait i).imr = s.imr := rfl
@[simp] theorem State.wait_lockout (s : State) (i : Instr) : (s.wait i).lockout = s.lockout := rfl
@[simp] theorem State.wait_intExit (s : State) (i : Instr) : (s.wait i).intExit = s.intExit := rfl
@[simp] theorem State.wait_monExit (s : State) (i : Instr) : (s.wait i).monExit = s.monExit := rfl
@[simp] theorem State.wait_lastPos (s : State) (i : Instr) : (s.wait i).lastPos = s.lastPos := rfl
@[simp] theorem State.wait_clockRunning (s : State) (i : Instr) : (s.wait i).clockRunning = s.clockRunning := rfl
@[simp] theorem State.wait_run (s : State) (i : Instr) : (s.wait i).run = s.run := rfl
@[simp] theorem State.wait_jumpKey (s : State) (i : Instr) : (s.wait i).jumpKey = s.jumpKey := rfl
@[simp] theorem State.wait_stopKey (s : State) (i : Instr) : (s.wait i).stopKey = s.stopKey := rfl
@[simp] theorem State.wait_breakpoint (s : State) (i : Instr) : (s.wait i).breakpoint = s.breakpoint := rfl
@[simp] theorem State.wait_modeSwitch (s : State) (i : Instr) : (s.wait i).modeSwitch = s.modeSwitch := rfl
@[simp] theorem State.wait_singleStep (s : State) (i : Instr) : (s.wait i).singleStep = s.singleStep := rfl
@[simp] theorem State.wait_console (s : State) (i : Instr) : (s.wait i).console = s.console := rfl
@[simp] theorem State.wait_equipment (s : State) (i : Instr) : (s.wait i).equipment = s.equipment := rfl
@[simp] theorem State.wait_held (s : State) (i : Instr) : (s.wait i).held = some i := rfl
@[simp] theorem State.wait_breakPassed (s : State) (i : Instr) : (s.wait i).breakPassed = s.breakPassed := rfl
@[simp] theorem State.wait_freeCount (s : State) (i : Instr) : (s.wait i).freeCount = s.freeCount := rfl
@[simp] theorem State.wait_bootWritten (s : State) (i : Instr) : (s.wait i).bootWritten = s.bootWritten := rfl
@[simp] theorem State.wait_params (s : State) (i : Instr) : (s.wait i).params = s.params := rfl
@[simp] theorem State.wait_moments (s : State) (i : Instr) : (s.wait i).moments = s.moments := rfl
@[simp] theorem State.wait_mid (s : State) (i : Instr) : (s.wait i).mid = s.mid := rfl

end Sys2Proof.Machine
end

