-- ==== Sys2Proof/Laws/Memory.lean ====
section
/-! SUPPORT. Storage: a read after a write, and the canonical form, which every write keeps (R15, R70). -/

namespace Sys2Proof.Machine

/-! ### What a read finds -/

theorem Memory.read_erase_same (m : Memory) (i : Nat) : (m.erase i).read i = unlistedWord := by
  induction m with
  | nil => rfl
  | cons c rest ih =>
    obtain ⟨k, v⟩ := c
    by_cases h : k = i
    · simpa [Memory.erase, h] using ih
    · simpa [Memory.erase, Memory.read, h] using ih

theorem Memory.read_erase_other (m : Memory) {i j : Nat} (hij : j ≠ i) : (m.erase i).read j = m.read j := by
  induction m with
  | nil => rfl
  | cons c rest ih =>
    obtain ⟨k, v⟩ := c
    by_cases h : k = i
    · have hkj : ¬k = j := fun e => hij (e ▸ h)
      simpa [Memory.erase, Memory.read, h, hkj, Ne.symm hij] using ih
    · by_cases hk : k = j
      · simp [Memory.erase, Memory.read, hk, hij]
      · simpa [Memory.erase, Memory.read, h, hk] using ih

theorem Memory.read_insert_other (m : Memory) {i j : Nat} (w : Word) (hij : j ≠ i) :
    (Memory.insert i w m).read j = m.read j := by
  induction m with
  | nil => simp [Memory.insert, Memory.read, Ne.symm hij]
  | cons c rest ih =>
    obtain ⟨k, v⟩ := c
    by_cases h : i < k
    · simp [Memory.insert, Memory.read, h, Ne.symm hij]
    · by_cases hk : k = j
      · subst hk
        simp [Memory.insert, Memory.read, h]
      · simpa [Memory.insert, Memory.read, h, hk] using ih

/-- In a memory that does not list i, the cell inserted at i is the one a read of i finds. -/
theorem Memory.read_insert_erase_same (m : Memory) (i : Nat) (w : Word) :
    (Memory.insert i w (m.erase i)).read i = w := by
  induction m with
  | nil => simp [Memory.erase, Memory.insert, Memory.read]
  | cons c rest ih =>
    obtain ⟨k, v⟩ := c
    by_cases h : k = i
    · simpa [Memory.erase, h] using ih
    · by_cases hlt : i < k
      · simp [Memory.erase, Memory.insert, Memory.read, h, hlt]
      · simpa [Memory.erase, Memory.insert, Memory.read, h, hlt] using ih

/-- What a read finds after a write (R15). -/
theorem Memory.read_write (m : Memory) (i j : Nat) (w : Word) :
    (m.write i w).read j = if j = i then w else m.read j := by
  unfold Memory.write
  by_cases hij : j = i
  · subst hij
    by_cases hw : w = unlistedWord
    · simp [hw, Memory.read_erase_same]
    · simp [hw, Memory.read_insert_erase_same]
  · by_cases hw : w = unlistedWord
    · simp [hw, hij, Memory.read_erase_other m hij]
    · simp [hw, hij, Memory.read_insert_other _ w hij, Memory.read_erase_other m hij]

theorem State.read_write_same (s : State) (m : Addr) (w : Word) : (s.write m w).read m = w := by
  simp [State.read, Memory.read_write]

theorem State.read_write_other (s : State) {m x : Addr} (w : Word) (h : x ≠ m) :
    (s.write m w).read x = s.read x := by
  have : ¬x.toNat = m.toNat := fun e => h (BitVec.eq_of_toNat_eq e)
  simp [State.read, Memory.read_write, this]

/-- A read looks at storage alone. -/
theorem State.read_congr {s t : State} (h : t.mem = s.mem) (x : Addr) : t.read x = s.read x := by
  simp [State.read, h]

/-! ### The canonical form -/

/-- A bound below every listed address may be lowered. -/
theorem Memory.risingAbove_mono {m : Memory} {a b : Nat} (hab : a ≤ b) (h : m.risingAbove (some b) = true) :
    m.risingAbove (some a) = true := by
  cases m with
  | nil => rfl
  | cons c rest =>
    simp only [Memory.risingAbove, Bool.and_eq_true, decide_eq_true_eq] at h ⊢
    exact ⟨⟨⟨by omega, h.1.1.2⟩, h.1.2⟩, h.2⟩

theorem Memory.risingAbove_none {m : Memory} {a : Nat} (h : m.risingAbove (some a) = true) :
    m.risingAbove none = true := by
  cases m with
  | nil => rfl
  | cons c rest =>
    simp only [Memory.risingAbove, Bool.and_eq_true, decide_eq_true_eq] at h ⊢
    exact ⟨⟨⟨trivial, h.1.1.2⟩, h.1.2⟩, h.2⟩

theorem Memory.risingAbove_erase (m : Memory) (i : Nat) (low : Option Nat) (h : m.risingAbove low = true) :
    (m.erase i).risingAbove low = true := by
  induction m generalizing low with
  | nil => rfl
  | cons c rest ih =>
    obtain ⟨k, v⟩ := c
    have hr : Memory.risingAbove (some k) rest = true := by
      simp only [Memory.risingAbove, Bool.and_eq_true] at h
      exact h.2
    by_cases hk : k = i
    · simp only [Memory.erase, if_pos hk]
      cases low with
      | none => exact ih none (Memory.risingAbove_none hr)
      | some a =>
        have hak : a < k := by
          simp only [Memory.risingAbove, Bool.and_eq_true, decide_eq_true_eq] at h
          exact h.1.1.1
        exact ih (some a) (Memory.risingAbove_mono (Nat.le_of_lt hak) hr)
    · simp only [Memory.erase, if_neg hk]
      simp only [Memory.risingAbove, Bool.and_eq_true] at h ⊢
      exact ⟨h.1, ih (some k) hr⟩

/-- Erasing an address leaves no cell at it, so an insertion there keeps the order strict. -/
theorem Memory.risingAbove_insert_erase (m : Memory) (i : Nat) (w : Word) (low : Option Nat) (hi : i < 2 ^ 15)
    (hw : w ≠ unlistedWord) (hlow : ∀ a, low = some a → a < i) (h : m.risingAbove low = true) :
    (Memory.insert i w (m.erase i)).risingAbove low = true := by
  induction m generalizing low with
  | nil =>
    cases low with
    | none => simpa [Memory.erase, Memory.insert, Memory.risingAbove, hw] using hi
    | some a => simpa [Memory.erase, Memory.insert, Memory.risingAbove, hw, hlow a rfl] using hi
  | cons c rest ih =>
    obtain ⟨k, v⟩ := c
    have hr : Memory.risingAbove (some k) rest = true := by
      simp only [Memory.risingAbove, Bool.and_eq_true] at h
      exact h.2
    by_cases hk : k = i
    · simp only [Memory.erase, if_pos hk]
      refine ih low hlow ?_
      cases low with
      | none => exact Memory.risingAbove_none hr
      | some a => exact Memory.risingAbove_mono (by have := hlow a rfl; omega) hr
    · simp only [Memory.erase, if_neg hk]
      by_cases hlt : i < k
      · simp only [Memory.insert, if_pos hlt]
        simp only [Memory.risingAbove, Bool.and_eq_true, decide_eq_true_eq] at h ⊢
        refine ⟨⟨⟨?_, hi⟩, hw⟩, ⟨⟨⟨hlt, h.1.1.2⟩, h.1.2⟩, Memory.risingAbove_erase rest i (some k) hr⟩⟩
        cases low with
        | none => rfl
        | some a => simpa using hlow a rfl
      · simp only [Memory.insert, if_neg hlt]
        simp only [Memory.risingAbove, Bool.and_eq_true] at h ⊢
        exact ⟨h.1, ih (some k) (fun a e => by injection e with e; omega) hr⟩

/-- Every write keeps the canonical form. -/
theorem Memory.wf_write {m : Memory} {i : Nat} (w : Word) (hi : i < 2 ^ 15) (h : m.wf = true) :
    (m.write i w).wf = true := by
  unfold Memory.write
  by_cases hw : w = unlistedWord
  · simpa [hw, Memory.wf] using Memory.risingAbove_erase m i none h
  · simpa [hw, Memory.wf] using Memory.risingAbove_insert_erase m i w none hi hw (by simp) h

theorem State.write_wf {s : State} (m : Addr) (w : Word) (h : s.mem.wf = true) : (s.write m w).mem.wf = true :=
  Memory.wf_write w m.isLt h

theorem State.storeUpper_wf {s : State} (m x : Addr) (h : s.mem.wf = true) : (s.storeUpper m x).mem.wf = true :=
  State.write_wf m _ h

theorem State.storeLower_wf {s : State} (m x : Addr) (h : s.mem.wf = true) : (s.storeLower m x).mem.wf = true :=
  State.write_wf m _ h

/-- Storage lists nothing after a master clear at power-on, which is the canonical form. -/
theorem State.reset_mem_wf : State.reset.mem.wf = true := rfl

end Sys2Proof.Machine
end

