-- ==== Sys2Proof/Laws/Ops.lean ====
section
/-! SUPPORT. The shared operations of Machine/Ops.lean and of the families, each said once as the state it gives. -/

namespace Sys2Proof.Machine

/-! ### Index registers (R23) -/

@[simp] theorem IndexRegs.get_set_same (b : IndexRegs) (r : IndexReg) (y : Addr) : (b.set r y).get r = y := by
  cases r <;> rfl

theorem IndexRegs.get_set_other (b : IndexRegs) {r r' : IndexReg} (y : Addr) (h : r' ≠ r) :
    (b.set r y).get r' = b.get r' := by
  cases r <;> cases r' <;> first | rfl | exact absurd rfl h

/-- Two sets of index registers that read alike are the same. -/
theorem IndexRegs.ext_get {b c : IndexRegs} (h : ∀ r, b.get r = c.get r) : b = c := by
  obtain ⟨b1, b2, b3, b4, b5, b6⟩ := b
  obtain ⟨c1, c2, c3, c4, c5, c6⟩ := c
  have h1 : b1 = c1 := h .b1
  have h2 : b2 = c2 := h .b2
  have h3 : b3 = c3 := h .b3
  have h4 : b4 = c4 := h .b4
  have h5 : b5 = c5 := h .b5
  have h6 : b6 = c6 := h .b6
  subst h1 h2 h3 h4 h5 h6
  rfl

theorem IndexRegs.set_get (b : IndexRegs) (r : IndexReg) : b.set r (b.get r) = b := by
  cases r <;> rfl

theorem IndexRegs.set_set (b : IndexRegs) (r : IndexReg) (x y : Addr) : (b.set r x).set r y = b.set r y := by
  cases r <;> rfl

@[simp] theorem State.getB_none (s : State) : s.getB none = 0#15 := rfl

@[simp] theorem State.setB_none (s : State) (y : Addr) : s.setB none y = s := rfl

@[simp] theorem State.setB_some_b (s : State) (r : IndexReg) (y : Addr) : (s.setB (some r) y).b = s.b.set r y := rfl

/-! ### Values on channels and lines -/

@[simp] theorem PerChannel.get_set_same {α : Type} (v : PerChannel α) (c : Channel) (x : α) :
    (v.set c x).get c = x := by
  cases c <;> rfl

theorem PerChannel.get_set_other {α : Type} (v : PerChannel α) {c d : Channel} (x : α) (h : d ≠ c) :
    (v.set c x).get d = v.get d := by
  cases c <;> cases d <;> first | rfl | exact absurd rfl h

@[simp] theorem PerChannel.get_all {α : Type} (x : α) (c : Channel) : (PerChannel.all x).get c = x := by
  cases c <;> rfl

@[simp] theorem PerLine.get_all {α : Type} (x : α) (l : Line) : (PerLine.all x).get l = x := by
  cases l with
  | channel c => exact PerChannel.get_all x c
  | out7 => rfl
  | in7 => rfl

/-! ### The endings of an instruction (R109 to R113) -/

/-- `next` leaves control where `advanced` says. -/
theorem State.goNext_eq_advanced (s : State) : s.goNext = s.advanced := by
  cases h : s.half <;>
    simp [State.goNext, State.advanced, State.nextP, State.nextHalf, State.exitHalf, State.exitFull, inc15, h]

theorem State.exitIf_eq_exitOn (s : State) (c : Bool) : s.exitIf c = s.exitOn c := by
  cases c <;> rfl

theorem isControlWord_eq (m : Addr) : isControlWord m = inControlBlock m := by
  simp [isControlWord, inControlBlock]

/-- A normal jump (R112, R383). -/
theorem State.jump_eq (s : State) (m : Addr) :
    s.jump m = { s with p := m, half := .upper, intExit := s.intExit || (s.lockout && inControlBlock m) } := by
  rw [← isControlWord_eq]
  rfl

/-- The word written and loaded by a return jump and by an interrupt entry (R113, R378). -/
theorem State.enterLower_eq (s : State) (m ret : Addr) :
    s.enterLower m ret =
      { s with
        mem := s.mem.write m.toNat (setUpperAddress (s.read m) ret)
        p := m, u1 := setUpperAddress (s.read m) ret, half := .lower } := rfl

theorem State.returnJump_eq (s : State) (m : Addr) : s.returnJump m = s.enterLower m (s.p + 1#15) := rfl

theorem State.interruptEntry_eq (s : State) :
    s.interruptEntry =
      { s.enterLower s.entryAddress s.p with monExit := s.lastPos, lockout := true, intExit := false } := rfl

/-- The release of the lockout changes the lockout and `int_exit` alone, both to 0, or nothing (R383). -/
theorem State.releaseLockout_cases (s t : State) :
    (s.releaseLockout t = { t with lockout := false, intExit := false } ∧
        s.half = .upper ∧ s.intExit = true ∧ t.intExit = true) ∨
      (s.releaseLockout t = t ∧ ¬(s.half = .upper ∧ s.intExit = true ∧ t.intExit = true)) := by
  by_cases h : s.half = .upper ∧ s.intExit = true ∧ t.intExit = true
  · exact .inl ⟨if_pos h, h⟩
  · exact .inr ⟨if_neg h, h⟩

/-! ### Operations of the families -/

/-- The addition of A's adder (R181, R183). -/
theorem State.addToA_eq (s : State) (x y : Word) :
    s.addToA x y =
      { s with a := ocAdd x y, faults := { s.faults with overflow := s.faults.overflow || ocOvf x y } } := rfl

/-- A divide fault sets the indicator and leaves A and Q free (R186, U1). -/
theorem State.divideFault_eq (s : State) :
    s.divideFault =
      { s with
        a := Config.freeWord s.freeCount, q := Config.freeWord (s.freeCount + 1), freeCount := s.freeCount + 2
        faults := { s.faults with divide := true } } := rfl

/-- The ending of a search (R286). -/
theorem State.searchEnd_eq (s : State) (found : Bool) :
    s.searchEnd found = if found then s.exitOn true else s.advanced := by
  cases found
  · rw [← State.goNext_eq_advanced]
    cases h : s.half <;> simp [State.searchEnd, State.goNext, h]
  · rfl

/-- Between two words a search or a transfer is either abandoned for an interrupt or goes on (R376). -/
theorem State.betweenWords_cases (s : State) (goOn : State → State) :
    (s.point.interruptDue = true ∧ s.betweenWords goOn = s.point.interruptEntry) ∨
      (s.point.interruptDue = false ∧ s.betweenWords goOn = goOn s.point) := by
  cases h : s.point.interruptDue
  · exact .inr ⟨rfl, by simp [State.betweenWords, h]⟩
  · exact .inl ⟨rfl, by simp [State.betweenWords, h]⟩

/-- A search with no count left finds nothing (R280). -/
theorem searchWords_zero (found : Word → Bool) (r : IndexReg) (m : Addr) (s : State) :
    searchWords found r m 0 s = s.searchEnd false := rfl

/-- One word of a search (R280): t is the state with the count taken down. -/
theorem searchWords_succ (found : Word → Bool) (r : IndexReg) (m : Addr) (n : Nat) {s t : State}
    (ht : t = s.point.setB (some r) (dec15 (s.point.b.get r))) :
    searchWords found r m (n + 1) s =
      if found (t.read (ocAdd m (t.b.get r))) then t.searchEnd true
      else if n = 0 then t.searchEnd false
      else t.betweenWords (searchWords found r m n) := by
  subst ht
  cases n <;> rfl

/-- One word of an input transfer (R302): it is stored, or the instruction waits for it. -/
theorem inputWords_succ (r : IndexReg) (m : Addr) (n : Nat) (s : State) :
    inputWords r m (n + 1) s =
      match s.point.equipment.ch7In with
      | [] => s.point.wait (.int (.index r) m)
      | w :: rest =>
        let t := (s.point.setB (some r) (dec15 (s.point.b.get r))).inputWord (ocAdd m (dec15 (s.point.b.get r))) w rest
        if n = 0 then t.goNext else t.betweenWords (inputWords r m n) := by
  unfold inputWords
  cases s.point.equipment.ch7In with
  | nil => rfl
  | cons w rest => cases n <;> rfl

/-- One word of an output transfer (R303): it is sent, or the instruction waits until it is accepted. -/
theorem outputWords_succ (r : IndexReg) (m : Addr) (n : Nat) {s t : State}
    (ht : t = (s.point.setB (some r) (dec15 (s.point.b.get r))).outputWord
      (s.point.read (ocAdd m (dec15 (s.point.b.get r))))) :
    outputWords r m (n + 1) s =
      if s.point.equipment.ch7Accept = 0 then s.point.wait (.out (.index r) m)
      else if n = 0 then t.goNext
      else t.betweenWords (outputWords r m n) := by
  subst ht
  cases n <;> rfl

/-- The ending of a floating point operation: the packed result, or the exponent fault with free A and Q (R203). -/
theorem State.fpFinish_cases (s : State) (neg : Bool) (exp : Int) (coef : Nat) (residue : Word) :
    s.fpFinish neg exp coef residue = s.setExponentFault.freeAQ ∨
      ∃ e c, s.fpFinish neg exp coef residue = (s.setA (fpPack ⟨neg, e, c⟩)).setQ residue ∧ -1023 ≤ e ∧ e ≤ 1023 := by
  simp only [State.fpFinish]
  generalize (if coef = 2 ^ 36 then exp + 1 else exp) = e
  by_cases h : 1023 < e ∨ e < -1023
  · exact .inl (if_pos h)
  · exact .inr ⟨e, _, if_neg h, by omega, by omega⟩

/-- `FP_ROUND` leaves an integer as it is, and otherwise answers one of its two neighbours (R203, D7). -/
theorem fpRound_coef (neg : Bool) (num den : Nat) :
    (fpRound neg num den).1 = num / den ∨ (num % den ≠ 0 ∧ (fpRound neg num den).1 = num / den + 1) := by
  unfold fpRound
  dsimp only
  by_cases h : num % den = 0
  · simp [h]
  · simp only [h, if_false]
    split
    · exact .inr ⟨h, rfl⟩
    · exact .inl rfl

end Sys2Proof.Machine
end

