-- ==== Sys2Proof/Laws/Environment.lean ====
section
/-! SUPPORT. The agents other than the program and the turns of the control section, each said once
(R84, R108, R316, R363, R398). -/

namespace Sys2Proof.Machine

/-- With nothing in the script, nothing happens at a point before a storage reference. -/
@[simp] theorem State.point_of_quiet {s : State} (h : s.mid = []) : s.point = s := by
  simp [State.point, h]

/-- At a point the next events of the script happen. -/
theorem State.point_of_events {s : State} {es : List IoEvent} {rest : List (List IoEvent)} (h : s.mid = es :: rest) :
    s.point = es.foldl State.deliverIo { s with mid := rest } := by
  simp [State.point, h]

/-- A jump of either kind (R112, R113): the return jump's reference has a point before it. -/
theorem State.jumpBy_normal (s : State) (m : Addr) : s.jumpBy .normal m = s.jump m := rfl

theorem State.jumpBy_ret (s : State) (m : Addr) : s.jumpBy .ret m = s.point.enterLower m (s.point.p + 1#15) := rfl

/-- What is keyed leaves everything but the reason of an illegal stop (R364). -/
theorem State.rekeyed_cases (s : State) :
    (s.run = .stopped .illegal ∧ s.rekeyed = s.stop .operator) ∨ (s.run ≠ .stopped .illegal ∧ s.rekeyed = s) := by
  unfold State.rekeyed
  cases h : s.run with
  | running => simp
  | stopped why => cases why <;> simp

/-- With nothing in the script, nothing happens before a turn. -/
theorem State.beginTurn_of_quiet {s : State} (h : s.moments = []) : s.beginTurn = { s with mid := [] } := by
  simp [State.beginTurn, h]

/-- A buffer word that is not moved changes nothing (R316). -/
theorem State.bufferStep_of_not_ready {s : State} {c : Channel} (w : Word) (h : s.bufferReady c = false) :
    s.bufferStep c w = s := by
  simp [State.bufferStep, h]

/-- A buffer word on an input channel (R316). -/
theorem State.bufferStep_input {s : State} {c : Channel} (w : Word) (h : s.bufferReady c = true)
    (hc : Channel.isInput c = true) :
    s.bufferStep c w =
      { s with
        mem := s.mem.write (s.cr.get c).u.toNat w
        cr := s.cr.set c ⟨inc15 (s.cr.get c).u, (s.cr.get c).l⟩
        active := s.active.set c (decide (inc15 (s.cr.get c).u ≠ (s.cr.get c).l)) } := by
  simp [State.bufferStep, h, hc, State.write]

/-- A buffer word on an output channel (R316). -/
theorem State.bufferStep_output {s : State} {c : Channel} (w : Word) (h : s.bufferReady c = true)
    (hc : Channel.isInput c = false) :
    s.bufferStep c w =
      { s.sendBuffer c (s.read (s.cr.get c).u) with
        cr := s.cr.set c ⟨inc15 (s.cr.get c).u, (s.cr.get c).l⟩
        active := s.active.set c (decide (inc15 (s.cr.get c).u ≠ (s.cr.get c).l)) } := by
  simp [State.bufferStep, h, hc, State.sendBuffer]

/-- The clock does nothing while it is stopped (R398). -/
theorem State.clockAdvance_of_stopped {s : State} (h : s.clockRunning = false) : s.clockAdvance = s := by
  simp [State.clockAdvance, h]

/-- The Auto Load button writes one word more, or all three are written (R424). -/
theorem State.autoLoadWord_cases (s : State) :
    (bootWords.length ≤ s.bootWritten ∧ s.autoLoadWord = s) ∨
      ∃ m w, bootWords[s.bootWritten]? = some (m, w) ∧
        s.autoLoadWord = { s with mem := s.mem.write m.toNat w, bootWritten := s.bootWritten + 1 } := by
  unfold State.autoLoadWord
  cases h : bootWords[s.bootWritten]? with
  | none => exact .inl ⟨List.getElem?_eq_none_iff.1 h, rfl⟩
  | some x => exact .inr ⟨x.1, x.2, rfl, rfl⟩

/-- Execution at 0o00000 starts when the three words are written, and not before (R424). -/
theorem State.autoLoadStart_of_written {s : State} (h : s.bootWritten = 3) :
    s.autoLoadStart =
      { s with p := 0#15, half := .upper, run := .running, held := none, breakPassed := false, bootWritten := 0 } := by
  simp [State.autoLoadStart, bootWords, h]

theorem State.autoLoadStart_of_not_written {s : State} (h : s.bootWritten ≠ 3) : s.autoLoadStart = s := by
  simp [State.autoLoadStart, bootWords, h]

/-- What the control section does in one turn while it runs (R108): the storage fault refusal, the held instruction,
the interrupt entry, the lower instruction, the breakpoint stop, or the fetch and the upper instruction. -/
theorem programTurn_cases (s : State) :
    (s.faults.anyStorage = true ∧ programTurn s = .refused .storageUnitInoperative) ∨
      (s.held ≠ none ∧ programTurn s = executeCurrent s) ∨
      (s.held = none ∧ (s.atInterruptPoint && s.interruptDue) = true ∧
        programTurn s = .next { s.interruptEntry with mid := [] }) ∨
      (s.held = none ∧ s.half = .lower ∧ programTurn s = executeCurrent s) ∨
      (s.half = .upper ∧ s.breakpointStops = true ∧ programTurn s = .next { s.stop .breakpoint with mid := [] }) ∨
      (s.held = none ∧ s.half = .upper ∧ s.breakpointStops = false ∧ programTurn s = executeCurrent s.fetchStep) := by
  unfold programTurn
  cases hf : s.faults.anyStorage
  · cases hh : s.held with
    | some i => simp
    | none =>
      cases hd : (s.atInterruptPoint && s.interruptDue)
      · cases hp : s.half
        · cases hb : s.breakpointStops <;> simp
        · simp
      · simp
  · simp

/-- Executing the current instruction answers the completed state of its meaning, sweeps, or stops with it. -/
theorem executeCurrent_cases (s : State) :
    (s.modeSwitch = .sweep ∧ executeCurrent s = .next s.sweepOn) ∨
      (∃ t, exec s.currentInstr s.beginInstr = .next t ∧
        executeCurrent s = .next (s.beginInstr.complete s.currentInstr t)) ∨
      (∃ r, exec s.currentInstr s.beginInstr = .fault r ∧ executeCurrent s = .fault r) ∨
      (∃ r, exec s.currentInstr s.beginInstr = .refused r ∧ executeCurrent s = .refused r) := by
  unfold executeCurrent
  by_cases h : s.modeSwitch = .sweep
  · exact .inl ⟨h, by simp [h]⟩
  · simp only [h, if_false]
    cases exec s.currentInstr s.beginInstr with
    | next t => exact .inr (.inl ⟨t, rfl, rfl⟩)
    | fault r => exact .inr (.inr (.inl ⟨r, rfl, rfl⟩))
    | refused r => exact .inr (.inr (.inr ⟨r, rfl, rfl⟩))

/-- What one step can be: the environment alone while the computer is stopped, or a turn of the control section. -/
theorem step_cases (s : State) :
    (∃ why, s.beginTurn.run = .stopped why ∧ step s = .next { s.beginTurn with mid := [] }) ∨
      (s.beginTurn.run = .running ∧ step s = programTurn s.beginTurn) := by
  unfold step turn
  cases h : s.beginTurn.run with
  | running => exact .inr ⟨rfl, rfl⟩
  | stopped why => exact .inl ⟨why, rfl, rfl⟩

end Sys2Proof.Machine
end

