-- ==== Sys2Proof/Laws/Operands.lean ====
section
/-! SUPPORT. The operand forms, said once (R76 to R78, R84): what an instruction with an address or an index designator
can answer, and the shared operations built on the forms. -/

namespace Sys2Proof.Machine

/-! ### Chains of indirect addresses -/

theorem State.indirectWithin_direct (s : State) (n : Nat) (e : Addr) :
    s.indirectWithin n .direct e = some (s, none, e) := by
  cases n <;> rfl

theorem State.indirectWithin_index (s : State) (n : Nat) (r : IndexReg) (e : Addr) :
    s.indirectWithin n (.index r) e = some (s, some r, e) := by
  cases n <;> rfl

/-- Without an indirect designator there is no chain. -/
@[simp] theorem State.indirect_direct (s : State) (e : Addr) : s.indirect .direct e = some (s, none, e) :=
  s.indirectWithin_direct _ e

@[simp] theorem State.indirect_index (s : State) (r : IndexReg) (e : Addr) :
    s.indirect (.index r) e = some (s, some r, e) :=
  s.indirectWithin_index _ r e

/-- One pass more changes nothing once a chain has ended. -/
theorem State.indirectWithin_succ {s : State} {n : Nat} {b : Designator} {e : Addr}
    {x : State × Option IndexReg × Addr} (h : s.indirectWithin n b e = some x) :
    s.indirectWithin (n + 1) b e = some x := by
  induction n generalizing s b e with
  | zero => cases b <;> simp_all [State.indirectWithin]
  | succ n ih =>
    cases b with
    | direct => simpa [State.indirectWithin] using h
    | index r => simpa [State.indirectWithin] using h
    | indirect =>
      rw [State.indirectWithin] at h ⊢
      exact ih h

/-- With nothing in the script the references of a chain leave the state as it is. -/
theorem State.indirectWithin_state_of_quiet {s u : State} {n : Nat} {b : Designator} {e m : Addr}
    {r : Option IndexReg} (hs : s.mid = []) (h : s.indirectWithin n b e = some (u, r, m)) : u = s := by
  induction n generalizing b e with
  | zero => cases b <;> simp_all [State.indirectWithin]
  | succ n ih =>
    cases b with
    | direct => simp_all [State.indirectWithin]
    | index r => simp_all [State.indirectWithin]
    | indirect =>
      have hp : s.point = s := by simp [State.point, hs]
      rw [State.indirectWithin, hp] at h
      exact ih h

/-! ### The forms -/

/-- An address is resolved exactly when its chain ends. -/
theorem State.resolveAll_eq_some {s u : State} {b : Designator} {e m : Addr} :
    s.resolveAll b e = some (u, m) ↔ ∃ r e', s.indirect b e = some (u, r, e') ∧ u.modified r e' = m := by
  unfold State.resolveAll
  rcases s.indirect b e with _ | ⟨v, r, e'⟩
  · simp
  · constructor
    · rintro h
      cases h
      exact ⟨r, e', rfl, rfl⟩
    · rintro ⟨r', e'', h, rfl⟩
      cases h
      rfl

theorem State.resolveAll_eq_none {s : State} {b : Designator} {e : Addr} :
    s.resolveAll b e = none ↔ s.indirect b e = none := by
  unfold State.resolveAll
  rcases s.indirect b e with _ | ⟨v, r, e'⟩ <;> simp

/-- The operand is at the resolved address, in the state after the point before its reference. -/
theorem State.operand_eq_some {s u : State} {b : Designator} {e m : Addr} :
    s.operand b e = some (u, m) ↔ ∃ v, s.resolveAll b e = some (v, m) ∧ v.point = u := by
  unfold State.operand
  rcases s.resolveAll b e with _ | ⟨v, m'⟩
  · simp
  · constructor
    · rintro h
      cases h
      exact ⟨v, rfl, rfl⟩
    · rintro ⟨v', h, rfl⟩
      cases h
      rfl

theorem State.operand_eq_none {s : State} {b : Designator} {e : Addr} :
    s.operand b e = none ↔ s.indirect b e = none := by
  rw [← State.resolveAll_eq_none]
  unfold State.operand
  rcases s.resolveAll b e with _ | ⟨v, m⟩ <;> simp

theorem State.indirectOperand_eq_some {s u : State} {b : Designator} {e m : Addr} {r : Option IndexReg} :
    s.indirectOperand b e = some (u, r, m) ↔ ∃ v, s.indirect b e = some (v, r, m) ∧ v.point = u := by
  unfold State.indirectOperand
  rcases s.indirect b e with _ | ⟨v, r', m'⟩
  · simp
  · constructor
    · rintro h
      cases h
      exact ⟨v, rfl, rfl⟩
    · rintro ⟨v', h, rfl⟩
      cases h
      rfl

theorem State.indirectOperand_eq_none {s : State} {b : Designator} {e : Addr} :
    s.indirectOperand b e = none ↔ s.indirect b e = none := by
  unfold State.indirectOperand
  rcases s.indirect b e with _ | ⟨v, r, m⟩ <;> simp

/-- In an atomic instruction an address is resolved as any address is, with no other agent acting (R188, R431). -/
theorem State.resolveAtomic_eq_some {s : State} {b : Designator} {e k : Addr} :
    s.resolveAtomic b e = some k ↔ ∃ u, State.resolveAll { s with mid := [] } b e = some (u, k) := by
  unfold State.resolveAtomic
  rcases State.resolveAll { s with mid := [] } b e with _ | ⟨v, k'⟩ <;> simp

theorem State.resolveAtomic_eq_none {s : State} {b : Designator} {e : Addr} :
    s.resolveAtomic b e = none ↔ State.indirect { s with mid := [] } b e = none := by
  rw [← State.resolveAll_eq_none]
  unfold State.resolveAtomic
  rcases State.resolveAll { s with mid := [] } b e with _ | ⟨v, k'⟩ <;> simp

theorem State.indirectAtomic_eq_some {s : State} {b : Designator} {e m : Addr} {r : Option IndexReg} :
    s.indirectAtomic b e = some (r, m) ↔ ∃ u, State.indirect { s with mid := [] } b e = some (u, r, m) := by
  unfold State.indirectAtomic
  rcases State.indirect { s with mid := [] } b e with _ | ⟨v, r', m'⟩ <;> simp

theorem State.indirectAtomic_eq_none {s : State} {b : Designator} {e : Addr} :
    s.indirectAtomic b e = none ↔ State.indirect { s with mid := [] } b e = none := by
  unfold State.indirectAtomic
  rcases State.indirect { s with mid := [] } b e with _ | ⟨v, r, m⟩ <;> simp

/-- Without an indirect designator an atomic instruction makes no reference of a chain. -/
@[simp] theorem State.indirectAtomic_direct (s : State) (e : Addr) : s.indirectAtomic .direct e = some (none, e) := by
  simp [State.indirectAtomic]

@[simp] theorem State.indirectAtomic_index (s : State) (r : IndexReg) (e : Addr) :
    s.indirectAtomic (.index r) e = some (some r, e) := by
  simp [State.indirectAtomic]

@[simp] theorem State.resolveAtomic_direct (s : State) (e : Addr) : s.resolveAtomic .direct e = some e := by
  simp [State.resolveAtomic, State.resolveAll, State.modified]

@[simp] theorem State.resolveAtomic_index (s : State) (r : IndexReg) (e : Addr) :
    s.resolveAtomic (.index r) e = some (ocAdd e (s.b.get r)) := by
  simp [State.resolveAtomic, State.resolveAll, State.modified]

/-! ### Instructions of each form -/

/-- An instruction with a resolved address answers the state its meaning gives, and nothing else. -/
theorem withAddress_eq_next {s t : State} {b : Designator} {e : Addr} {run : State → Addr → State} :
    withAddress s b e run = .next t ↔ ∃ u y, s.resolveAll b e = some (u, y) ∧ run u y = t := by
  unfold withAddress
  rcases s.resolveAll b e with _ | ⟨v, y⟩ <;> simp

theorem withAddress_of_resolved {s u : State} {b : Designator} {e y : Addr} (run : State → Addr → State)
    (h : s.resolveAll b e = some (u, y)) : withAddress s b e run = .next (run u y) := by
  simp [withAddress, h]

theorem withAddress_of_endless {s : State} {b : Designator} {e : Addr} (run : State → Addr → State)
    (h : s.indirect b e = none) : withAddress s b e run = .fault .endlessIndirection := by
  simp [withAddress, State.resolveAll_eq_none.2 h]

/-- An instruction with an operand in storage answers the state its meaning gives, and nothing else. -/
theorem withOperand_eq_next {s t : State} {b : Designator} {e : Addr} {run : State → Addr → State} :
    withOperand s b e run = .next t ↔ ∃ u m, s.operand b e = some (u, m) ∧ run u m = t := by
  unfold withOperand
  rcases s.operand b e with _ | ⟨v, m⟩ <;> simp

theorem withOperand_of_resolved {s u : State} {b : Designator} {e m : Addr} (run : State → Addr → State)
    (h : s.operand b e = some (u, m)) : withOperand s b e run = .next (run u m) := by
  simp [withOperand, h]

theorem withOperand_of_endless {s : State} {b : Designator} {e : Addr} (run : State → Addr → State)
    (h : s.indirect b e = none) : withOperand s b e run = .fault .endlessIndirection := by
  simp [withOperand, State.operand_eq_none.2 h]

/-- An instruction with an index register named answers the state its meaning gives, and nothing else. -/
theorem withIndex_eq_next {s t : State} {b : Designator} {e : Addr} {run : State → Option IndexReg → Addr → State} :
    withIndex s b e run = .next t ↔ ∃ u r m, s.indirect b e = some (u, r, m) ∧ run u r m = t := by
  unfold withIndex
  rcases s.indirect b e with _ | ⟨v, r, m⟩ <;> simp

theorem withIndex_of_resolved {s u : State} {b : Designator} {e m : Addr} {r : Option IndexReg}
    (run : State → Option IndexReg → Addr → State) (h : s.indirect b e = some (u, r, m)) :
    withIndex s b e run = .next (run u r m) := by
  simp [withIndex, h]

theorem withIndex_of_endless {s : State} {b : Designator} {e : Addr} (run : State → Option IndexReg → Addr → State)
    (h : s.indirect b e = none) : withIndex s b e run = .fault .endlessIndirection := by
  simp [withIndex, h]

/-- The same for an instruction that refers to the word at that address. -/
theorem withIndirectOperand_eq_next {s t : State} {b : Designator} {e : Addr}
    {run : State → Option IndexReg → Addr → State} :
    withIndirectOperand s b e run = .next t ↔ ∃ u r m, s.indirectOperand b e = some (u, r, m) ∧ run u r m = t := by
  unfold withIndirectOperand
  rcases s.indirectOperand b e with _ | ⟨v, r, m⟩ <;> simp

theorem withIndirectOperand_of_resolved {s u : State} {b : Designator} {e m : Addr} {r : Option IndexReg}
    (run : State → Option IndexReg → Addr → State) (h : s.indirectOperand b e = some (u, r, m)) :
    withIndirectOperand s b e run = .next (run u r m) := by
  simp [withIndirectOperand, h]

theorem withIndirectOperand_of_endless {s : State} {b : Designator} {e : Addr}
    (run : State → Option IndexReg → Addr → State) (h : s.indirect b e = none) :
    withIndirectOperand s b e run = .fault .endlessIndirection := by
  simp [withIndirectOperand, State.indirectOperand_eq_none.2 h]

/-- An atomic instruction answers the state its meaning gives from the state it began in, and nothing else. -/
theorem withAtomic_eq_next {s t : State} {b : Designator} {e : Addr} {run : State → Addr → State} :
    withAtomic s b e run = .next t ↔ ∃ m, s.resolveAtomic b e = some m ∧ run s m = t := by
  unfold withAtomic
  cases s.resolveAtomic b e <;> simp

theorem withAtomic_of_resolved {s : State} {b : Designator} {e m : Addr} (run : State → Addr → State)
    (h : s.resolveAtomic b e = some m) : withAtomic s b e run = .next (run s m) := by
  simp [withAtomic, h]

theorem withAtomic_of_endless {s : State} {b : Designator} {e : Addr} (run : State → Addr → State)
    (h : State.indirect { s with mid := [] } b e = none) : withAtomic s b e run = .fault .endlessIndirection := by
  simp [withAtomic, State.resolveAtomic_eq_none.2 h]

theorem withAtomicIndex_eq_next {s t : State} {b : Designator} {e : Addr}
    {run : State → Option IndexReg → Addr → State} :
    withAtomicIndex s b e run = .next t ↔ ∃ r m, s.indirectAtomic b e = some (r, m) ∧ run s r m = t := by
  unfold withAtomicIndex
  rcases s.indirectAtomic b e with _ | ⟨r, m⟩ <;> simp

theorem withAtomicIndex_of_resolved {s : State} {b : Designator} {e m : Addr} {r : Option IndexReg}
    (run : State → Option IndexReg → Addr → State) (h : s.indirectAtomic b e = some (r, m)) :
    withAtomicIndex s b e run = .next (run s r m) := by
  simp [withAtomicIndex, h]

theorem withAtomicIndex_of_endless {s : State} {b : Designator} {e : Addr}
    (run : State → Option IndexReg → Addr → State) (h : State.indirect { s with mid := [] } b e = none) :
    withAtomicIndex s b e run = .fault .endlessIndirection := by
  simp [withAtomicIndex, State.indirectAtomic_eq_none.2 h]

/-- A shift answers the shifted state with the fault set for a count above 127 (R150). -/
theorem shiftBy_eq_next {s t : State} {b : Designator} {k : Addr} {shift : State → Nat → State} :
    shiftBy b k s shift = .next t ↔
      ∃ m, s.resolveAtomic b k = some m ∧
        (shift (s.setShiftFaultIf (decide (127 < m.toNat))) m.toNat).goNext = t := by
  unfold shiftBy shiftLimit
  exact withAtomic_eq_next

theorem shiftBy_of_resolved {s : State} {b : Designator} {k m : Addr} (shift : State → Nat → State)
    (h : s.resolveAtomic b k = some m) :
    shiftBy b k s shift = .next (shift (s.setShiftFaultIf (decide (127 < m.toNat))) m.toNat).goNext :=
  withAtomic_of_resolved _ h

theorem shiftBy_of_endless {s : State} {b : Designator} {k : Addr} (shift : State → Nat → State)
    (h : State.indirect { s with mid := [] } b k = none) : shiftBy b k s shift = .fault .endlessIndirection :=
  withAtomic_of_endless _ h

/-- A search answers what the words it examines give (R280). -/
theorem search_eq_next {s t : State} {found : Word → Bool} {b : Designator} {m : Addr} :
    search found b m s = .next t ↔
      (∃ u e, s.indirect b m = some (u, none, e) ∧ u.point.searchEnd (found (u.point.read e)) = t) ∨
        ∃ u r e, s.indirect b m = some (u, some r, e) ∧ searchWords found r e (u.b.get r).toNat u = t := by
  unfold search
  rw [withIndex_eq_next]
  constructor
  · rintro ⟨u, r, e, h, rfl⟩
    cases r with
    | none => exact .inl ⟨u, e, h, rfl⟩
    | some r => exact .inr ⟨u, r, e, h, rfl⟩
  · rintro (⟨u, e, h, rfl⟩ | ⟨u, r, e, h, rfl⟩)
    · exact ⟨u, none, e, h, rfl⟩
    · exact ⟨u, some r, e, h, rfl⟩

end Sys2Proof.Machine
end

