-- ==== Sys2Proof/Laws/PerInstr.lean ====
section
/-! SUPPORT. The fields of an encoded instruction (R100, R104): one lemma for every row of the opcode table. -/

namespace Sys2Proof

theorem opcodeField_instrWord (f : BitVec 6) (j : BitVec 3) (e : Addr) : opcodeField (instrWord f j e) = f := by
  unfold opcodeField instrWord
  ext i hi
  simp only [BitVec.getElem_extractLsb', BitVec.getLsbD_append]
  simp [show ¬(18 + i < 15) by omega, show ¬(18 + i - 15 < 3) by omega, show 18 + i - 15 - 3 = i by omega, hi]

theorem designatorField_instrWord (f : BitVec 6) (j : BitVec 3) (e : Addr) :
    designatorField (instrWord f j e) = j := by
  unfold designatorField instrWord
  ext i hi
  simp only [BitVec.getElem_extractLsb', BitVec.getLsbD_append]
  simp [hi]

theorem addressField_instrWord (f : BitVec 6) (j : BitVec 3) (e : Addr) : addressField (instrWord f j e) = e := by
  unfold addressField instrWord
  ext i hi
  simp only [BitVec.getElem_extractLsb', BitVec.getLsbD_append]
  simp [hi]

end Sys2Proof

namespace Sys2Proof.Laws

/-- The operation code that the opcode table gives an instruction (R104). -/
def operationCode : Instr → BitVec 6
  | .zro _ _ => 0o00#6
  | .ars _ _ => 0o01#6
  | .qrs _ _ => 0o02#6
  | .lrs _ _ => 0o03#6
  | .enq _ _ => 0o04#6
  | .als _ _ => 0o05#6
  | .qls _ _ => 0o06#6
  | .lls _ _ => 0o07#6
  | .ena _ _ => 0o10#6
  | .ina _ _ => 0o11#6
  | .lda _ _ => 0o12#6
  | .lac _ _ => 0o13#6
  | .add _ _ => 0o14#6
  | .sub _ _ => 0o15#6
  | .ldq _ _ => 0o16#6
  | .lqc _ _ => 0o17#6
  | .sta _ _ => 0o20#6
  | .stq _ _ => 0o21#6
  | .ajp _ _ _ => 0o22#6
  | .qjp _ _ _ => 0o23#6
  | .mui _ _ => 0o24#6
  | .dvi _ _ => 0o25#6
  | .muf _ _ => 0o26#6
  | .dvf _ _ => 0o27#6
  | .fad _ _ => 0o30#6
  | .fsb _ _ => 0o31#6
  | .fmu _ _ => 0o32#6
  | .fdv _ _ => 0o33#6
  | .sca _ _ => 0o34#6
  | .scq _ _ => 0o35#6
  | .ssk _ _ => 0o36#6
  | .ssh _ _ => 0o37#6
  | .sst _ _ => 0o40#6
  | .scl _ _ => 0o41#6
  | .scm _ _ => 0o42#6
  | .ssu _ _ => 0o43#6
  | .ldl _ _ => 0o44#6
  | .adl _ _ => 0o45#6
  | .sbl _ _ => 0o46#6
  | .stl _ _ => 0o47#6
  | .eni _ _ => 0o50#6
  | .ini _ _ => 0o51#6
  | .liu _ _ => 0o52#6
  | .lil _ _ => 0o53#6
  | .isk _ _ => 0o54#6
  | .ijp _ _ => 0o55#6
  | .siu _ _ => 0o56#6
  | .sil _ _ => 0o57#6
  | .sau _ _ => 0o60#6
  | .sal _ _ => 0o61#6
  | .int _ _ => 0o62#6
  | .out _ _ => 0o63#6
  | .eqs _ _ => 0o64#6
  | .ths _ _ => 0o65#6
  | .meq _ _ => 0o66#6
  | .mth _ _ => 0o67#6
  | .rad _ _ => 0o70#6
  | .rsb _ _ => 0o71#6
  | .rao _ _ => 0o72#6
  | .rso _ _ => 0o73#6
  | .exf _ _ => 0o74#6
  | .slj _ _ _ => 0o75#6
  | .sls _ _ _ => 0o76#6
  | .sev _ _ => 0o77#6

/-- The execution address of an instruction (R100). -/
def executionAddress : Instr → Addr
  | .zro _ e => e
  | .ars _ e => e
  | .qrs _ e => e
  | .lrs _ e => e
  | .enq _ e => e
  | .als _ e => e
  | .qls _ e => e
  | .lls _ e => e
  | .ena _ e => e
  | .ina _ e => e
  | .lda _ e => e
  | .lac _ e => e
  | .add _ e => e
  | .sub _ e => e
  | .ldq _ e => e
  | .lqc _ e => e
  | .sta _ e => e
  | .stq _ e => e
  | .ajp _ _ e => e
  | .qjp _ _ e => e
  | .mui _ e => e
  | .dvi _ e => e
  | .muf _ e => e
  | .dvf _ e => e
  | .fad _ e => e
  | .fsb _ e => e
  | .fmu _ e => e
  | .fdv _ e => e
  | .sca _ e => e
  | .scq _ e => e
  | .ssk _ e => e
  | .ssh _ e => e
  | .sst _ e => e
  | .scl _ e => e
  | .scm _ e => e
  | .ssu _ e => e
  | .ldl _ e => e
  | .adl _ e => e
  | .sbl _ e => e
  | .stl _ e => e
  | .eni _ e => e
  | .ini _ e => e
  | .liu _ e => e
  | .lil _ e => e
  | .isk _ e => e
  | .ijp _ e => e
  | .siu _ e => e
  | .sil _ e => e
  | .sau _ e => e
  | .sal _ e => e
  | .int _ e => e
  | .out _ e => e
  | .eqs _ e => e
  | .ths _ e => e
  | .meq _ e => e
  | .mth _ e => e
  | .rad _ e => e
  | .rsb _ e => e
  | .rao _ e => e
  | .rso _ e => e
  | .exf _ e => e
  | .slj _ _ e => e
  | .sls _ _ e => e
  | .sev _ e => e

/-- The encoding of an instruction holds its operation code in bits 23 to 18 and its execution address in bits 14 to 0. -/
def EncodedFields.Statement (i : Instr) : Prop :=
  opcodeField (encode i) = operationCode i ∧ addressField (encode i) = executionAddress i

theorem EncodedFields.zro (b : Designator) (m : Addr) : EncodedFields.Statement (.zro b m) :=
  ⟨opcodeField_instrWord _ _ _, addressField_instrWord _ _ _⟩

theorem EncodedFields.ars (b : Designator) (k : Addr) : EncodedFields.Statement (.ars b k) :=
  ⟨opcodeField_instrWord _ _ _, addressField_instrWord _ _ _⟩

theorem EncodedFields.qrs (b : Designator) (k : Addr) : EncodedFields.Statement (.qrs b k) :=
  ⟨opcodeField_instrWord _ _ _, addressField_instrWord _ _ _⟩

theorem EncodedFields.lrs (b : Designator) (k : Addr) : EncodedFields.Statement (.lrs b k) :=
  ⟨opcodeField_instrWord _ _ _, addressField_instrWord _ _ _⟩

theorem EncodedFields.enq (b : Designator) (y : Addr) : EncodedFields.Statement (.enq b y) :=
  ⟨opcodeField_instrWord _ _ _, addressField_instrWord _ _ _⟩

theorem EncodedFields.als (b : Designator) (k : Addr) : EncodedFields.Statement (.als b k) :=
  ⟨opcodeField_instrWord _ _ _, addressField_instrWord _ _ _⟩

theorem EncodedFields.qls (b : Designator) (k : Addr) : EncodedFields.Statement (.qls b k) :=
  ⟨opcodeField_instrWord _ _ _, addressField_instrWord _ _ _⟩

theorem EncodedFields.lls (b : Designator) (k : Addr) : EncodedFields.Statement (.lls b k) :=
  ⟨opcodeField_instrWord _ _ _, addressField_instrWord _ _ _⟩

theorem EncodedFields.ena (b : Designator) (y : Addr) : EncodedFields.Statement (.ena b y) :=
  ⟨opcodeField_instrWord _ _ _, addressField_instrWord _ _ _⟩

theorem EncodedFields.ina (b : Designator) (y : Addr) : EncodedFields.Statement (.ina b y) :=
  ⟨opcodeField_instrWord _ _ _, addressField_instrWord _ _ _⟩

theorem EncodedFields.lda (b : Designator) (m : Addr) : EncodedFields.Statement (.lda b m) :=
  ⟨opcodeField_instrWord _ _ _, addressField_instrWord _ _ _⟩

theorem EncodedFields.lac (b : Designator) (m : Addr) : EncodedFields.Statement (.lac b m) :=
  ⟨opcodeField_instrWord _ _ _, addressField_instrWord _ _ _⟩

theorem EncodedFields.add (b : Designator) (m : Addr) : EncodedFields.Statement (.add b m) :=
  ⟨opcodeField_instrWord _ _ _, addressField_instrWord _ _ _⟩

theorem EncodedFields.sub (b : Designator) (m : Addr) : EncodedFields.Statement (.sub b m) :=
  ⟨opcodeField_instrWord _ _ _, addressField_instrWord _ _ _⟩

theorem EncodedFields.ldq (b : Designator) (m : Addr) : EncodedFields.Statement (.ldq b m) :=
  ⟨opcodeField_instrWord _ _ _, addressField_instrWord _ _ _⟩

theorem EncodedFields.lqc (b : Designator) (m : Addr) : EncodedFields.Statement (.lqc b m) :=
  ⟨opcodeField_instrWord _ _ _, addressField_instrWord _ _ _⟩

theorem EncodedFields.sta (b : Designator) (m : Addr) : EncodedFields.Statement (.sta b m) :=
  ⟨opcodeField_instrWord _ _ _, addressField_instrWord _ _ _⟩

theorem EncodedFields.stq (b : Designator) (m : Addr) : EncodedFields.Statement (.stq b m) :=
  ⟨opcodeField_instrWord _ _ _, addressField_instrWord _ _ _⟩

theorem EncodedFields.ajp (j : JumpKind) (c : RegCond) (m : Addr) : EncodedFields.Statement (.ajp j c m) :=
  ⟨opcodeField_instrWord _ _ _, addressField_instrWord _ _ _⟩

theorem EncodedFields.qjp (j : JumpKind) (c : RegCond) (m : Addr) : EncodedFields.Statement (.qjp j c m) :=
  ⟨opcodeField_instrWord _ _ _, addressField_instrWord _ _ _⟩

theorem EncodedFields.mui (b : Designator) (m : Addr) : EncodedFields.Statement (.mui b m) :=
  ⟨opcodeField_instrWord _ _ _, addressField_instrWord _ _ _⟩

theorem EncodedFields.dvi (b : Designator) (m : Addr) : EncodedFields.Statement (.dvi b m) :=
  ⟨opcodeField_instrWord _ _ _, addressField_instrWord _ _ _⟩

theorem EncodedFields.muf (b : Designator) (m : Addr) : EncodedFields.Statement (.muf b m) :=
  ⟨opcodeField_instrWord _ _ _, addressField_instrWord _ _ _⟩

theorem EncodedFields.dvf (b : Designator) (m : Addr) : EncodedFields.Statement (.dvf b m) :=
  ⟨opcodeField_instrWord _ _ _, addressField_instrWord _ _ _⟩

theorem EncodedFields.fad (b : Designator) (m : Addr) : EncodedFields.Statement (.fad b m) :=
  ⟨opcodeField_instrWord _ _ _, addressField_instrWord _ _ _⟩

theorem EncodedFields.fsb (b : Designator) (m : Addr) : EncodedFields.Statement (.fsb b m) :=
  ⟨opcodeField_instrWord _ _ _, addressField_instrWord _ _ _⟩

theorem EncodedFields.fmu (b : Designator) (m : Addr) : EncodedFields.Statement (.fmu b m) :=
  ⟨opcodeField_instrWord _ _ _, addressField_instrWord _ _ _⟩

theorem EncodedFields.fdv (b : Designator) (m : Addr) : EncodedFields.Statement (.fdv b m) :=
  ⟨opcodeField_instrWord _ _ _, addressField_instrWord _ _ _⟩

theorem EncodedFields.sca (b : Designator) (k : Addr) : EncodedFields.Statement (.sca b k) :=
  ⟨opcodeField_instrWord _ _ _, addressField_instrWord _ _ _⟩

theorem EncodedFields.scq (b : Designator) (k : Addr) : EncodedFields.Statement (.scq b k) :=
  ⟨opcodeField_instrWord _ _ _, addressField_instrWord _ _ _⟩

theorem EncodedFields.ssk (b : Designator) (m : Addr) : EncodedFields.Statement (.ssk b m) :=
  ⟨opcodeField_instrWord _ _ _, addressField_instrWord _ _ _⟩

theorem EncodedFields.ssh (b : Designator) (m : Addr) : EncodedFields.Statement (.ssh b m) :=
  ⟨opcodeField_instrWord _ _ _, addressField_instrWord _ _ _⟩

theorem EncodedFields.sst (b : Designator) (m : Addr) : EncodedFields.Statement (.sst b m) :=
  ⟨opcodeField_instrWord _ _ _, addressField_instrWord _ _ _⟩

theorem EncodedFields.scl (b : Designator) (m : Addr) : EncodedFields.Statement (.scl b m) :=
  ⟨opcodeField_instrWord _ _ _, addressField_instrWord _ _ _⟩

theorem EncodedFields.scm (b : Designator) (m : Addr) : EncodedFields.Statement (.scm b m) :=
  ⟨opcodeField_instrWord _ _ _, addressField_instrWord _ _ _⟩

theorem EncodedFields.ssu (b : Designator) (m : Addr) : EncodedFields.Statement (.ssu b m) :=
  ⟨opcodeField_instrWord _ _ _, addressField_instrWord _ _ _⟩

theorem EncodedFields.ldl (b : Designator) (m : Addr) : EncodedFields.Statement (.ldl b m) :=
  ⟨opcodeField_instrWord _ _ _, addressField_instrWord _ _ _⟩

theorem EncodedFields.adl (b : Designator) (m : Addr) : EncodedFields.Statement (.adl b m) :=
  ⟨opcodeField_instrWord _ _ _, addressField_instrWord _ _ _⟩

theorem EncodedFields.sbl (b : Designator) (m : Addr) : EncodedFields.Statement (.sbl b m) :=
  ⟨opcodeField_instrWord _ _ _, addressField_instrWord _ _ _⟩

theorem EncodedFields.stl (b : Designator) (m : Addr) : EncodedFields.Statement (.stl b m) :=
  ⟨opcodeField_instrWord _ _ _, addressField_instrWord _ _ _⟩

theorem EncodedFields.eni (b : Designator) (y : Addr) : EncodedFields.Statement (.eni b y) :=
  ⟨opcodeField_instrWord _ _ _, addressField_instrWord _ _ _⟩

theorem EncodedFields.ini (b : Designator) (y : Addr) : EncodedFields.Statement (.ini b y) :=
  ⟨opcodeField_instrWord _ _ _, addressField_instrWord _ _ _⟩

theorem EncodedFields.liu (b : Designator) (m : Addr) : EncodedFields.Statement (.liu b m) :=
  ⟨opcodeField_instrWord _ _ _, addressField_instrWord _ _ _⟩

theorem EncodedFields.lil (b : Designator) (m : Addr) : EncodedFields.Statement (.lil b m) :=
  ⟨opcodeField_instrWord _ _ _, addressField_instrWord _ _ _⟩

theorem EncodedFields.isk (b : Designator) (y : Addr) : EncodedFields.Statement (.isk b y) :=
  ⟨opcodeField_instrWord _ _ _, addressField_instrWord _ _ _⟩

theorem EncodedFields.ijp (b : Designator) (m : Addr) : EncodedFields.Statement (.ijp b m) :=
  ⟨opcodeField_instrWord _ _ _, addressField_instrWord _ _ _⟩

theorem EncodedFields.siu (b : Designator) (m : Addr) : EncodedFields.Statement (.siu b m) :=
  ⟨opcodeField_instrWord _ _ _, addressField_instrWord _ _ _⟩

theorem EncodedFields.sil (b : Designator) (m : Addr) : EncodedFields.Statement (.sil b m) :=
  ⟨opcodeField_instrWord _ _ _, addressField_instrWord _ _ _⟩

theorem EncodedFields.sau (b : Designator) (m : Addr) : EncodedFields.Statement (.sau b m) :=
  ⟨opcodeField_instrWord _ _ _, addressField_instrWord _ _ _⟩

theorem EncodedFields.sal (b : Designator) (m : Addr) : EncodedFields.Statement (.sal b m) :=
  ⟨opcodeField_instrWord _ _ _, addressField_instrWord _ _ _⟩

theorem EncodedFields.int (b : Designator) (m : Addr) : EncodedFields.Statement (.int b m) :=
  ⟨opcodeField_instrWord _ _ _, addressField_instrWord _ _ _⟩

theorem EncodedFields.out (b : Designator) (m : Addr) : EncodedFields.Statement (.out b m) :=
  ⟨opcodeField_instrWord _ _ _, addressField_instrWord _ _ _⟩

theorem EncodedFields.eqs (b : Designator) (m : Addr) : EncodedFields.Statement (.eqs b m) :=
  ⟨opcodeField_instrWord _ _ _, addressField_instrWord _ _ _⟩

theorem EncodedFields.ths (b : Designator) (m : Addr) : EncodedFields.Statement (.ths b m) :=
  ⟨opcodeField_instrWord _ _ _, addressField_instrWord _ _ _⟩

theorem EncodedFields.meq (b : Designator) (m : Addr) : EncodedFields.Statement (.meq b m) :=
  ⟨opcodeField_instrWord _ _ _, addressField_instrWord _ _ _⟩

theorem EncodedFields.mth (b : Designator) (m : Addr) : EncodedFields.Statement (.mth b m) :=
  ⟨opcodeField_instrWord _ _ _, addressField_instrWord _ _ _⟩

theorem EncodedFields.rad (b : Designator) (m : Addr) : EncodedFields.Statement (.rad b m) :=
  ⟨opcodeField_instrWord _ _ _, addressField_instrWord _ _ _⟩

theorem EncodedFields.rsb (b : Designator) (m : Addr) : EncodedFields.Statement (.rsb b m) :=
  ⟨opcodeField_instrWord _ _ _, addressField_instrWord _ _ _⟩

theorem EncodedFields.rao (b : Designator) (m : Addr) : EncodedFields.Statement (.rao b m) :=
  ⟨opcodeField_instrWord _ _ _, addressField_instrWord _ _ _⟩

theorem EncodedFields.rso (b : Designator) (m : Addr) : EncodedFields.Statement (.rso b m) :=
  ⟨opcodeField_instrWord _ _ _, addressField_instrWord _ _ _⟩

theorem EncodedFields.exf (j : ExfFunction) (y : Addr) : EncodedFields.Statement (.exf j y) :=
  ⟨opcodeField_instrWord _ _ _, addressField_instrWord _ _ _⟩

theorem EncodedFields.slj (j : JumpKind) (c : KeyCond) (m : Addr) : EncodedFields.Statement (.slj j c m) :=
  ⟨opcodeField_instrWord _ _ _, addressField_instrWord _ _ _⟩

theorem EncodedFields.sls (j : JumpKind) (c : KeyCond) (m : Addr) : EncodedFields.Statement (.sls j c m) :=
  ⟨opcodeField_instrWord _ _ _, addressField_instrWord _ _ _⟩

theorem EncodedFields.sev (b : Designator) (m : Addr) : EncodedFields.Statement (.sev b m) :=
  ⟨opcodeField_instrWord _ _ _, addressField_instrWord _ _ _⟩

end Sys2Proof.Laws
end

