-- ==== Sys2Proof/Tests/Slice0.lean ====
section
/-! SUPPORT. Small checks: which instructions are well formed; the decoding of a word of every row, written out from the
encoding tables (R100 to R104, R309); one step of every instruction on the vectors of spec/95_test_vectors.md (named in
the comments); and, for every statement with hypotheses, states and operands that meet them. -/

namespace Sys2Proof.Tests
open Sys2Proof.Machine

/-! ### Well-formed instructions -/

/-- R321: select 00300 is in no list. -/
theorem test_unlisted_select_refused : (Instr.exf .select 0o300#15).wellFormed = false := by decide

/-- R321, vector X16: sense 00150 is in no list. -/
theorem test_unlisted_sense_refused : (Instr.exf .sense 0o150#15).wellFormed = false := by decide

/-- R310: no external function code has channel field 7. -/
theorem test_channel_seven_select_refused : (Instr.exf .select 0o70000#15).wellFormed = false := by decide

/-- R310: no external function code has channel field 7. -/
theorem test_channel_seven_sense_refused : (Instr.exf .sense 0o71100#15).wellFormed = false := by decide

/-- R318, R319, R107: listed codes, and any designator and address of another instruction. -/
theorem test_listed_accepted :
    (Instr.exf .select 0o70#15).wellFormed ∧ (Instr.exf .sense 0o131#15).wellFormed ∧
      (Instr.exf .select 0o32005#15).wellFormed ∧ (Instr.exf (.activate .c3) 0o2#15).wellFormed ∧
      (Instr.liu .direct 0o77777#15).wellFormed := by decide

/-! ### Decoding: the octal digits of a word are the operation code, the designator and the address (R100) -/

/-- There is one length of instruction (R100). -/
theorem test_longer_word_refused : decodeBits 25 0 = .error (.notTwentyFourBits 25) := by decide

theorem test_decode_illegal :
    decode 0o00000001#24 = .zro .direct 0o1#15 ∧
    decode 0o77100310#24 = .sev (.index .b1) 0o310#15 := by decide

theorem test_decode_shifts :
    decode 0o01267001#24 = .ars (.index .b2) 0o67001#15 ∧
    decode 0o02352525#24 = .qrs (.index .b3) 0o52525#15 ∧
    decode 0o03440000#24 = .lrs (.index .b4) 0o40000#15 ∧
    decode 0o05500000#24 = .als (.index .b5) 0o0#15 ∧
    decode 0o06677777#24 = .qls (.index .b6) 0o77777#15 ∧
    decode 0o07712345#24 = .lls .indirect 0o12345#15 := by decide

theorem test_decode_no_address :
    decode 0o04000001#24 = .enq .direct 0o1#15 ∧
    decode 0o10100310#24 = .ena (.index .b1) 0o310#15 ∧
    decode 0o11267001#24 = .ina (.index .b2) 0o67001#15 ∧
    decode 0o50352525#24 = .eni (.index .b3) 0o52525#15 ∧
    decode 0o51440000#24 = .ini (.index .b4) 0o40000#15 := by decide

theorem test_decode_transmission :
    decode 0o12500000#24 = .lda (.index .b5) 0o0#15 ∧
    decode 0o13677777#24 = .lac (.index .b6) 0o77777#15 ∧
    decode 0o16712345#24 = .ldq .indirect 0o12345#15 ∧
    decode 0o17000001#24 = .lqc .direct 0o1#15 ∧
    decode 0o20100310#24 = .sta (.index .b1) 0o310#15 ∧
    decode 0o21267001#24 = .stq (.index .b2) 0o67001#15 ∧
    decode 0o52352525#24 = .liu (.index .b3) 0o52525#15 ∧
    decode 0o53440000#24 = .lil (.index .b4) 0o40000#15 ∧
    decode 0o56500000#24 = .siu (.index .b5) 0o0#15 ∧
    decode 0o57677777#24 = .sil (.index .b6) 0o77777#15 := by decide

theorem test_decode_fixed_point :
    decode 0o14712345#24 = .add .indirect 0o12345#15 ∧
    decode 0o15000001#24 = .sub .direct 0o1#15 ∧
    decode 0o24100310#24 = .mui (.index .b1) 0o310#15 ∧
    decode 0o25267001#24 = .dvi (.index .b2) 0o67001#15 ∧
    decode 0o26352525#24 = .muf (.index .b3) 0o52525#15 ∧
    decode 0o27440000#24 = .dvf (.index .b4) 0o40000#15 := by decide

theorem test_decode_floating_scale :
    decode 0o30500000#24 = .fad (.index .b5) 0o0#15 ∧
    decode 0o31677777#24 = .fsb (.index .b6) 0o77777#15 ∧
    decode 0o32712345#24 = .fmu .indirect 0o12345#15 ∧
    decode 0o33000001#24 = .fdv .direct 0o1#15 ∧
    decode 0o34100310#24 = .sca (.index .b1) 0o310#15 ∧
    decode 0o35267001#24 = .scq (.index .b2) 0o67001#15 := by decide

theorem test_decode_jumps :
    decode 0o22252525#24 = .ajp .normal .plus 0o52525#15 ∧
    decode 0o22540000#24 = .ajp .ret .nonzero 0o40000#15 ∧
    decode 0o23300000#24 = .qjp .normal .minus 0o0#15 ∧
    decode 0o23477777#24 = .qjp .ret .zero 0o77777#15 ∧
    decode 0o75012345#24 = .slj .normal .always 0o12345#15 ∧
    decode 0o75600001#24 = .slj .ret .key2 0o1#15 ∧
    decode 0o76100310#24 = .sls .normal .key1 0o310#15 ∧
    decode 0o76767001#24 = .sls .ret .key3 0o67001#15 := by decide

theorem test_decode_storage_test_logical :
    decode 0o36352525#24 = .ssk (.index .b3) 0o52525#15 ∧
    decode 0o37440000#24 = .ssh (.index .b4) 0o40000#15 ∧
    decode 0o40500000#24 = .sst (.index .b5) 0o0#15 ∧
    decode 0o41677777#24 = .scl (.index .b6) 0o77777#15 ∧
    decode 0o42712345#24 = .scm .indirect 0o12345#15 ∧
    decode 0o43000001#24 = .ssu .direct 0o1#15 ∧
    decode 0o44100310#24 = .ldl (.index .b1) 0o310#15 ∧
    decode 0o45267001#24 = .adl (.index .b2) 0o67001#15 ∧
    decode 0o46352525#24 = .sbl (.index .b3) 0o52525#15 ∧
    decode 0o47440000#24 = .stl (.index .b4) 0o40000#15 := by decide

theorem test_decode_address_modification :
    decode 0o54500000#24 = .isk (.index .b5) 0o0#15 ∧
    decode 0o55677777#24 = .ijp (.index .b6) 0o77777#15 ∧
    decode 0o60712345#24 = .sau .indirect 0o12345#15 ∧
    decode 0o61000001#24 = .sal .direct 0o1#15 := by decide

theorem test_decode_search_replace :
    decode 0o64100310#24 = .eqs (.index .b1) 0o310#15 ∧
    decode 0o65267001#24 = .ths (.index .b2) 0o67001#15 ∧
    decode 0o66352525#24 = .meq (.index .b3) 0o52525#15 ∧
    decode 0o67440000#24 = .mth (.index .b4) 0o40000#15 ∧
    decode 0o70500000#24 = .rad (.index .b5) 0o0#15 ∧
    decode 0o71677777#24 = .rsb (.index .b6) 0o77777#15 ∧
    decode 0o72712345#24 = .rao .indirect 0o12345#15 ∧
    decode 0o73000001#24 = .rso .direct 0o1#15 := by decide

theorem test_decode_transfer_external :
    decode 0o62100310#24 = .int (.index .b1) 0o310#15 ∧
    decode 0o63267001#24 = .out (.index .b2) 0o67001#15 ∧
    decode 0o74052525#24 = .exf .select 0o52525#15 ∧
    decode 0o74140000#24 = .exf (.activate .c1) 0o40000#15 ∧
    decode 0o74300000#24 = .exf (.activate .c3) 0o0#15 ∧
    decode 0o74677777#24 = .exf (.activate .c6) 0o77777#15 ∧
    decode 0o74712345#24 = .exf .sense 0o12345#15 := by decide

/-! ### One step of every instruction -/

/-- The machine running at the upper instruction of 00100, the rest as after reset (the vectors' conventions). -/
def base : State := { State.reset with run := .running, p := 0o100#15 }

/-- The same with an instruction in the upper half of word 00100 and a pass in the lower half. -/
def upper (i : InstrBits) (s : State) : State := s.write 0o100#15 (i ++ 0o50000000#24)

/-- The same with an instruction as the current lower one. -/
def lower (i : InstrBits) (s : State) : State := { s with half := .lower, u1 := 0o50000000#24 ++ i }

/-- Registers and one word of storage. -/
def with300 (a q x : Word) : State := State.write { base with a := a, q := q } 0o300#15 x

/-- The machine with B1 holding y. -/
def withB1 (y : Addr) (s : State) : State := s.setB (some .b1) y

/-- Does it answer a next state of which p holds? -/
def after (r : Result) (p : State → Bool) : Bool :=
  match r with
  | .next t => p t
  | .fault _ => false
  | .refused _ => false

/-- Is control at m, at the given position? -/
def at_ (m : Addr) (h : Half) (t : State) : Bool := t.p == m && t.half == h

set_option maxRecDepth 20000

/-- R106: the stop leaves P at the instruction. -/
theorem test_zro : after (step (upper 0o00000000#24 base))
    fun t => t.run == .stopped .illegal && at_ 0o100#15 .upper t := by decide

theorem test_sev : after (step (lower 0o77712345#24 base))
    fun t => t.run == .stopped .illegal && at_ 0o100#15 .lower t := by decide

/-- T2, T15. -/
theorem test_lda : after (step (upper 0o12100210#24 (withB1 0o101#15 (base.write 0o311#15 0o7777777777777777#48))))
    fun t => t.a == 0o7777777777777777#48 && at_ 0o100#15 .lower t := by decide

theorem test_lda_indirect :
    after (step (upper 0o12700500#24 (State.setB ((base.write 0o500#15 0o3000030032600200#48).write
      0o201#15 0o42#48) (some .b6) 1#15))) fun t => t.a == 0o42#48 && t.b.b6 == 1#15 := by decide

/-- T3, T4. -/
theorem test_lac : after (step (upper 0o13000300#24 (with300 0#48 0#48 0o1234567076543210#48)))
    fun t => t.a == 0o6543210701234567#48 := by decide

theorem test_ldq : after (step (upper 0o16000300#24 (with300 0#48 0#48 0o1234567076543210#48)))
    fun t => t.q == 0o1234567076543210#48 && t.a == 0#48 := by decide

theorem test_lqc : after (step (upper 0o17000300#24 (with300 0#48 0#48 0o1234567076543210#48)))
    fun t => t.q == 0o6543210701234567#48 := by decide

/-- T7. -/
theorem test_sta : after (step (upper 0o20000400#24 { base with a := 0o7070707070707070#48 }))
    fun t => t.read 0o400#15 == 0o7070707070707070#48 && t.a == 0o7070707070707070#48 := by decide

/-- T8: a negative index. -/
theorem test_stq : after (step (upper 0o21200400#24 (State.setB { base with q := 5#48 } (some .b2) 0o77776#15)))
    fun t => t.read 0o377#15 == 5#48 && t.read 0o400#15 == 0#48 := by decide

/-- T9 to T14. -/
theorem test_liu : after (step (upper 0o52300300#24 (with300 0#48 0#48 0o1234567076543210#48)))
    fun t => t.b.b3 == 0o45670#15 := by decide

theorem test_lil : after (step (upper 0o53300300#24 (with300 0#48 0#48 0o1234567076543210#48)))
    fun t => t.b.b3 == 0o43210#15 := by decide

theorem test_siu :
    after (step (upper 0o56400300#24 (State.setB (with300 0#48 0#48 0o1234567076543210#48) (some .b4) 0o54321#15)))
    fun t => t.read 0o300#15 == 0o1235432176543210#48 := by decide

theorem test_siu_no_register : after (step (upper 0o56000300#24 (with300 0#48 0#48 0o1234567076543210#48)))
    fun t => t.read 0o300#15 == 0o1230000076543210#48 := by decide

theorem test_sil :
    after (step (upper 0o57400300#24 (State.setB (with300 0#48 0#48 0o1234567076543210#48) (some .b4) 0o54321#15)))
    fun t => t.read 0o300#15 == 0o1234567076554321#48 := by decide

/-- H1, H20. -/
theorem test_ars : after (step (upper 0o01000001#24 { base with a := 0o4000000000000001#48 }))
    fun t => t.a == 0o6000000000000000#48 && !t.faults.shift := by decide

theorem test_ars_fault : after (step (upper 0o01077776#24 { base with a := 0o4000000000000001#48 }))
    fun t => t.a == 0o7777777777777777#48 && t.faults.shift := by decide

/-- H7. -/
theorem test_qrs : after (step (upper 0o02000004#24 { base with q := 0o7777777777777760#48 }))
    fun t => t.q == 0o7777777777777777#48 := by decide

/-- H9. -/
theorem test_lrs : after (step (upper 0o03000003#24 { base with a := 0o4000000000000000#48, q := 7#48 }))
    fun t => t.a == 0o7400000000000000#48 && t.q == 0#48 := by decide

/-- H18, H19: the shift fault begins above a count of 127. -/
theorem test_als : after (step (upper 0o05000177#24 { base with a := 1#48 }))
    fun t => t.a == 0o20000000000#48 && !t.faults.shift := by decide

theorem test_als_fault : after (step (upper 0o05000200#24 { base with a := 1#48 }))
    fun t => t.a == 0o40000000000#48 && t.faults.shift := by decide

/-- H14. -/
theorem test_qls : after (step (upper 0o06000006#24 { base with q := 0o7700000000000000#48 }))
    fun t => t.q == 0o77#48 := by decide

/-- H16. -/
theorem test_lls : after (step (upper 0o07000001#24 { base with a := 0o4000000000000000#48 }))
    fun t => t.a == 0#48 && t.q == 1#48 := by decide

/-- I1, I2. -/
theorem test_sau : after (step (upper 0o60000300#24 (with300 0o7777777777712345#48 0#48 0o1234567076543210#48)))
    fun t => t.read 0o300#15 == 0o1231234576543210#48 := by decide

theorem test_sal : after (step (upper 0o61000300#24 (with300 0o7777777777712345#48 0#48 0o1234567076543210#48)))
    fun t => t.read 0o300#15 == 0o1234567076512345#48 := by decide

/-- I4, I10. -/
theorem test_isk_equal : after (step (upper 0o54100005#24 (withB1 5#15 base)))
    fun t => t.b.b1 == 0#15 && at_ 0o101#15 .upper t := by decide

theorem test_isk_lower : after (step (lower 0o54100005#24 (withB1 4#15 base)))
    fun t => t.b.b1 == 5#15 && at_ 0o100#15 .lower t := by decide

/-- I13, I12. -/
theorem test_ijp : after (step (upper 0o55100300#24 (withB1 0o77777#15 base)))
    fun t => t.b.b1 == 0o77776#15 && at_ 0o300#15 .upper t := by decide

theorem test_ijp_zero : after (step (upper 0o55100300#24 base))
    fun t => t.b.b1 == 0#15 && at_ 0o100#15 .lower t := by decide

/-- A9, A6. -/
theorem test_add : after (step (upper 0o14000300#24 (with300 0o7777777777777774#48 0#48 5#48)))
    fun t => t.a == 2#48 && !t.faults.overflow := by decide

theorem test_add_overflow : after (step (upper 0o14000300#24 (with300 0o3777777777777777#48 0#48 1#48)))
    fun t => t.a == 0o4000000000000000#48 && t.faults.overflow := by decide

/-- A10, A12. -/
theorem test_sub : after (step (upper 0o15000300#24 (with300 5#48 0#48 7#48)))
    fun t => t.a == 0o7777777777777775#48 && !t.faults.overflow := by decide

theorem test_sub_zeros : after (step (upper 0o15000300#24 (with300 0o7777777777777777#48 0#48 0#48)))
    fun t => t.a == 0o7777777777777777#48 := by decide

/-- M2, M11. -/
theorem test_mui : after (step (upper 0o24000300#24 (with300 0o7777777777777761#48 0#48 0o14#48)))
    fun t => t.a == 0o7777777777777527#48 && t.q == 0o7777777777777777#48 := by decide

theorem test_muf : after (step (upper 0o26000300#24 (with300 0o3777777777777777#48 0#48 0o3777777777777777#48)))
    fun t => t.a == 0o3777777777777776#48 && t.q == 2#48 := by decide

/-- V4, V9. -/
theorem test_dvi : after (step (upper 0o25000300#24 (with300 0o7777777777777770#48 0o7777777777777777#48 2#48)))
    fun t => t.a == 0o7777777777777774#48 && t.q == 0o7777777777777776#48 && !t.faults.divide := by decide

theorem test_dvi_fault : after (step (upper 0o25000300#24 (with300 0#48 1#48 2#48)))
    fun t => t.faults.divide && at_ 0o100#15 .lower t := by decide

/-- V14, V15. -/
theorem test_dvf :
    after (step (upper 0o27000300#24 (with300 0o6777777777777777#48 0o7777777777777777#48 0o2000000000000000#48)))
    fun t => t.a == 0o5777777777777777#48 && t.q == 0o7777777777777777#48 := by decide

theorem test_dvf_fault : after (step (upper 0o27000300#24 (with300 0o2000000000000000#48 0#48 0o2000000000000000#48)))
    fun t => t.faults.divide := by decide

/-- F1, F6, F8, F13, F16, F20, F22. -/
theorem test_fad : after (step (upper 0o30000300#24 (with300 0o2003400000000000#48 0#48 0o2000400000000000#48)))
    fun t => t.a == 0o2003440000000000#48 && !t.faults.exponent := by decide

theorem test_fad_fault : after (step (upper 0o30000300#24 (with300 0o3777400000000000#48 0#48 0o3777400000000000#48)))
    fun t => t.faults.exponent := by decide

theorem test_fsb : after (step (upper 0o31000300#24 (with300 0o2000400000000000#48 0#48 0o2003400000000000#48)))
    fun t => t.a == 0o5775077777777777#48 := by decide

theorem test_fmu : after (step (upper 0o32000300#24 (with300 0o2002600000000000#48 0#48 0o2002600000000000#48)))
    fun t => t.a == 0o2004440000000000#48 := by decide

theorem test_fmu_fault : after (step (upper 0o32000300#24 (with300 0o0000400000000000#48 0#48 0o2000400000000000#48)))
    fun t => t.faults.exponent := by decide

theorem test_fdv : after (step (upper 0o33000300#24 (with300 0o2000400000000000#48 0#48 0o2003400000000000#48)))
    fun t => t.a == 0o1775400000000000#48 := by decide

theorem test_fdv_zero : after (step (upper 0o33000300#24 (with300 0o2003400000000000#48 0#48 0#48)))
    fun t => !t.faults.divide && at_ 0o100#15 .lower t := by decide

/-- K2, K9, K11. -/
theorem test_sca : after (step (upper 0o34100057#24 { base with a := 0o7777777777777776#48 }))
    fun t => t.a == 0o5777777777777777#48 && t.b.b1 == 1#15 := by decide

theorem test_sca_long : after (step (upper 0o34177777#24 { base with a := 1#48 }))
    fun t => t.a == 0o2000000000000000#48 && t.b.b1 == 0o77721#15 && !t.faults.shift := by decide

theorem test_scq : after (exec (.scq (.index .b1) 5#15) { base with a := 1#48, q := 0o4000000000000000#48 })
    fun t => t.a == 0o60#48 && t.q == 0#48 && t.b.b1 == 0#15 && at_ 0o100#15 .lower t := by
  simp only [exec, execScq, withAtomicIndex_of_resolved _ (State.indirectAtomic_index _ _ _), scqZeroTest]
  cases Config.scqTestsWholeAQ <;> decide

/-- N2, N7, N8, N10. -/
theorem test_ena : after (step (upper 0o10040000#24 base)) fun t => t.a == 0o7777777777740000#48 := by decide

theorem test_enq : after (step (upper 0o04077773#24 base)) fun t => t.q == 0o7777777777777773#48 := by decide

theorem test_ina : after (step (upper 0o11077776#24 { base with a := 5#48 })) fun t => t.a == 4#48 := by decide

theorem test_ina_overflow : after (step (upper 0o11000001#24 { base with a := 0o3777777777777777#48 }))
    fun t => t.a == 0o4000000000000000#48 && t.faults.overflow := by decide

/-- N13, N15, N17. -/
theorem test_eni : after (step (upper 0o50177777#24 base)) fun t => t.b.b1 == 0o77777#15 := by decide

theorem test_ini : after (step (upper 0o51177776#24 (withB1 5#15 base))) fun t => t.b.b1 == 4#15 := by decide

theorem test_ini_carry : after (step (upper 0o51100001#24 (withB1 0o77777#15 base)))
    fun t => t.b.b1 == 1#15 := by decide

/-- The table of section 2.7: a negative zero is a zero; J1. -/
theorem test_ajp : after (step (upper 0o22000300#24 (with300 0o7777777777777777#48 0#48 0#48)))
    (at_ 0o300#15 .upper) := by decide

theorem test_ajp_return : after (step (upper 0o22600300#24 (with300 5#48 0#48 0#48)))
    fun t => t.read 0o300#15 == 0o0000010100000000#48 && at_ 0o300#15 .lower t := by decide

theorem test_qjp : after (step (lower 0o23300300#24 (with300 0#48 5#48 0#48))) (at_ 0o101#15 .upper) := by decide

theorem test_qjp_return :
    after (step (lower 0o23700300#24 (with300 0#48 0o7777777777777772#48 0o1212121212121212#48)))
    fun t => t.read 0o300#15 == 0o1210010112121212#48 && at_ 0o300#15 .lower t := by decide

/-- J5, J8. -/
theorem test_slj_return : after (exec (.slj .ret .always 0o300#15) { with300 0#48 0#48 0o7777777777777777#48 with
    p := 0o77777#15 }) fun t => t.read 0o300#15 == 0o7770000077777777#48 && at_ 0o300#15 .lower t := by decide

theorem test_slj_key : after (step (upper 0o75100300#24 { base with jumpKey := ⟨true, false, false⟩ }))
    (at_ 0o300#15 .upper) := by decide

/-- J9, J10. -/
theorem test_sls : after (step (upper 0o76000301#24 base))
    fun t => t.run == .stopped .sls && at_ 0o100#15 .upper t &&
      at_ 0o301#15 .upper (t.deliver (.operator .start)) := by decide

theorem test_sls_key_up : after (step (upper 0o76100301#24 base))
    fun t => t.run == .running && at_ 0o301#15 .upper t := by decide

/-- G3, G5. -/
theorem test_ssk : after (step (upper 0o36000300#24 (with300 0#48 0#48 0o7777777777777777#48)))
    (at_ 0o101#15 .upper) := by decide

theorem test_ssk_lower : after (step (lower 0o36000300#24 (with300 0#48 0#48 5#48))) (at_ 0o100#15 .lower) := by decide

/-- G6, G7. -/
theorem test_ssh : after (step (upper 0o37000300#24 (with300 0#48 0#48 0o4000000000000001#48)))
    fun t => t.read 0o300#15 == 3#48 && at_ 0o101#15 .upper t := by decide

theorem test_ssh_positive : after (step (upper 0o37000300#24 (with300 0#48 0#48 0o2000000000000001#48)))
    fun t => t.read 0o300#15 == 0o4000000000000002#48 && at_ 0o100#15 .lower t := by decide

/-- The registers and the operand of the vectors L1 to L8. -/
def logical : State := with300 0o1111222233334444#48 0o7777000077770000#48 0o0123456701234567#48

theorem test_sst : after (step (upper 0o40000300#24 logical)) fun t => t.a == 0o1133676733334567#48 := by decide

theorem test_scl : after (step (upper 0o41000300#24 logical)) fun t => t.a == 0o1010220032100000#48 := by decide

theorem test_scm : after (step (upper 0o42000300#24 logical)) fun t => t.a == 0o1032674532100123#48 := by decide

theorem test_ssu : after (step (upper 0o43000300#24 logical)) fun t => t.a == 0o0123222201234444#48 := by decide

theorem test_ldl : after (step (upper 0o44000300#24 logical)) fun t => t.a == 0o0123000001230000#48 := by decide

theorem test_adl : after (step (upper 0o45000300#24 logical)) fun t => t.a == 0o1234222234564444#48 := by decide

theorem test_sbl : after (step (upper 0o46000300#24 logical)) fun t => t.a == 0o0766222232104444#48 := by decide

/-- L10: subtracting +0 adds -0. -/
theorem test_sbl_zero : after (step (upper 0o46000300#24 (with300 5#48 0#48 7#48))) fun t => t.a == 5#48 := by decide

theorem test_stl : after (step (upper 0o47000300#24 logical))
    fun t => t.read 0o300#15 == 0o1111000033330000#48 && t.a == 0o1111222233334444#48 := by decide

/-- A list of four words at 01000 and a count in B1. -/
def list4 (w0 w1 w2 w3 : Word) (count : Addr) (a q : Word) : State :=
  (((State.write (withB1 count { base with a := a, q := q }) 0o1000#15 w0).write 0o1001#15 w1).write 0o1002#15
    w2).write 0o1003#15 w3

/-- E1, E5, E11, E14, E16, E17. -/
theorem test_eqs : after (step (upper 0o64101000#24 (list4 7#48 5#48 9#48 5#48 4#15 5#48 0#48)))
    fun t => t.b.b1 == 3#15 && at_ 0o101#15 .upper t := by decide

theorem test_eqs_lower : after (step (lower 0o64101000#24 (list4 7#48 5#48 9#48 5#48 4#15 8#48 0#48)))
    fun t => t.b.b1 == 0#15 && at_ 0o101#15 .upper t := by decide

theorem test_ths : after (step (upper 0o65101000#24 (list4 7#48 5#48 9#48 5#48 4#15 7#48 0#48)))
    fun t => t.b.b1 == 2#15 && at_ 0o101#15 .upper t := by decide

theorem test_ths_zeros : after (step (upper 0o65101000#24 (list4 0o7777777777777777#48 0#48 0#48 0#48 2#15 0#48 0#48)))
    fun t => t.b.b1 == 0#15 && at_ 0o100#15 .lower t := by decide

theorem test_meq : after (step (upper 0o66101000#24 (list4 0o15#48 0o25#48 0o31#48 0o44#48 4#15 5#48 7#48)))
    fun t => t.b.b1 == 1#15 && at_ 0o101#15 .upper t := by decide

theorem test_mth : after (step (upper 0o67101000#24 (list4 0o15#48 0o23#48 0o31#48 0o44#48 4#15 4#48 7#48)))
    fun t => t.b.b1 == 0#15 && at_ 0o101#15 .upper t := by decide

/-- R1, R2, R7, R10, R8. -/
theorem test_rad : after (step (upper 0o70000300#24 (with300 5#48 0#48 7#48)))
    fun t => t.a == 0o14#48 && t.read 0o300#15 == 0o14#48 := by decide

theorem test_rsb : after (step (upper 0o71000300#24 (with300 5#48 0#48 7#48)))
    fun t => t.a == 2#48 && t.read 0o300#15 == 2#48 := by decide

theorem test_rao : after (step (upper 0o72000300#24 (with300 0#48 0#48 0o7777777777777777#48)))
    fun t => t.a == 1#48 && t.read 0o300#15 == 1#48 := by decide

theorem test_rao_overflow : after (step (upper 0o72000300#24 (with300 0#48 0#48 0o3777777777777777#48)))
    fun t => t.a == 0o4000000000000000#48 && t.faults.overflow := by decide

theorem test_rso : after (step (upper 0o73000300#24 (with300 0#48 0#48 0#48)))
    fun t => t.a == 0o7777777777777776#48 && t.read 0o300#15 == 0o7777777777777776#48 := by decide

/-- X1: the first word in goes to the highest address. -/
theorem test_int : after (step (upper 0o62102000#24 (withB1 3#15 { base with
    equipment := { Equipment.reset with ch7In := [0o11#48, 0o22#48, 0o33#48] } })))
    fun t => t.read 0o2002#15 == 0o11#48 && t.read 0o2000#15 == 0o33#48 && t.b.b1 == 0#15 := by decide

/-- R304: no word is at hand. -/
theorem test_int_waits : after (step (upper 0o62102000#24 (withB1 3#15 base)))
    fun t => t.held == some (.int (.index .b1) 0o2000#15) && t.b.b1 == 3#15 && at_ 0o100#15 .upper t := by decide

/-- X2. -/
theorem test_out : after (step (upper 0o63101000#24 { list4 1#48 2#48 3#48 0#48 3#15 0#48 0#48 with
    equipment := { Equipment.reset with ch7Accept := 3 } }))
    fun t => t.equipment.ch7Out == [3#48, 2#48, 1#48] && t.b.b1 == 0#15 := by decide

/-- X5, X9. -/
theorem test_activate : after (step (upper 0o74300002#24 (base.write 3#15 0o32000#48)))
    fun t => t.read 3#15 == 0o0000000200032000#48 && t.cr.c3 == ⟨0o2#15, 0o32000#15⟩ && t.active.c3 := by decide

theorem test_sense : after (step (upper 0o74700130#24 { base with faults := { Faults.none with overflow := true } }))
    fun t => t.faults.overflow && at_ 0o101#15 .upper t := by decide

/-! ### The cycle, the interrupt, the clock and the buffer channels -/

/-- R378: the entry of section 2.12, and the lower instruction of the control word next. -/
theorem test_interrupt_entry : after (step (State.write { base with
    selArith := true, faults := { Faults.none with overflow := true }, p := 0o101#15 } 7#15 0o7500000075001000#48))
    fun t => t.read 7#15 == 0o7500010175001000#48 && t.monExit == .lower && t.lockout && at_ 7#15 .lower t &&
      t.u1 == 0o7500010175001000#48 := by decide

/-- R379, R410: a half-word swept is not executed, and the position of the last instruction stays. -/
theorem test_sweep : after (step (upper 0o10000005#24 { base with modeSwitch := .sweep }))
    fun t => t.a == 0#48 && t.lastPos == .lower && at_ 0o100#15 .lower t := by decide

/-- C5. -/
theorem test_clock_overflow : (State.clockAdvance (State.write { base with clockRunning := true } 0#15
    0o3777777777777777#48)).read 0#15 = 0o4000000000000000#48 := by decide

/-- X17. -/
theorem test_buffer_input : (State.bufferStep { base with
    active := { base.active with c3 := true }, cr := { base.cr with c3 := ⟨0o2#15, 0o32000#15⟩ } } .c3
    0o7070#48).read 2#15 = 0o7070#48 := by decide

/-- R83, R84, R424: a buffer word falls between the storage references of Auto Load, and its routine starts. -/
theorem test_auto_load :
    let buffer := IoEvent.bufferWord .c3 0o7070#48
    let s := { base with
      run := .stopped .clear, active := { base.active with c3 := true }, cr := { base.cr with c3 := ⟨0#15, 0o32000#15⟩ }
      moments :=
        [⟨[.io .autoLoadWord, .io buffer, .io .autoLoadWord, .io .autoLoadWord, .operator .autoLoadStart], []⟩] }
    after (step s) fun t => t.read 0#15 == 0o7070#48 && t.read 1#15 == 0o7430000274732000#48 &&
      t.read 3#15 == 0o7430000274732000#48 && t.run == .stopped .illegal && at_ 0#15 .upper t := by decide

/-- R84: a storage reference of Auto Load falls inside an instruction, between the fetch and the operand. -/
theorem test_auto_load_inside :
    after (step { upper 0o12000000#24 base with moments := [⟨[], [[], [.autoLoadWord]]⟩] })
      fun t => t.a == 0o7403200574732000#48 && t.bootWritten == 1 && at_ 0o100#15 .lower t := by decide

/-- The host's word runs as the first instruction after reset. -/
theorem test_fetch_word : after (step (State.reset.withFetchWord 24 0o10000005))
    fun t => t.a == 5#48 && at_ 0#15 .lower t := by decide

/-! ### States and operands that meet the hypotheses of the statements -/

/-- What a step or a meaning left, for a result known to be a next state. -/
def nextOr (r : Result) (s : State) : State :=
  match r with
  | .next t => t
  | .fault _ => s
  | .refused _ => s

/-- Word 00300 as an operand, at the upper instruction of 00100. -/
theorem witness_operand : base.resolveAll .direct 0o300#15 = some (base, 0o300#15) ∧
    base.operand .direct 0o300#15 = some (base, 0o300#15) := by decide

/-- Any contents of A, Q and the operand can be put there: the values of the witnesses below stand in such a state. -/
theorem witness_operand_values (a q x : Word) :
    (with300 a q x).operand .direct 0o300#15 = some (with300 a q x, 0o300#15) ∧
      (with300 a q x).resolveAtomic .direct 0o300#15 = some 0o300#15 ∧ (with300 a q x).read 0o300#15 = x ∧
      (with300 a q x).a = a ∧ (with300 a q x).q = q :=
  ⟨rfl, rfl, State.read_write_same _ _ _, rfl, rfl⟩

/-- Channel 3 about to store a word w at address x, at the point before a reference. -/
def storing (x : Addr) (w : Word) (s : State) : State :=
  { s with active := { base.active with c3 := true }, cr := { base.cr with c3 := ⟨x, 0o32000#15⟩ }
           mid := [[.bufferWord .c3 w]] }

/-- The same through an index register and an indirect word that another agent stores before it is read, and with a
word of the operand that another agent stores (R84). -/
theorem witness_operand_indirect :
    let s := storing 0o500#15 0o00100200#48 (withB1 0o101#15 base)
    s.resolveAll .indirect 0o500#15 = some (s.point, 0o301#15) ∧ s.operand .direct 0o500#15 = some (s.point, 0o500#15) ∧
      s.point.read 0o500#15 = 0o00100200#48 ∧ s.indirectOperand .direct 0o500#15 = some (s.point, none, 0o500#15) := by
  decide

/-- R188: a buffer word waits for the end of a multiply, and not for that of an addition. -/
theorem test_multiply_atomic :
    let s := storing 0o300#15 7#48 (with300 2#48 0#48 3#48)
    (after (exec (.mui .direct 0o300#15) s) fun t => t.a == 6#48) ∧
      after (exec (.add .direct 0o300#15) s) fun t => t.a == 9#48 := by decide

/-- A word whose lower designator and address name itself: an endless chain. -/
def endless : State := base.write 0o200#15 0o12700200#48

theorem endless_indirect (s : State) (hs : s.mid = [])
    (hd : designatorOf (indirectDesignator (s.read 0o200#15)) = .indirect)
    (ha : lowerAddress (s.read 0o200#15) = 0o200#15) (n : Nat) : s.indirectWithin n .indirect 0o200#15 = none := by
  induction n with
  | zero => rfl
  | succ n ih =>
    have hp : s.point = s := by simp [State.point, hs]
    simp only [State.indirectWithin, hp, hd, ha, ih]

theorem endless_chain (s : State) (hs : s.mid = [])
    (hd : designatorOf (indirectDesignator (s.read 0o200#15)) = .indirect)
    (ha : lowerAddress (s.read 0o200#15) = 0o200#15) : s.indirect .indirect 0o200#15 = none :=
  endless_indirect s hs hd ha _

/-- ExecStuckOnlyOnEndlessChain, its first clause; its second with a chain that ends and with no index operand. -/
theorem witness_exec_stuck : indexOperand (.ars .indirect 0o200#15) = some (.indirect, 0o200#15) ∧
    (chainStart (.ars .indirect 0o200#15) endless).indirect .indirect 0o200#15 = none ∧
    (chainStart (.fdv .indirect 0o200#15) endless).indirect .indirect 0o200#15 = none ∧
    (chainStart (.lda .indirect 0o200#15) endless).indirect .indirect 0o200#15 = none :=
  ⟨rfl, endless_chain (chainStart (.ars .indirect 0o200#15) endless) rfl (by decide) (by decide),
    endless_chain (chainStart (.fdv .indirect 0o200#15) endless) rfl (by decide) (by decide),
    endless_chain endless rfl (by decide) (by decide)⟩

theorem witness_exec_completes : indexOperand (.exf .sense 0o10#15) = none ∧
    indexOperand (.liu (.index .b2) 7#15) = some (.index .b2, 7#15) ∧
    (chainStart (.liu (.index .b2) 7#15) base).indirect (.index .b2) 7#15 ≠ none := by
  decide

/-- IndirectChainLimit: both sides hold of a chain of one pass. -/
theorem witness_chain :
    let s := base.write 0o500#15 0o00600200#48
    s.indirect .indirect 0o500#15 = some (s, some .b6, 0o200#15) ∧
      s.indirectWithin 1 .indirect 0o500#15 = some (s, some .b6, 0o200#15) := by decide

/-- ModifiedAddressNegativeZero: both sides, with and without a register, and neither. -/
theorem witness_modified : base.resolveAll .direct 0o77777#15 = some (base, 0o77777#15) ∧
    (withB1 0o77777#15 base).resolveAll (.index .b1) 0o77777#15 = some (withB1 0o77777#15 base, 0o77777#15) ∧
    (withB1 1#15 base).resolveAll (.index .b1) 0o77776#15 = some (withB1 1#15 base, 0#15) := by decide

/-- OverflowPredicate, its last clause at the end of the range, and past it. -/
theorem witness_overflow : ocOvf 0o3777777777777776#48 1#48 = false ∧ ocOvf 0o3777777777777777#48 1#48 = true ∧
    ocOvf 0o4000000000000001#48 0o7777777777777776#48 = false := by decide

/-! The cycle. -/

/-- The state in which an upper instruction of s is executed. -/
def atUpper (s : State) : State := { s with u1 := s.read s.p, breakPassed := false, lastPos := .upper }

/-- StepRunsDecodedInstruction: what its hypotheses say of the state u a turn begins in. -/
def ready (u : State) : Bool :=
  u.run == .running && u.faults.anyStorage == false && u.modeSwitch == .neutral && u.held == none &&
    (u.atInterruptPoint && u.interruptDue) == false

/-- An upper instruction that goes on, restarted at its breakpoint, under the lockout with int_exit set. -/
theorem witness_step_upper :
    let s := upper 0o75000300#24 { base with
      breakpoint := some 0o100#15, breakPassed := true, lockout := true, intExit := true }
    ready s.beginTurn ∧ s.beginTurn.half = .upper ∧ s.beginTurn.breakPassed = true ∧
      after (exec (decode (upperInstr (s.beginTurn.read s.beginTurn.p))) (atUpper s.beginTurn)) fun t =>
        t.run == .running && t.held == none := by decide

/-- A lower instruction that goes on, in single step. -/
theorem witness_step_lower :
    let s := lower 0o10000005#24 { base with singleStep := true }
    ready s.beginTurn ∧ s.beginTurn.half = .lower ∧
      after (exec (decode (lowerInstr s.beginTurn.u1)) { s.beginTurn with lastPos := .lower }) fun t =>
        t.run == .running && t.held == none := by decide

/-- A held instruction that goes on although an interrupt is due. -/
theorem witness_step_held :
    let s := { upper 0o12000300#24 base with held := some (.ena .direct 5#15), selInactive := PerChannel.all true }
    s.beginTurn.run = .running ∧ s.beginTurn.faults.anyStorage = false ∧ s.beginTurn.modeSwitch = .neutral ∧
      s.beginTurn.held = some (.ena .direct 5#15) ∧ s.beginTurn.interruptDue = true ∧
      (after (exec (.ena .direct 5#15) { s.beginTurn with lastPos := .upper, held := none }) fun t =>
        t.run == .running && t.held == none && t.a == 5#48) := by decide

/-- An instruction that stops the computer, and one that waits. -/
theorem witness_step_stops :
    let s := upper 0o76000301#24 base
    ready s.beginTurn ∧ s.beginTurn.breakpoint ≠ some s.beginTurn.p ∧
      after (exec (decode (upperInstr (s.beginTurn.read s.beginTurn.p))) (atUpper s.beginTurn)) fun t =>
        t.run == .stopped .sls := by decide

theorem witness_step_waits :
    let s := lower 0o62002000#24 base
    ready s.beginTurn ∧
      after (exec (decode (lowerInstr s.beginTurn.u1)) { s.beginTurn with lastPos := .lower }) fun t =>
        t.held == some (.int .direct 0o2000#15) := by decide

/-- An instruction that is stuck. -/
theorem witness_step_stuck :
    let s := lower 0o12700200#24 endless
    ready s.beginTurn ∧ decode (lowerInstr s.beginTurn.u1) = .lda .indirect 0o200#15 ∧
      exec (.lda .indirect 0o200#15) { endless with lastPos := .lower } = .fault .endlessIndirection := by
  refine ⟨by decide, by decide, ?_⟩
  have h := endless_chain { endless with lastPos := .lower } rfl (by decide) (by decide)
  simp only [exec, execLda]
  exact withOperand_of_endless _ h

/-- StoppedAndBreakpoint: a stopped computer, and a running one at its breakpoint. -/
theorem witness_stopped : State.reset.beginTurn.run = .stopped .clear ∧ State.reset.moments = [] := by decide

theorem witness_breakpoint :
    let s := { base with breakpoint := some 0o100#15, moments := [⟨[.io .clockTick], []⟩] }
    ready s.beginTurn ∧ s.beginTurn.half = .upper ∧ s.beginTurn.interruptDue = false ∧
      s.beginTurn.breakpoint = some s.beginTurn.p ∧ s.beginTurn.breakPassed = false := by decide

/-- A state with an arithmetic fault whose interrupt is selected. -/
def faulted : State := { base with selArith := true, faults := { Faults.none with overflow := true } }

/-- InterruptEntry: due at an upper instruction, and at a lower one where INT_POINTS allows it. -/
theorem witness_interrupt_entry : faulted.beginTurn.interruptDue = true ∧ faulted.beginTurn.half = .upper ∧
    faulted.beginTurn.run = .running ∧ faulted.beginTurn.faults.anyStorage = false ∧
    faulted.beginTurn.held = none ∧ faulted.params.intEntry = [] := by decide

theorem witness_interrupt_entry_lower :
    let s := { lower 0o10000005#24 faulted with params := ⟨[⟨[(.overflowFault, true)], 8⟩], .everyInstruction⟩ }
    s.beginTurn.interruptDue = true ∧ s.beginTurn.run = .running ∧ s.beginTurn.faults.anyStorage = false ∧
      s.beginTurn.held = none ∧ s.beginTurn.params.intPoints = .everyInstruction ∧ s.entryAddress = 0o17#15 := by
  decide

/-- InterruptEntry: a rule of INT_ENTRY that tells sets of causes apart. -/
theorem witness_entry_rule :
    let s := { faulted with params := ⟨[⟨[(.overflowFault, true), (.clockOverflow, true)], 3⟩,
      ⟨[(.clockOverflow, false)], 5⟩], .stepBoundary⟩ }
    s.entryAddress = 0o14#15 ∧
      State.entryAddress { s with faults := { s.faults with clockOverflow := true } } = 0o12#15 := by decide

/-- InterruptReturn: about to jump to the control word e, which holds the return address 00101. -/
def returning (e : Addr) : State :=
  (State.write { base with lockout := true } e 0o7500010175001000#48).write 0o100#15
    (setUpperAddress 0o7500000050000000#48 e)

/-- What its hypotheses say of the state. -/
def returnReady (e : Addr) (s : State) : Bool :=
  s.moments == [] && s.run == .running && s.faults.anyStorage == false && s.modeSwitch == .neutral &&
    s.singleStep == false && s.held == none && s.breakpoint == none && s.half == .upper && s.lockout &&
    s.intExit == false && inControlBlock e && decode (upperInstr (s.read s.p)) == .slj .normal .always e &&
    decode (upperInstr (s.read e)) == .slj .normal .always 0o101#15

/-- At the two ends of the block of control words. -/
theorem witness_interrupt_return_first : returnReady 0o7#15 (returning 0o7#15) := by decide

theorem witness_interrupt_return_last : returnReady 0o17#15 (returning 0o17#15) := by decide

/-- InterruptDue: each of its causes, and none under the lockout. -/
theorem witness_interrupt_due : faulted.interruptDue = true ∧
    State.interruptDue { faulted with lockout := true } = false ∧
    State.interruptDue { base with selInactive := { base.selInactive with c4 := true } } = true ∧
    State.interruptDue { base with extInt := { base.extInt with in7 := true } } = true ∧
    State.interruptDue { base with console := { base.console with crInterrupt := true, carriageReturn := true } } =
      true := by decide

/-- A state of the invariant far from reset: returning from an interrupt, channel 3 moving words, storage in use. -/
def busy : State := { returning 0o7#15 with
  intExit := true, active := { base.active with c3 := true }, cr := { base.cr with c3 := ⟨0o2#15, 0o32000#15⟩ }
  moments := [⟨[.io (.bufferWord .c3 0o7070#48)], []⟩] }

/-- StepKeepsInvariant and RunsAreNeverRefused: that state meets the invariant, and a step answers a next state. -/
theorem witness_invariant : busy.Inv where
  memory := by decide
  mask := by decide
  storage := by decide
  exit := by decide
  buffers := by intro c; cases c <;> decide

theorem witness_invariant_step : after (step busy) fun t =>
    t.read 0o2#15 == 0o7070#48 && at_ 7#15 .upper t && !t.lockout := by decide

/-! Index registers named, or not. -/

/-- LoadIndex, EnterOperand, IndexCounting, StoreAddressField: without a register and with one. -/
theorem witness_index : base.indirect .direct 5#15 = some (base, none, 5#15) ∧
    base.indirect (.index .b3) 0o310#15 = some (base, some .b3, 0o310#15) ∧
    base.indirectOperand .direct 5#15 = some (base, none, 5#15) ∧
    base.indirectOperand (.index .b3) 0o310#15 = some (base, some .b3, 0o310#15) := by decide

/-- IndexCounting at the boundary values of the register: equal to y, not equal, zero, all ones. -/
theorem witness_index_counts :
    (withB1 0o77777#15 base).indirect (.index .b1) 0o77777#15 =
      some (withB1 0o77777#15 base, some .b1, 0o77777#15) ∧
    (withB1 0o77777#15 base).b.get .b1 = 0o77777#15 ∧ (withB1 0o77776#15 base).b.get .b1 ≠ 0o77777#15 ∧
    base.b.get .b1 = 0#15 ∧ (withB1 0o77777#15 base).b.get .b1 ≠ 0#15 := by decide

/-- RightShifts, LeftShifts: counts on the two sides of the shift fault. -/
theorem witness_shift :
    base.resolveAtomic .direct 127#15 = some 127#15 ∧ base.resolveAtomic .direct 128#15 = some 128#15 := by
  decide

/-- DivideInteger: the largest quotient; a quotient too large by one; a zero divisor of either sign. -/
theorem witness_divide_integer :
    (sval 2#48 ≠ 0 ∧ ((sval (double 0#48 0o7777777777777777#48)).tdiv (sval 2#48)).natAbs ≤ 2 ^ 47 - 1) ∧
    2 ^ 47 - 1 < ((sval (double 1#48 0#48)).tdiv (sval 2#48)).natAbs ∧
    sval 0#48 = 0 ∧ sval 0o7777777777777777#48 = 0 := by decide

/-- DivideFractional: the largest quotient; an exact and an inexact division; a quotient too large by one. -/
theorem witness_divide_fractional :
    (sval 1#48 ≠ 0 ∧ ((sval (double 0#48 0o7777777777777776#48)).tdiv (2 * sval 1#48)).natAbs ≤ 2 ^ 47 - 1) ∧
    (2 * sval 1#48 ∣ sval (double 0#48 0o7777777777777776#48)) ∧
    ¬(2 * sval 5#48 ∣ sval (double 0#48 0o37#48)) ∧
    2 ^ 47 - 1 < ((sval (double 1#48 0#48)).tdiv (2 * sval 1#48)).natAbs := by decide

/-! Floating point. -/

/-- The value of a word from its parts. -/
theorem floatValue_of (w : Word) (f : FpParts) (h : fpUnpack w = f) : floatValue w = f.value := by
  rw [floatValue, h]

theorem float_zero : floatValue 0#48 = 0 := by
  rw [floatValue_of _ ⟨false, -1023, 0⟩ (by decide)]; norm_num [FpParts.value]

theorem float_four : floatValue 0o2003400000000000#48 = 4 := by
  rw [floatValue_of _ ⟨false, 3, 2 ^ 35⟩ (by decide)]; norm_num [FpParts.value]

theorem float_minus_four : floatValue 0o5774377777777777#48 = -4 := by
  rw [floatValue_of _ ⟨true, 3, 2 ^ 35⟩ (by decide)]; norm_num [FpParts.value]

theorem float_one : floatValue 0o2001400000000000#48 = 1 := by
  rw [floatValue_of _ ⟨false, 1, 2 ^ 35⟩ (by decide)]; norm_num [FpParts.value]

/-- The largest word. -/
theorem float_max : floatValue 0o3777777777777777#48 = (2 ^ 36 - 1) * (2 : ℚ) ^ (987 : Int) := by
  rw [floatValue_of _ ⟨false, 1023, 2 ^ 36 - 1⟩ (by decide)]; norm_num [FpParts.value]

/-- The smallest normalized word. -/
theorem float_min : floatValue 0o0000400000000000#48 = (2 : ℚ) ^ (-1024 : Int) := by
  rw [floatValue_of _ ⟨false, -1023, 2 ^ 35⟩ (by decide)]
  have h : (2 : ℚ) ^ (-1024 : Int) = 2 ^ (35 : Int) * 2 ^ (-1059 : Int) := by
    rw [← zpow_add₀ (by norm_num)]; rfl
  rw [h]; norm_num [FpParts.value]

/-- FloatPackUnpack at the two ends of its range. -/
theorem witness_pack : fpUnpack (fpPack ⟨true, -1023, 2 ^ 36 - 1⟩) = ⟨true, -1023, 2 ^ 36 - 1⟩ ∧
    fpUnpack (fpPack ⟨false, 1023, 0⟩) = ⟨false, 1023, 0⟩ := by decide

/-- FloatZeroCases: each clause, with A and the word at 00300. -/
theorem witness_float_zero :
    floatValue 0o2003400000000000#48 + floatValue 0o5774377777777777#48 = 0 ∧
    floatValue 0o2003400000000000#48 - floatValue 0o2003400000000000#48 = 0 ∧
    floatValue 0o2003400000000000#48 * floatValue 0#48 = 0 ∧
    (floatValue 0#48 = 0 ∧ floatValue 0o2003400000000000#48 ≠ 0) := by
  rw [float_four, float_minus_four, float_zero]; norm_num

/-- FloatOperationsRoundExactResult: operands of each operation with a result that is not zero. -/
theorem witness_float :
    floatValue 0o2003400000000000#48 + floatValue 0o2001400000000000#48 ≠ 0 ∧
    floatValue 0o2003400000000000#48 - floatValue 0o2001400000000000#48 ≠ 0 ∧
    floatValue 0o2003400000000000#48 * floatValue 0o2001400000000000#48 ≠ 0 ∧
    floatValue 0o2003400000000000#48 / floatValue 0o2001400000000000#48 ≠ 0 := by
  rw [float_four, float_one]; norm_num

/-- Its clauses: results at the two ends of the range, representable; out of range on either side. -/
theorem witness_float_range :
    (2 : ℚ) ^ (-1024 : Int) ≤ |floatValue 0o0000400000000000#48 * floatValue 0o2001400000000000#48| ∧
    |floatValue 0o3777777777777777#48 * floatValue 0o2001400000000000#48| ≤ (2 ^ 36 - 1) * (2 : ℚ) ^ (987 : Int) ∧
    (2 : ℚ) ^ (1023 : Int) ≤ |floatValue 0o3777777777777777#48 + floatValue 0o3777777777777777#48| ∧
    |floatValue 0o0000400000000000#48 / floatValue 0o2003400000000000#48| < (2 : ℚ) ^ (-1025 : Int) := by
  rw [float_min, float_one, float_max, float_four]
  have h1 : (2 : ℚ) ^ (1023 : Int) = 2 ^ (36 : Int) * 2 ^ (987 : Int) := by rw [← zpow_add₀ (by norm_num)]; rfl
  have h2 : (2 : ℚ) ^ (-1024 : Int) = 2 ^ (1 : Int) * 2 ^ (-1025 : Int) := by rw [← zpow_add₀ (by norm_num)]; rfl
  have p1 : (0 : ℚ) < 2 ^ (987 : Int) := zpow_pos (by norm_num) _
  have p2 : (0 : ℚ) < 2 ^ (-1025 : Int) := zpow_pos (by norm_num) _
  rw [h1, h2]
  clear h1 h2
  generalize (2 : ℚ) ^ (987 : Int) = x at *
  generalize (2 : ℚ) ^ (-1025 : Int) = y at *
  refine ⟨?_, ?_, ?_, ?_⟩
  · rw [abs_of_nonneg (by positivity)]; norm_num
  · rw [abs_of_nonneg (by norm_num; positivity)]; norm_num
  · rw [abs_of_nonneg (by norm_num; positivity)]; norm_num; linarith
  · rw [abs_of_nonneg (by positivity)]; norm_num; linarith

theorem witness_float_representable : FpParts.normalized ⟨false, 4, 2 ^ 35⟩ ∧
    FpParts.value ⟨false, 4, 2 ^ 35⟩ = floatValue 0o2003400000000000#48 + floatValue 0o2003400000000000#48 := by
  rw [float_four]
  refine ⟨?_, ?_⟩ <;> norm_num [FpParts.normalized, FpParts.value]

/-- ScaleA, ScaleAQ: a count for either kind of operand; A zero with Q not the same zero is neither zero of AQ. -/
theorem witness_scale : base.indirectAtomic (.index .b1) 0o57#15 = some (some .b1, 0o57#15) ∧
    base.indirectAtomic .direct 0#15 = some (none, 0#15) ∧
    double 0#48 1#48 ≠ 0#96 ∧ double 0#48 1#48 ≠ BitVec.allOnes 96 ∧
    double 0o7777777777777777#48 0o7777777777777777#48 = BitVec.allOnes 96 := by decide

/-! Jumps, stops, searches, transfers. -/

/-- ConditionalJumps: each register condition met and not met, by zeros of either sign where they matter. -/
theorem witness_jump : regCondition .zero 0o7777777777777777#48 ∧ ¬regCondition .zero 1#48 ∧
    regCondition .nonzero 1#48 ∧ ¬regCondition .nonzero 0o7777777777777777#48 ∧ regCondition .plus 0#48 ∧
    ¬regCondition .plus 0o7777777777777777#48 ∧ regCondition .minus 0o7777777777777777#48 ∧
    ¬regCondition .minus 0#48 := by simp [regCondition]

/-- ConditionalJumps and SelectiveStop: a key set and a key up. -/
theorem witness_key : keyCondition .always Keys.none ∧ keyCondition .key2 ⟨false, true, false⟩ ∧
    ¬keyCondition .key3 ⟨false, true, false⟩ := by simp [keyCondition]

/-- StoppedAndBreakpoint and IllegalCodes: stopped at a breakpoint; the load procedure of R423 from reset: Step runs the
zero word of 00000, and the STA and the activate that the operator keys are executed all the same. -/
theorem witness_keyed_after_illegal :
    let press := fun (t : State) (es : List OperatorEvent) =>
      nextOr (step { t with moments := [⟨es.map .operator, []⟩] }) t
    let t := press State.reset [.step]
    let u := press t [.key (.a 0o32000#48), .key (.instruction 0o20000001#24), .step]
    let v := press u [.key (.instruction 0o74100400#24), .step]
    t.run = .stopped .illegal ∧ u.run = .stopped .operator ∧ v.active.c1 = true ∧ v.cr.c1 = ⟨0o400#15, 0o32000#15⟩ ∧
      (nextOr (step { base with breakpoint := some 0o100#15 }) base).run = .stopped .breakpoint := by decide

/-- SelectiveStop: stopped by an SLS whose key is up by now. -/
theorem witness_restart :
    let s := { lower 0o76500300#24 base with run := .stopped .sls }
    s.held = none ∧ decode s.currentBits = .sls .ret .key1 0o300#15 := by decide

/-- IllegalCodes: stopped by one. -/
theorem witness_illegal : (nextOr (step (upper 0o77000000#24 base)) base).run = .stopped .illegal := by decide

/-- SearchList, InputTransfer, OutputTransfer: undisturbed, with and without a register. -/
theorem witness_undisturbed : base.undisturbed ∧ (withB1 4#15 base).undisturbed := by
  unfold State.undisturbed; decide

/-- SearchWordByWord: a list in which the next word is the one at 01001; no search finds it, or every search does; then
an interrupt is due, or not; the last word, and no count. -/
theorem witness_search :
    let s := { list4 1#48 2#48 0#48 0#48 2#15 5#48 7#48 with
      selArith := true, mid := [[], [.clockTick]], clockRunning := true }
    let f := list4 1#48 2#48 0#48 0#48 1#15 0#48 0#48
    s.indirectOperand (.index .b1) 0o1000#15 = some (s.point, some .b1, 0o1000#15) ∧ s.b.get .b1 = 2#15 ∧
      searchFinds .eqs s (s.read (ocAdd 0o1000#15 1#15)) false ∧
      searchFinds .mth s (s.read (ocAdd 0o1000#15 1#15)) false ∧
      searchFinds .ths f (f.read 0o1000#15) true ∧ searchFinds .meq f (f.read 0o1000#15) true ∧ f.b.get .b1 = 1#15 ∧
      s.point.point.interruptDue = false ∧
      (s.write 0#15 0o3777777777777777#48).point.point.interruptDue = true ∧ base.b.get .b1 = 0#15 := by
  refine ⟨by decide, by decide, .inl ⟨rfl, by decide⟩, .inr (.inr (.inr ⟨rfl, by decide⟩)),
    .inr (.inl ⟨rfl, by decide⟩), .inr (.inr (.inl ⟨rfl, by decide⟩)), by decide, by decide, by decide, by decide⟩

/-- InputTransfer: two words at hand for a count of two, for the whole and word by word; one word and no register; none
at hand; no count. -/
theorem witness_input :
    let s := withB1 2#15 { base with equipment := { base.equipment with ch7In := [1#48, 2#48, 3#48] } }
    s.indirectOperand (.index .b1) 5#15 = some (s, some .b1, 5#15) ∧ s.b.get .b1 ≠ 1#15 ∧ base.b.get .b1 = 0#15 ∧
    s.equipment.ch7In = [1#48, 2#48] ++ [3#48] ∧ [1#48, 2#48].length = (s.b.get .b1).toNat ∧ s.mid = [] ∧
      s.interruptDue = false ∧ base.equipment.ch7In = [] ∧ (withB1 1#15 base).b.get .b1 ≠ 0#15 := by decide

/-- OutputTransfer: exactly as many words accepted as are sent; one and no register; none accepted. -/
theorem witness_output :
    let s := withB1 2#15 { base with equipment := { base.equipment with ch7Accept := 2 } }
    s.indirect (.index .b1) 5#15 = some (s, some .b1, 5#15) ∧ (s.b.get .b1).toNat ≤ s.equipment.ch7Accept ∧
      s.equipment.ch7Accept ≠ 0 ∧ s.b.get .b1 ≠ 0#15 ∧ s.b.get .b1 ≠ 1#15 ∧ s.mid = [] ∧
      s.interruptDue = false ∧ base.equipment.ch7Accept = 0 := by decide

/-- ActivateBuffer: a terminal address that differs from the starting address, and one that does not. -/
theorem witness_activate : (0o3#15 = BitVec.ofNat 15 (channelNumber .c3)) ∧
    (base.write 3#15 0o32000#48).read 3#15 = 0o32000#48 ∧ (base.write 2#15 0o600#48).read 2#15 = 0o600#48 := by decide

/-- ReplaceInstructions, InternalSenseCodes, ConsoleCodes: a row of each. -/
theorem witness_rows : (Instr.rao .direct 0o300#15 = .rao .direct 0o300#15 ∧ (1#48 : Word) = 1#48) ∧
    (0o60 = 8 * channelNumber .c6 ∧ false = base.active.get .c6) ∧
    (0o2000 = 512 * channelNumber .c2 ∧ false = base.extInt.get (.channel .c2)) ∧
    (0o11200 = 0o11200 ∧ true = base.console.endOfTape) := by decide

/-- EveryCodeCompletes: codes in no list, a listed sense, the first and the last external code. -/
theorem witness_codes : selectCodeListed 0o300#15 = false ∧ selectCodeListed 0o70000#15 = false ∧
    senseCodeListed 0o131#15 = true ∧ senseCodeListed 0o32000#15 = true ∧ (0o10000#15 : Addr).toNat / 4096 = 1 ∧
    (0o67777#15 : Addr).toNat / 4096 = 6 ∧ consoleSelect 0o32005#15 = none ∧ consoleCondition 0o67777#15 = none := by
  decide

/-- EveryCodeCompletes and ConsoleCodes: another equipment selected on channel 2 leaves the punch selected (log 22). -/
theorem witness_shared_channel :
    after (exec (.exf .select 0o22000#15) { base with console := { base.console with output := .punch true } })
      fun t => t.console.output == .punch true && t.equipment.selects == [0o22000#15] := by decide

/-- BufferWord: an input channel about to reach its terminal address, an inactive one, a hung typewriter. -/
theorem witness_buffer :
    let s := { base with
      active := { base.active with c2 := true, c5 := true }, cr := { base.cr with c5 := ⟨0o77777#15, 0#15⟩ }
      console := { base.console with output := .typewriter true, hung := true } }
    s.active.get .c5 = true ∧ (s.cr.get .c5).u + 1#15 = (s.cr.get .c5).l ∧ s.active.get .c1 = false ∧
      s.console.outputHung = true ∧ s.active.get .c2 = true ∧ base.console.outputHung = false := by decide

/-- ClockAdvance: stopped, running, and on the advance that overflows. -/
theorem witness_clock : base.clockRunning = false ∧
    ((State.write { base with clockRunning := true } 0#15 0o3777777777777777#48).deliver
      (.io .clockTick)).faults.clockOverflow = true ∧
    (State.deliver { base with clockRunning := true } (.io .clockTick)).faults.clockOverflow = false := by decide

/-! FaultIndicators and SwitchesAndSelections. -/

/-- Indicators that stand stay; a divide, a shift and an exponent fault arise. -/
theorem witness_faults :
    (after (exec (.lda .direct 0o300#15) { base with faults := ⟨true, true, true, true, true, false, false⟩ })
      fun t => t.faults == ⟨true, true, true, true, true, false, false⟩) ∧
    (after (exec (.dvi .direct 0o300#15) base) fun t => t.faults.divide) ∧
    (after (exec (.als .direct 128#15) base) fun t => t.faults.shift) ∧
    (after (exec (.sbl .direct 0o300#15) (with300 0o3777777777777777#48 0o7777777777777777#48 0o7777777777777776#48))
      fun t => t.faults.overflow) ∧
    after (exec (.fad .direct 0o300#15) (with300 0o3777400000000000#48 0#48 0o3777400000000000#48)) fun t =>
      t.faults.exponent := by decide

/-- The lockout stays; a search that is interrupted sets it. -/
theorem witness_lockout :
    (after (exec (.lda .direct 0o300#15) { base with lockout := true }) fun t => t.lockout) ∧
    after (exec (.eqs (.index .b1) 0o1000#15) { list4 1#48 2#48 0#48 0#48 2#15 5#48 7#48 with
      selArith := true, faults := { Faults.none with overflow := true } }) fun t => t.lockout && t.b.b1 == 1#15 := by
  decide

end Sys2Proof.Tests
end

/-! PROOFS. One's complement arithmetic and partial stores (spec/00_scope.md R9 to R11, R15; R81, R101):
the rules of the operations first, for every width, then the statements they settle. -/

namespace Sys2Proof.Machine

/-! ### One's complement addition, at every width (R10) -/

/-- The largest pattern is 2^n - 1. -/
theorem toNat_le_ones {n : Nat} (x : BitVec n) : x.toNat ≤ 2 ^ n - 1 := Nat.le_sub_one_of_lt x.isLt

/-- Negative zero is the largest pattern. -/
theorem eq_allOnes_iff_toNat {n : Nat} (x : BitVec n) : x = BitVec.allOnes n ↔ x.toNat = 2 ^ n - 1 := by
  rw [BitVec.toNat_eq, BitVec.toNat_allOnes]

/-- The formula of R10: both branches of the sum fit the register, so nothing is lost modulo 2^n. -/
theorem ocAdd_toNat {n : Nat} (x y : BitVec n) :
    (ocAdd x y).toNat =
      if 2 ^ n - 1 ≤ x.toNat + y.toNat then x.toNat + y.toNat - (2 ^ n - 1) else x.toNat + y.toNat := by
  have hpos : 0 < 2 ^ n := Nat.two_pow_pos n
  have hx := toNat_le_ones x
  have hy := toNat_le_ones y
  unfold ocAdd
  by_cases hcarry : 2 ^ n - 1 ≤ x.toNat + y.toNat
  · have hfits : x.toNat + y.toNat - (2 ^ n - 1) < 2 ^ n := by omega
    simp [hcarry, Nat.mod_eq_of_lt hfits]
  · have hfits : x.toNat + y.toNat < 2 ^ n := by omega
    simp [hcarry, Nat.mod_eq_of_lt hfits]

theorem ocAdd_toNat_mod {n : Nat} (x y : BitVec n) :
    (ocAdd x y).toNat % (2 ^ n - 1) = (x.toNat + y.toNat) % (2 ^ n - 1) := by
  rw [ocAdd_toNat]
  split
  next hcarry => exact (Nat.mod_eq_sub_mod hcarry).symm
  next => rfl

/-- The rule of the zeros: a sum is negative zero only when both terms are. -/
theorem ocAdd_eq_allOnes_iff {n : Nat} (x y : BitVec n) :
    ocAdd x y = BitVec.allOnes n ↔ x = BitVec.allOnes n ∧ y = BitVec.allOnes n := by
  have hx := toNat_le_ones x
  have hy := toNat_le_ones y
  simp only [eq_allOnes_iff_toNat, ocAdd_toNat]
  split <;> omega

theorem ocAdd_comm {n : Nat} (x y : BitVec n) : ocAdd x y = ocAdd y x := by
  unfold ocAdd
  rw [Nat.add_comm]

/-- Subtraction adds the one's complement (R10). -/
theorem ocSub_eq {n : Nat} (x y : BitVec n) : ocSub x y = ocAdd x (~~~y) := rfl

/-- Settles O18, for every width, from the formula of the sum. -/
theorem onesComplementAddition : Obligations.OnesComplementAddition := fun _ x y =>
  ⟨ocAdd_toNat x y, ocAdd_toNat_mod x y, ocAdd_eq_allOnes_iff x y, ocAdd_comm x y, ocSub_eq x y⟩

/-! ### Signed values and overflow, at every width with a sign bit (R9, R11) -/

/-- The sign bit is 1 exactly in the upper half of the patterns. -/
theorem msb_iff_le_toNat {k : Nat} (x : BitVec (k + 1)) : x.msb = true ↔ 2 ^ k ≤ x.toNat := by
  simp [BitVec.msb_eq_decide]

/-- With sign bit 0 the signed value is the pattern. -/
theorem sval_of_msb_false {n : Nat} {x : BitVec n} (h : x.msb = false) : sval x = x.toNat := by
  simp [sval, h]

/-- With sign bit 1 the signed value is the pattern less 2^n - 1. -/
theorem sval_of_msb_true {n : Nat} {x : BitVec n} (h : x.msb = true) :
    sval x = x.toNat - ((2 ^ n - 1 : Nat) : Int) := by
  have hx := toNat_le_ones x
  simp only [sval, h, if_true, cmpl, BitVec.toNat_not]
  omega

/-- With sign bit 0 the signed value is not negative and within the capacity of the register. -/
theorem sval_bounds_of_msb_false {k : Nat} {x : BitVec (k + 1)} (h : x.msb = false) :
    0 ≤ sval x ∧ sval x ≤ ((2 ^ k - 1 : Nat) : Int) := by
  have hlow : ¬2 ^ k ≤ x.toNat := by simp [← msb_iff_le_toNat, h]
  rw [sval_of_msb_false h]
  omega

/-- With sign bit 1 the signed value is not positive and within the capacity of the register. -/
theorem sval_bounds_of_msb_true {k : Nat} {x : BitVec (k + 1)} (h : x.msb = true) :
    -((2 ^ k - 1 : Nat) : Int) ≤ sval x ∧ sval x ≤ 0 := by
  have hhigh := (msb_iff_le_toNat x).1 h
  have hx := toNat_le_ones x
  rw [sval_of_msb_true h]
  rw [Nat.pow_succ'] at hx ⊢
  generalize 2 ^ k = half at hx hhigh ⊢
  omega

/-- Every signed value lies within the capacity of the register. -/
theorem sval_bounds {k : Nat} (x : BitVec (k + 1)) :
    -((2 ^ k - 1 : Nat) : Int) ≤ sval x ∧ sval x ≤ ((2 ^ k - 1 : Nat) : Int) := by
  cases h : x.msb with
  | false =>
    have := sval_bounds_of_msb_false h
    omega
  | true =>
    have := sval_bounds_of_msb_true h
    omega

/-- The signed value and the pattern agree modulo 2^n - 1. -/
theorem sval_modEq_toNat {n : Nat} (x : BitVec n) : sval x ≡ x.toNat [ZMOD (2 ^ n - 1 : Nat)] := by
  cases h : x.msb with
  | false => rw [sval_of_msb_false h]
  | true =>
    rw [sval_of_msb_true h]
    exact Int.modEq_iff_dvd.2 ⟨1, by ring⟩

/-- One's complement addition is addition of the signed values modulo 2^n - 1. -/
theorem sval_ocAdd_modEq {n : Nat} (x y : BitVec n) : sval (ocAdd x y) ≡ sval x + sval y [ZMOD (2 ^ n - 1 : Nat)] :=
  calc sval (ocAdd x y)
    _ ≡ (ocAdd x y).toNat [ZMOD (2 ^ n - 1 : Nat)] := sval_modEq_toNat _
    _ ≡ x.toNat + y.toNat [ZMOD (2 ^ n - 1 : Nat)] := by exact_mod_cast Int.natCast_modEq_iff.2 (ocAdd_toNat_mod x y)
    _ ≡ sval x + sval y [ZMOD (2 ^ n - 1 : Nat)] := ((sval_modEq_toNat x).add (sval_modEq_toNat y)).symm

/-- R11's definition: the true sum lies outside the capacity of the register. -/
theorem ocOvf_iff_sum {k : Nat} (x y : BitVec (k + 1)) :
    ocOvf x y = true ↔
      sval x + sval y < -((2 ^ k - 1 : Nat) : Int) ∨ ((2 ^ k - 1 : Nat) : Int) < sval x + sval y := by
  simp only [ocOvf, Bool.or_eq_true, decide_eq_true_eq, Nat.add_sub_cancel]

/-- Without overflow the sum is exact: it is congruent to the true sum modulo 2^(k+1) - 1, and both lie in a range
shorter than the modulus. -/
theorem sval_ocAdd_of_not_ocOvf {k : Nat} {x y : BitVec (k + 1)} (h : ocOvf x y = false) :
    sval (ocAdd x y) = sval x + sval y := by
  have hpos : 0 < 2 ^ k := Nat.two_pow_pos k
  have hones : 2 ^ (k + 1) = 2 * 2 ^ k := Nat.pow_succ'
  have hin := (ocOvf_iff_sum x y).not.1 (by simp [h])
  have hsum := sval_bounds (ocAdd x y)
  have hdvd := (sval_ocAdd_modEq x y).dvd
  have hdist : |sval x + sval y - sval (ocAdd x y)| < ((2 ^ (k + 1) - 1 : Nat) : Int) := by
    rw [abs_lt, hones]
    generalize 2 ^ k = half at hpos hin hsum ⊢
    omega
  have := Int.eq_zero_of_abs_lt_dvd hdvd hdist
  omega

/-- The sign bit of a sum, by where the patterns' plain sum lies: in the upper half before the end-around carry, or in
it after the carry. -/
theorem ocAdd_msb_iff {k : Nat} (x y : BitVec (k + 1)) :
    (ocAdd x y).msb = true ↔
      (2 ^ k ≤ x.toNat + y.toNat ∧ x.toNat + y.toNat < 2 * 2 ^ k - 1) ∨ 3 * 2 ^ k - 1 ≤ x.toNat + y.toNat := by
  have hpos : 0 < 2 ^ k := Nat.two_pow_pos k
  rw [msb_iff_le_toNat, ocAdd_toNat, Nat.pow_succ']
  split <;> omega

/-- Terms of different signs never overflow. -/
theorem ocOvf_of_msb_ne {k : Nat} {x y : BitVec (k + 1)} (h : x.msb ≠ y.msb) : ocOvf x y = false := by
  rw [← Bool.not_eq_true, ocOvf_iff_sum]
  cases hx : x.msb with
  | false =>
    have hy : y.msb = true := by simpa [hx] using h
    have := sval_bounds_of_msb_false hx
    have := sval_bounds_of_msb_true hy
    omega
  | true =>
    have hy : y.msb = false := by simpa [hx] using h
    have := sval_bounds_of_msb_true hx
    have := sval_bounds_of_msb_false hy
    omega

/-- Two terms of sign bit 0 overflow when the sum has sign bit 1. -/
theorem ocOvf_iff_of_msb_false {k : Nat} {x y : BitVec (k + 1)} (hx : x.msb = false) (hy : y.msb = false) :
    ocOvf x y = true ↔ (ocAdd x y).msb = true := by
  have hpos : 0 < 2 ^ k := Nat.two_pow_pos k
  have hxlow : ¬2 ^ k ≤ x.toNat := by simp [← msb_iff_le_toNat, hx]
  have hylow : ¬2 ^ k ≤ y.toNat := by simp [← msb_iff_le_toNat, hy]
  rw [ocOvf_iff_sum, ocAdd_msb_iff, sval_of_msb_false hx, sval_of_msb_false hy]
  generalize 2 ^ k = half at *
  omega

/-- Two terms of sign bit 1 overflow when the sum has sign bit 0. -/
theorem ocOvf_iff_of_msb_true {k : Nat} {x y : BitVec (k + 1)} (hx : x.msb = true) (hy : y.msb = true) :
    ocOvf x y = true ↔ (ocAdd x y).msb = false := by
  have hpos : 0 < 2 ^ k := Nat.two_pow_pos k
  have hxhigh := (msb_iff_le_toNat x).1 hx
  have hyhigh := (msb_iff_le_toNat y).1 hy
  have hxones := toNat_le_ones x
  have hyones := toNat_le_ones y
  rw [ocOvf_iff_sum, ← Bool.not_eq_true, ocAdd_msb_iff, sval_of_msb_true hx, sval_of_msb_true hy]
  rw [Nat.pow_succ'] at hxones hyones ⊢
  generalize 2 ^ k = half at *
  omega

/-- R11's equivalent: terms of one sign with a sum of the other sign. -/
theorem ocOvf_iff_msb {k : Nat} (x y : BitVec (k + 1)) :
    ocOvf x y = true ↔ x.msb = y.msb ∧ (ocAdd x y).msb ≠ x.msb := by
  by_cases hsign : x.msb = y.msb
  · cases hx : x.msb with
    | false => simp [ocOvf_iff_of_msb_false hx (hsign ▸ hx), ← hsign, hx]
    | true => simp [ocOvf_iff_of_msb_true hx (hsign ▸ hx), ← hsign, hx]
  · simp [ocOvf_of_msb_ne hsign, hsign]

/-- Settles O19: the general facts at 48 bits. -/
theorem overflowPredicate : Obligations.OverflowPredicate := by
  intro x y
  refine ⟨ocOvf_iff_sum (k := 47) x y, ?_, sval_ocAdd_of_not_ocOvf (k := 47)⟩
  simpa only [BitVec.msb_eq_getLsbD_last] using ocOvf_iff_msb (k := 47) x y

/-! ### Partial stores (R15, R81, R101) -/

/-- A write replaces the word at its address and no other (R15). -/
theorem State.storedAt_write (s : State) (m : Addr) (w : Word) : storedAt s (s.write m w) m w :=
  ⟨s.read_write_same m w, fun _ h => s.read_write_other w h⟩

/-- The bits of a word with its upper address replaced (R101). -/
theorem getLsbD_setUpperAddress (w : Word) (y : Addr) (i : Nat) :
    (setUpperAddress w y).getLsbD i = if 24 ≤ i ∧ i < 39 then y.getLsbD (i - 24) else w.getLsbD i := by
  simp only [setUpperAddress, BitVec.getLsbD_append, BitVec.getLsbD_extractLsb']
  by_cases hlow : i < 24
  · simp [hlow]
  · by_cases hupper : i < 39
    · have h15 : i - 24 < 15 := by omega
      simp [hlow, hupper, h15]
    · have h15 : ¬i - 24 < 15 := by omega
      have hi : 39 + (i - 24 - 15) = i := by omega
      have hword : w.getLsbD i = true → i - 24 - 15 < 9 := fun h => by
        have := BitVec.lt_of_getLsbD h
        omega
      simpa [hlow, hupper, h15, hi] using hword

/-- The bits of a word with its lower address replaced (R101). -/
theorem getLsbD_setLowerAddress (w : Word) (y : Addr) (i : Nat) :
    (setLowerAddress w y).getLsbD i = if i < 15 then y.getLsbD i else w.getLsbD i := by
  simp only [setLowerAddress, BitVec.getLsbD_append, BitVec.getLsbD_extractLsb']
  by_cases hlow : i < 15
  · simp [hlow]
  · have hi : 15 + (i - 15) = i := by omega
    have hword : w.getLsbD i = true → i - 15 < 33 := fun h => by
      have := BitVec.lt_of_getLsbD h
      omega
    simpa [hlow, hi] using hword

theorem upperReplaced_setUpperAddress (w : Word) (y : Addr) : upperReplaced w (setUpperAddress w y) y := by
  refine ⟨BitVec.eq_of_getLsbD_eq fun i hi => ?_, fun i hi => ?_⟩
  · have : 24 + i < 39 := by omega
    simp [upperAddress, getLsbD_setUpperAddress, hi, this]
  · rw [getLsbD_setUpperAddress, if_neg (by omega)]

theorem lowerReplaced_setLowerAddress (w : Word) (y : Addr) : lowerReplaced w (setLowerAddress w y) y := by
  refine ⟨BitVec.eq_of_getLsbD_eq fun i hi => ?_, fun i hi => ?_⟩
  · simp [lowerAddress, getLsbD_setLowerAddress, hi]
  · rw [getLsbD_setLowerAddress, if_neg (by omega)]

/-- Settles O21: the write's frame, with the word that the partial store composes. -/
theorem partialStores : Obligations.PartialStores := fun s m y =>
  ⟨⟨_, s.storedAt_write m _, upperReplaced_setUpperAddress (s.read m) y⟩,
    _, s.storedAt_write m _, lowerReplaced_setLowerAddress (s.read m) y⟩

end Sys2Proof.Machine

/-! PROOFS. The state as a whole (spec/10_state.md R31, R34, R35, R41 to R46; spec/60_exceptions.md R365 to R370, R383):
the master clears and reset; then what an instruction can do to the machine, said once as the acts it is made of; and
from these acts the fault indicators, the switches and selections, and the invariant that every step keeps. -/

namespace Sys2Proof.Machine

/-! ### Master clear and reset (R46, R420) -/

theorem IndexRegs.get_cleared (r : IndexReg) : IndexRegs.get ⟨0#15, 0#15, 0#15, 0#15, 0#15, 0#15⟩ r = 0#15 := by
  cases r <;> rfl

/-- Settles O9, field by field of the two clears. -/
theorem masterClear : Obligations.MasterClear := by
  refine ⟨?internal, ?external⟩
  case internal =>
    rintro s t rfl
    exact ⟨rfl, rfl, IndexRegs.get_cleared, rfl, rfl, rfl, rfl, rfl, rfl, PerChannel.get_all false,
      PerChannel.get_all false, PerLine.get_all false, rfl, rfl, rfl, rfl, State.read_congr rfl, rfl, rfl, rfl, rfl,
      rfl, rfl, rfl, rfl⟩
  case external =>
    rintro s t rfl
    exact ⟨rfl, PerLine.get_all false⟩

/-- Settles O10, field by field of the state after reset. -/
theorem resetState : Obligations.ResetState :=
  ⟨rfl, rfl, IndexRegs.get_cleared, rfl, rfl, rfl, rfl, rfl, rfl, rfl, rfl, PerChannel.get_all false, rfl, rfl, rfl,
    fun _ => rfl⟩

/-- Settles O11: no channel is active after reset, and storage lists nothing. -/
theorem invariantAtReset : Obligations.InvariantAtReset where
  memory := State.reset_mem_wf
  mask := rfl
  storage := rfl
  exit := by simp [State.reset]
  buffers c h := by simp [State.reset] at h

/-! ### The instructions that the rules on indicators and on the lockout name -/

/-- The instructions that can set the divide fault (R366). -/
def setsDivide (i : Instr) : Prop := ∃ b m, i = .dvi b m ∨ i = .dvf b m

/-- The instructions that can set the shift fault (R367). -/
def setsShift (i : Instr) : Prop :=
  ∃ b k, i = .ars b k ∨ i = .qrs b k ∨ i = .lrs b k ∨ i = .als b k ∨ i = .qls b k ∨ i = .lls b k

/-- The instructions that can set the overflow fault (R183, R368; log 36). -/
def setsOverflow (i : Instr) : Prop :=
  ∃ b m, i = .add b m ∨ i = .sub b m ∨ i = .ina b m ∨ i = .adl b m ∨ i = .sbl b m ∨ i = .rad b m ∨ i = .rsb b m ∨
    i = .rao b m ∨ i = .rso b m

/-- The instructions that can set the exponent fault (R369). -/
def setsExponent (i : Instr) : Prop := ∃ b m, i = .fad b m ∨ i = .fsb b m ∨ i = .fmu b m ∨ i = .fdv b m

/-- The instructions that an interrupt can abandon between their words (R376(b)). -/
def movesWords (i : Instr) : Prop :=
  ∃ b m, i = .eqs b m ∨ i = .ths b m ∨ i = .meq b m ∨ i = .mth b m ∨ i = .int b m ∨ i = .out b m

/-! ### Acts: the single changes that the events of the other agents and the instructions are made of -/

/-- One change that an agent other than the program and the operator can make; a program can make it too. -/
inductive IoAct : State → State → Prop
  /-- The lines, the equipment, the progress of Auto Load and of the script. -/
  | outside {s t : State}
      (h : t = { s with
        extInt := t.extInt, console := t.console, equipment := t.equipment, bootWritten := t.bootWritten
        mid := t.mid }) : IoAct s t
  | store (s : State) (m : Addr) (w : Word) : IoAct s (s.write m w)
  /-- Both addresses of a buffer channel, which is active while they differ (R313, R316). -/
  | channel (s : State) (c : Channel) (u l : Addr) :
      IoAct s { s with cr := s.cr.set c ⟨u, l⟩, active := s.active.set c (decide (u ≠ l)) }
  | clockOverflow (s : State) (x : Bool) : IoAct s (s.setClockOverflowIf x)

/-- Any number of them. -/
abbrev IoActs : State → State → Prop := Relation.ReflTransGen IoAct

/-- One change that instruction i can make, or that another agent makes at one of its points. -/
inductive Act (i : Instr) : State → State → Prop
  | io {s t : State} (h : IoAct s t) : Act i s t
  /-- The operational registers, control, and the instruction held. -/
  | registers {s t : State}
      (h : t = { s with
        a := t.a, q := t.q, b := t.b, p := t.p, u1 := t.u1, half := t.half, run := t.run, held := t.held
        freeCount := t.freeCount }) : Act i s t
  | jump (s : State) (m : Addr) : Act i s (s.jump m)
  | divideFault (s : State) (hi : setsDivide i) : Act i s s.setDivideFault
  | shiftFault (s : State) (x : Bool) (hi : setsShift i) : Act i s (s.setShiftFaultIf x)
  | overflow (s : State) (x : Bool) (hi : setsOverflow i) : Act i s (s.setOverflowIf x)
  | exponentFault (s : State) (hi : setsExponent i) : Act i s s.setExponentFault
  /-- A floating division by zero leaves the exponent indicator open (U7; log 12). -/
  | freeExponent (s : State) (x : Bool) (hi : ∃ b m, i = .fdv b m) :
      Act i s { s with faults := { s.faults with exponent := x } }
  | interrupt (s : State) (hi : movesWords i) : Act i s s.interruptEntry
  | select (s : State) (y : Addr) (hi : i = .exf .select y) : Act i s (s.select y)

/-- Any number of them, one after the other. -/
abbrev Acts (i : Instr) : State → State → Prop := Relation.ReflTransGen (Act i)

/-! ### What the other agents do is made of acts (R83, R84, R316, R332, R398) -/

theorem IoActs.nil {s : State} : IoActs s s := .refl

/-- One more change outside the computer. -/
theorem IoActs.outside {s t u : State} (h : IoActs s t)
    (hu : u = { t with
      extInt := u.extInt, console := u.console, equipment := u.equipment, bootWritten := u.bootWritten
      mid := u.mid }) : IoActs s u :=
  h.tail (.outside hu)

theorem IoActs.store {s t : State} (h : IoActs s t) (m : Addr) (w : Word) : IoActs s (t.write m w) :=
  h.tail (.store t m w)

theorem bufferStep_ioActs (s : State) (c : Channel) (w : Word) : IoActs s (s.bufferStep c w) := by
  cases hready : s.bufferReady c with
  | false =>
    rw [State.bufferStep_of_not_ready w hready]
  | true =>
    cases hinput : Channel.isInput c with
    | true =>
      rw [State.bufferStep_input w hready hinput]
      exact (IoActs.nil.store _ w).tail (.channel _ c _ _)
    | false =>
      rw [State.bufferStep_output w hready hinput]
      exact (IoActs.outside (u := s.sendBuffer c _) .nil rfl).tail (.channel _ c _ _)

theorem clockAdvance_ioActs (s : State) : IoActs s s.clockAdvance := by
  unfold State.clockAdvance
  split
  next => exact (IoActs.nil.store _ _).tail (.clockOverflow _ _)
  next => exact .nil

theorem readerFrame_ioActs (s : State) (f : BitVec 7) : IoActs s (s.readerFrame f) := by
  unfold State.readerFrame
  dsimp only
  split_ifs
  · exact .outside .nil rfl
  · exact (IoActs.outside .nil rfl).trans (bufferStep_ioActs _ _ _)
  · exact .outside .nil rfl
  · exact bufferStep_ioActs s _ _
  · exact .nil

theorem deliverConsole_ioActs (s : State) (e : ConsoleEvent) : IoActs s (s.deliverConsole e) := by
  cases e with
  | keyStrike c =>
    simp only [State.deliverConsole]
    split
    next => exact bufferStep_ioActs s _ _
    next => exact .nil
  | readerFrame f => exact readerFrame_ioActs s f
  | carriageReturn | typewriterCase | typewriterHang | readerSwitch | punchMotorSwitch | punchSupply =>
    exact .outside .nil rfl

theorem autoLoadWord_ioActs (s : State) : IoActs s s.autoLoadWord := by
  rcases s.autoLoadWord_cases with ⟨_, hsame⟩ | ⟨m, w, _, hwritten⟩
  · rw [hsame]
  · rw [hwritten]
    exact .outside (IoActs.nil.store m w) rfl

theorem deliverIo_ioActs (s : State) (e : IoEvent) : IoActs s (s.deliverIo e) := by
  cases e with
  | bufferWord c w => exact bufferStep_ioActs s c w
  | clockTick => exact clockAdvance_ioActs s
  | autoLoadWord => exact autoLoadWord_ioActs s
  | console e => exact deliverConsole_ioActs s e
  | line | answers | ch7Deliver | ch7Accept => exact .outside .nil rfl

/-- At a point the script's next events happen, and the script goes on (R84). -/
theorem point_ioActs (s : State) : IoActs s s.point := by
  cases hmid : s.mid with
  | nil =>
    rw [State.point_of_quiet hmid]
  | cons es rest =>
    rw [State.point_of_events hmid]
    exact List.foldlRecOn es State.deliverIo (.outside .nil rfl) fun t h e _ => h.trans (deliverIo_ioActs t e)

/-! ### The operations of an instruction are made of acts

Each lemma takes the acts up to a state and gives those up to the state after one operation more. -/

theorem Acts.nil {i : Instr} {s : State} : Acts i s s := .refl

/-- One more change of the operational registers and of control. -/
theorem Acts.registers {i : Instr} {s t u : State} (h : Acts i s t)
    (hu : u = { t with
      a := u.a, q := u.q, b := u.b, p := u.p, u1 := u.u1, half := u.half, run := u.run, held := u.held
      freeCount := u.freeCount }) : Acts i s u :=
  h.tail (.registers hu)

theorem Acts.ioActs {i : Instr} {s t u : State} (h : Acts i s t) (hu : IoActs t u) : Acts i s u :=
  h.trans (Relation.ReflTransGen.mono (fun _ _ => Act.io) t u hu)

section
variable {i : Instr} {s t : State}

theorem Acts.point (h : Acts i s t) : Acts i s t.point := h.ioActs (point_ioActs t)

theorem Acts.store (h : Acts i s t) (m : Addr) (w : Word) : Acts i s (t.write m w) := h.tail (.io (.store t m w))

theorem Acts.setB (h : Acts i s t) (r : Option IndexReg) (y : Addr) : Acts i s (t.setB r y) := by
  cases r with
  | none => exact h
  | some r => exact .registers h rfl

theorem Acts.goNext (h : Acts i s t) : Acts i s t.goNext := by
  rw [State.goNext_eq_advanced]
  exact .registers h rfl

theorem Acts.exitIf (h : Acts i s t) (c : Bool) : Acts i s (t.exitIf c) := by
  cases c <;> exact .registers h rfl

theorem Acts.jump (h : Acts i s t) (m : Addr) : Acts i s (t.jump m) := h.tail (.jump t m)

theorem Acts.enterLower (h : Acts i s t) (m ret : Addr) : Acts i s (t.enterLower m ret) :=
  .registers (h.store m (setUpperAddress (t.read m) ret)) rfl

theorem Acts.jumpBy (h : Acts i s t) (j : JumpKind) (m : Addr) : Acts i s (t.jumpBy j m) := by
  cases j with
  | normal => exact h.jump m
  | ret => exact h.point.enterLower m _

theorem Acts.addToA (h : Acts i s t) (hi : setsOverflow i) (x y : Word) : Acts i s (t.addToA x y) :=
  .registers (h.tail (.overflow t (ocOvf x y) hi)) rfl

theorem Acts.replaceWith (h : Acts i s t) (hi : setsOverflow i) (m : Addr) (x : Word) :
    Acts i s (t.replaceWith m x) :=
  ((h.point.addToA hi _ x).store m _).goNext

theorem Acts.divideFault (h : Acts i s t) (hi : setsDivide i) : Acts i s t.divideFault :=
  .registers (h.tail (.divideFault t hi)) rfl

theorem Acts.fpResult (h : Acts i s t) (hi : setsExponent i) (v : Exact) : Acts i s (t.fpResult v) := by
  unfold State.fpResult
  split
  next => exact .registers h rfl
  next =>
    dsimp only
    rcases State.fpFinish_cases t _ _ _ _ with hfault | ⟨e, c, hpacked, _, _⟩
    · rw [hfault]
      exact .registers (h.tail (.exponentFault t hi)) rfl
    · rw [hpacked]
      exact .registers h rfl

theorem Acts.fpDivideByZero (h : Acts i s t) (hi : ∃ b m, i = .fdv b m) : Acts i s t.fpDivideByZero :=
  (Acts.registers (u := t.freeAQ) h rfl).tail (.freeExponent _ (Config.freeBit t.freeCount) hi)

theorem Acts.searchEnd (h : Acts i s t) (found : Bool) : Acts i s (t.searchEnd found) := by
  cases found with
  | true => exact h.exitIf true
  | false => exact h.goNext

theorem Acts.wait (h : Acts i s t) (j : Instr) : Acts i s (t.wait j) := .registers h rfl

theorem Acts.inputWord (h : Acts i s t) (m : Addr) (w : Word) (rest : List Word) :
    Acts i s (t.inputWord m w rest) :=
  (h.store m w).ioActs (.outside .nil rfl)

theorem Acts.outputWord (h : Acts i s t) (w : Word) : Acts i s (t.outputWord w) := h.ioActs (.outside .nil rfl)

/-- Between two words the instruction is abandoned for an interrupt, or goes on (R376(b)). -/
theorem Acts.betweenWords (h : Acts i s t) (hi : movesWords i) {goOn : State → State}
    (hgo : ∀ u, Acts i u (goOn u)) : Acts i s (t.betweenWords goOn) := by
  rcases t.betweenWords_cases goOn with ⟨_, habandoned⟩ | ⟨_, hon⟩
  · rw [habandoned]
    exact h.point.tail (.interrupt _ hi)
  · rw [hon]
    exact h.point.trans (hgo _)

/-- A channel is activated: the point, the starting address into the control word, both addresses into CR (R313). -/
theorem Acts.activate (h : Acts i s t) (c : Channel) (y : Addr) : Acts i s (t.activate c y) :=
  (h.point.store _ _).tail (.io (.channel _ c y _))

theorem Acts.senseExit (h : Acts i s t) (y : Addr) : Acts i s (t.senseExit y) := by
  unfold State.senseExit
  split
  next c _ => exact h.exitIf c
  next => exact (Acts.registers h rfl).exitIf _

end

/-! ### The words of a search or a transfer (R280, R302, R303) -/

theorem searchWords_acts {i : Instr} (hi : movesWords i) (found : Word → Bool) (r : IndexReg) (m : Addr) (n : Nat)
    (s : State) : Acts i s (searchWords found r m n s) := by
  induction n generalizing s with
  | zero => exact Acts.nil.searchEnd false
  | succ n ih =>
    rw [searchWords_succ found r m n rfl]
    have hcount : Acts i s (s.point.setB (some r) (dec15 (s.point.b.get r))) := Acts.nil.point.setB _ _
    split_ifs
    · exact hcount.searchEnd true
    · exact hcount.searchEnd false
    · exact hcount.betweenWords hi ih

theorem inputWords_acts {i : Instr} (hi : movesWords i) (r : IndexReg) (m : Addr) (n : Nat) (s : State) :
    Acts i s (inputWords r m n s) := by
  induction n generalizing s with
  | zero => exact Acts.nil.goNext
  | succ n ih =>
    rw [inputWords_succ]
    split
    next => exact Acts.nil.point.wait _
    next w rest _ =>
      have hword := ((Acts.nil (i := i) (s := s)).point.setB (some r) (dec15 (s.point.b.get r))).inputWord
        (ocAdd m (dec15 (s.point.b.get r))) w rest
      dsimp only
      split_ifs
      · exact hword.goNext
      · exact hword.betweenWords hi ih

theorem outputWords_acts {i : Instr} (hi : movesWords i) (r : IndexReg) (m : Addr) (n : Nat) (s : State) :
    Acts i s (outputWords r m n s) := by
  induction n generalizing s with
  | zero => exact Acts.nil.goNext
  | succ n ih =>
    rw [outputWords_succ r m n rfl]
    have hword := ((Acts.nil (i := i) (s := s)).point.setB (some r) (dec15 (s.point.b.get r))).outputWord
      (s.point.read (ocAdd m (dec15 (s.point.b.get r))))
    split_ifs
    · exact Acts.nil.point.wait _
    · exact hword.goNext
    · exact hword.betweenWords hi ih

/-! ### The operand forms (R76 to R78) -/

/-- The references of a chain are points of other agents, and nothing else. -/
theorem indirectWithin_ioActs {s u : State} {n : Nat} {b : Designator} {e m : Addr} {r : Option IndexReg}
    (h : s.indirectWithin n b e = some (u, r, m)) : IoActs s u := by
  induction n generalizing s b e with
  | zero =>
    cases b with
    | direct | index => cases h; exact .nil
    | indirect => cases h
  | succ n ih =>
    cases b with
    | direct | index => cases h; exact .nil
    | indirect => exact (point_ioActs s).trans (ih h)

theorem indirect_ioActs {s u : State} {b : Designator} {e m : Addr} {r : Option IndexReg}
    (h : s.indirect b e = some (u, r, m)) : IoActs s u :=
  indirectWithin_ioActs h

theorem resolveAll_ioActs {s u : State} {b : Designator} {e m : Addr} (h : s.resolveAll b e = some (u, m)) :
    IoActs s u := by
  obtain ⟨r, e', hchain, _⟩ := State.resolveAll_eq_some.1 h
  exact indirect_ioActs hchain

section
variable {i : Instr} {s t : State} {b : Designator} {e : Addr}

theorem withAddress_acts {run : State → Addr → State} (h : withAddress s b e run = .next t)
    (hrun : ∀ u m, Acts i u (run u m)) : Acts i s t := by
  obtain ⟨u, m, hresolved, rfl⟩ := withAddress_eq_next.1 h
  exact (Acts.nil.ioActs (resolveAll_ioActs hresolved)).trans (hrun u m)

theorem withOperand_acts {run : State → Addr → State} (h : withOperand s b e run = .next t)
    (hrun : ∀ u m, Acts i u (run u m)) : Acts i s t := by
  obtain ⟨u, m, hoperand, rfl⟩ := withOperand_eq_next.1 h
  obtain ⟨v, hresolved, rfl⟩ := State.operand_eq_some.1 hoperand
  exact (Acts.nil.ioActs (resolveAll_ioActs hresolved)).point.trans (hrun v.point m)

theorem withIndex_acts {run : State → Option IndexReg → Addr → State} (h : withIndex s b e run = .next t)
    (hrun : ∀ u r m, Acts i u (run u r m)) : Acts i s t := by
  obtain ⟨u, r, m, hchain, rfl⟩ := withIndex_eq_next.1 h
  exact (Acts.nil.ioActs (indirect_ioActs hchain)).trans (hrun u r m)

theorem withIndirectOperand_acts {run : State → Option IndexReg → Addr → State}
    (h : withIndirectOperand s b e run = .next t) (hrun : ∀ u r m, Acts i u (run u r m)) : Acts i s t := by
  obtain ⟨u, r, m, hoperand, rfl⟩ := withIndirectOperand_eq_next.1 h
  obtain ⟨v, hchain, rfl⟩ := State.indirectOperand_eq_some.1 hoperand
  exact (Acts.nil.ioActs (indirect_ioActs hchain)).point.trans (hrun v.point r m)

theorem withAtomic_acts {run : State → Addr → State} (h : withAtomic s b e run = .next t)
    (hrun : ∀ m, Acts i s (run s m)) : Acts i s t := by
  obtain ⟨m, _, rfl⟩ := withAtomic_eq_next.1 h
  exact hrun m

theorem withAtomicIndex_acts {run : State → Option IndexReg → Addr → State}
    (h : withAtomicIndex s b e run = .next t) (hrun : ∀ r m, Acts i s (run s r m)) : Acts i s t := by
  obtain ⟨r, m, _, rfl⟩ := withAtomicIndex_eq_next.1 h
  exact hrun r m

/-- A shift by any count sets the shift fault or leaves it, and changes A and Q (R150). -/
theorem shiftBy_acts {shift : State → Nat → State} (h : shiftBy b e s shift = .next t) (hi : setsShift i)
    (hshift : ∀ u k, Acts i u (shift u k)) : Acts i s t := by
  obtain ⟨m, _, rfl⟩ := shiftBy_eq_next.1 h
  exact Acts.goNext ((Acts.nil.tail (.shiftFault s _ hi)).trans (hshift _ _))

theorem search_acts {found : Word → Bool} (h : search found b e s = .next t) (hi : movesWords i) : Acts i s t := by
  rcases search_eq_next.1 h with ⟨u, m, hchain, rfl⟩ | ⟨u, r, m, hchain, rfl⟩
  · exact (Acts.nil.ioActs (indirect_ioActs hchain)).point.searchEnd _
  · exact (Acts.nil.ioActs (indirect_ioActs hchain)).trans (searchWords_acts hi found r m _ u)

end

/-! ### What an instruction can do -/

/-- Every instruction is made of acts: its form's points, then the operations of its meaning. -/
theorem exec_acts {i : Instr} {s t : State} (h : exec i s = .next t) : Acts i s t := by
  cases i with dsimp only [exec] at h
  | zro | sev => cases h; exact .registers .nil rfl
  | ars | qrs | lrs | als | qls | lls =>
    exact shiftBy_acts h (by simp [setsShift]) fun _ _ => .registers .nil rfl
  | enq | ena => exact withAddress_acts h fun _ _ => Acts.goNext (.registers .nil rfl)
  | ina => exact withAddress_acts h fun _ _ => (Acts.nil.addToA (by simp [setsOverflow]) _ _).goNext
  | lda | lac | ldq | lqc | sst | scl | scm | ssu | ldl =>
    exact withOperand_acts h fun _ _ => Acts.goNext (.registers .nil rfl)
  | sta | stq | stl | sau | sal => exact withOperand_acts h fun _ _ => (Acts.nil.store _ _).goNext
  | add | sub | adl | sbl =>
    exact withOperand_acts h fun _ _ => (Acts.nil.addToA (by simp [setsOverflow]) _ _).goNext
  | rad | rsb | rao | rso =>
    exact withOperand_acts h fun _ _ => Acts.nil.replaceWith (by simp [setsOverflow]) _ _
  | ssk => exact withOperand_acts h fun _ _ => Acts.nil.exitIf _
  | ssh => exact withOperand_acts h fun _ _ => (Acts.nil.point.store _ _).exitIf _
  | liu | lil => exact withIndirectOperand_acts h fun _ _ _ => (Acts.nil.setB _ _).goNext
  | siu | sil => exact withIndirectOperand_acts h fun _ _ _ => (Acts.nil.store _ _).goNext
  | eni | ini => exact withIndex_acts h fun _ _ _ => (Acts.nil.setB _ _).goNext
  | isk =>
    refine withIndex_acts h fun u r m => ?_
    split
    next => exact (Acts.nil.setB _ _).exitIf true
    next => exact (Acts.nil.setB _ _).exitIf false
  | ijp =>
    refine withIndex_acts h fun u r m => ?_
    split
    next => exact Acts.nil.goNext
    next => exact (Acts.nil.setB _ _).jump m
  | mui | muf => exact withAtomic_acts h fun _ => Acts.goNext (.registers .nil rfl)
  | dvi | dvf =>
    refine withAtomic_acts h fun m => ?_
    dsimp only
    split
    next => exact (Acts.nil.divideFault (by simp [setsDivide])).goNext
    next => exact Acts.goNext (.registers .nil rfl)
  | fad | fsb | fmu => exact withAtomic_acts h fun _ => (Acts.nil.fpResult (by simp [setsExponent]) _).goNext
  | fdv =>
    refine withAtomic_acts h fun m => ?_
    split
    next => exact (Acts.nil.fpDivideByZero ⟨_, _, rfl⟩).goNext
    next => exact (Acts.nil.fpResult (by simp [setsExponent]) _).goNext
  | sca | scq =>
    refine withAtomicIndex_acts h fun r k => ?_
    dsimp only
    split
    next => exact (Acts.nil.setB _ _).goNext
    next => exact (Acts.setB (.registers .nil rfl) _ _).goNext
  | eqs | ths | meq | mth => exact search_acts h (by simp [movesWords])
  | int =>
    refine withIndex_acts h fun u r m => ?_
    cases r with
    | none =>
      dsimp only
      split
      next => exact Acts.nil.point.wait _
      next w rest _ => exact (Acts.nil.point.inputWord _ w rest).goNext
    | some r => exact inputWords_acts (by simp [movesWords]) r m _ u
  | out =>
    refine withIndex_acts h fun u r m => ?_
    cases r with
    | none =>
      dsimp only
      split
      next => exact Acts.nil.point.wait _
      next => exact (Acts.nil.point.outputWord _).goNext
    | some r => exact outputWords_acts (by simp [movesWords]) r m _ u
  | exf j y =>
    cases j with
    | select => cases h; exact Acts.goNext (.single (.select s y rfl))
    | activate c => cases h; exact (Acts.nil.activate c y).goNext
    | sense => cases h; exact Acts.nil.senseExit y
  | ajp j c m | qjp j c m | slj j c m =>
    cases h
    split
    next => exact Acts.nil.jumpBy j m
    next => exact Acts.nil.goNext
  | sls j c m =>
    cases h
    split
    next => exact .registers .nil rfl
    next => exact Acts.nil.jumpBy j m

/-! ### Fault indicators (R31, R365 to R369) -/

/-- From x to y a flip-flop is left as it is, or set where that is allowed. -/
def Raised (allowed : Prop) (x y : Bool) : Prop := y = x ∨ (allowed ∧ y = true)

theorem Raised.same {allowed : Prop} {x y : Bool} (h : y = x) : Raised allowed x y := .inl h

theorem Raised.set {allowed : Prop} {x y : Bool} (h : allowed) (hy : y = true) : Raised allowed x y := .inr ⟨h, hy⟩

theorem Raised.or {allowed : Prop} (h : allowed) (x y : Bool) : Raised allowed x (x || y) := by
  cases y with
  | false => exact .same (Bool.or_false x)
  | true => exact .set h (Bool.or_true x)

theorem Raised.trans {allowed : Prop} {x y z : Bool} (hxy : Raised allowed x y) (hyz : Raised allowed y z) :
    Raised allowed x z := by
  rcases hyz with hsame | hset
  · exact hsame ▸ hxy
  · exact .inr hset

theorem Raised.stays_set {allowed : Prop} {x y : Bool} (h : Raised allowed x y) (hx : x = true) : y = true := by
  rcases h with hsame | ⟨_, hset⟩
  · exact hsame.trans hx
  · exact hset

theorem Raised.allowed_of_set {allowed : Prop} {x y : Bool} (h : Raised allowed x y) (hx : x = false)
    (hy : y = true) : allowed := by
  rcases h with hsame | ⟨hallowed, _⟩
  · simp [hx, hy] at hsame
  · exact hallowed

/-- What instruction i can do to the indicators f, other than by clearing all arithmetic faults: it only sets those it
is named for. The exponent indicator is open after a floating division by zero. -/
structure FaultsRaised (i : Instr) (f g : Faults) : Prop where
  divide : Raised (setsDivide i) f.divide g.divide
  shift : Raised (setsShift i) f.shift g.shift
  overflow : Raised (setsOverflow i) f.overflow g.overflow
  clockOverflow : Raised True f.clockOverflow g.clockOverflow
  exponent : (∀ b m, i ≠ .fdv b m) → Raised (setsExponent i) f.exponent g.exponent

theorem FaultsRaised.refl (i : Instr) (f : Faults) : FaultsRaised i f f :=
  ⟨.same rfl, .same rfl, .same rfl, .same rfl, fun _ => .same rfl⟩

theorem FaultsRaised.trans {i : Instr} {f g k : Faults} (h : FaultsRaised i f g) (h' : FaultsRaised i g k) :
    FaultsRaised i f k where
  divide := h.divide.trans h'.divide
  shift := h.shift.trans h'.shift
  overflow := h.overflow.trans h'.overflow
  clockOverflow := h.clockOverflow.trans h'.clockOverflow
  exponent hi := (h.exponent hi).trans (h'.exponent hi)

/-- A code found in a table stands in it. -/
theorem mem_of_lookup_eq_some {α β : Type} [BEq α] [LawfulBEq α] {l : List (α × β)} {k : α} {x : β}
    (h : l.lookup k = some x) : (k, x) ∈ l := by
  obtain ⟨l₁, l₂, rfl, _⟩ := List.lookup_eq_some_iff.1 h
  simp

/-- The code that clears the arithmetic faults is `00070` (R318). -/
theorem internalSelect_eq_clearFaults {y : Addr} (h : internalSelect y = some .clearFaults) : y = 0o70#15 := by
  have hmem := mem_of_lookup_eq_some h
  simpa [selectTable] using hmem

/-- No other select changes a fault indicator (R318). -/
theorem State.select_faults {s : State} {y : Addr} (hy : y ≠ 0o70#15) : (s.select y).faults = s.faults := by
  unfold State.select
  split
  next =>
    cases hcode : internalSelect y with
    | none => rfl
    | some e =>
      cases e with
      | clearFaults => exact absurd (internalSelect_eq_clearFaults hcode) hy
      | interruptInactive | interruptFaults | clock | clearCarriageReturn => rfl
  next => cases codeBufferChannel y <;> rfl

theorem IoAct.faultsRaised {i : Instr} {s t : State} (h : IoAct s t) : FaultsRaised i s.faults t.faults := by
  cases h with
  | outside h => rw [h]; exact .refl i _
  | store | channel => exact .refl i _
  | clockOverflow x => exact { FaultsRaised.refl i s.faults with clockOverflow := .or trivial _ x }

theorem Act.faultsRaised {i : Instr} (hclear : i ≠ .exf .select 0o70#15) {s t : State} (h : Act i s t) :
    FaultsRaised i s.faults t.faults := by
  have hsame := FaultsRaised.refl i s.faults
  cases h with
  | io h => exact h.faultsRaised
  | registers h => rw [h]; exact hsame
  | jump | interrupt => exact hsame
  | divideFault hi => exact { hsame with divide := .set hi rfl }
  | shiftFault x hi => exact { hsame with shift := .or hi _ x }
  | overflow x hi => exact { hsame with overflow := .or hi _ x }
  | exponentFault hi => exact { hsame with exponent := fun _ => .set hi rfl }
  | freeExponent x hi =>
    obtain ⟨b, m, hfdv⟩ := hi
    exact { hsame with exponent := fun hne => absurd hfdv (hne b m) }
  | select y hi =>
    have hy : y ≠ 0o70#15 := fun e => hclear (e ▸ hi)
    rw [State.select_faults hy]
    exact hsame

theorem Acts.faultsRaised {i : Instr} (hclear : i ≠ .exf .select 0o70#15) {s t : State} (h : Acts i s t) :
    FaultsRaised i s.faults t.faults := by
  induction h with
  | refl => exact .refl i _
  | tail _ hact ih => exact ih.trans (hact.faultsRaised hclear)

/-- Settles O59: each act leaves an indicator as it is, or sets one the instruction is named for. -/
theorem faultIndicators : Obligations.FaultIndicators := by
  intro i s t h hclear
  have hraised := (exec_acts h).faultsRaised hclear
  refine ⟨hraised.divide.stays_set, hraised.shift.stays_set, hraised.overflow.stays_set,
    hraised.clockOverflow.stays_set, fun hi => (hraised.exponent hi).stays_set, hraised.divide.allowed_of_set,
    hraised.shift.allowed_of_set, hraised.overflow.allowed_of_set, ?_⟩
  by_cases hfdv : ∃ b m, i = .fdv b m
  · obtain ⟨b, m, rfl⟩ := hfdv
    exact fun _ _ => ⟨b, m, by simp⟩
  · exact (hraised.exponent fun b m e => hfdv ⟨b, m, e⟩).allowed_of_set

/-! ### Switches, selections and the lockout (R34, R41 to R43, R376, R405) -/

/-- What instruction i leaves alone of the controls and of the interrupt system from s to t. -/
structure ControlsKept (i : Instr) (s t : State) : Prop where
  jumpKey : t.jumpKey = s.jumpKey
  stopKey : t.stopKey = s.stopKey
  breakpoint : t.breakpoint = s.breakpoint
  modeSwitch : t.modeSwitch = s.modeSwitch
  singleStep : t.singleStep = s.singleStep
  params : t.params = s.params
  imr : t.imr = s.imr
  moments : t.moments = s.moments
  selections : (∀ y, i ≠ .exf .select y) →
    t.selArith = s.selArith ∧ t.selInactive = s.selInactive ∧ t.clockRunning = s.clockRunning
  lockout : Raised (movesWords i) s.lockout t.lockout

theorem ControlsKept.refl (i : Instr) (s : State) : ControlsKept i s s :=
  ⟨rfl, rfl, rfl, rfl, rfl, rfl, rfl, rfl, fun _ => ⟨rfl, rfl, rfl⟩, .same rfl⟩

theorem ControlsKept.trans {i : Instr} {s t u : State} (h : ControlsKept i s t) (h' : ControlsKept i t u) :
    ControlsKept i s u where
  jumpKey := h'.jumpKey.trans h.jumpKey
  stopKey := h'.stopKey.trans h.stopKey
  breakpoint := h'.breakpoint.trans h.breakpoint
  modeSwitch := h'.modeSwitch.trans h.modeSwitch
  singleStep := h'.singleStep.trans h.singleStep
  params := h'.params.trans h.params
  imr := h'.imr.trans h.imr
  moments := h'.moments.trans h.moments
  selections hi := by
    obtain ⟨harith, hinactive, hclock⟩ := h.selections hi
    obtain ⟨harith', hinactive', hclock'⟩ := h'.selections hi
    exact ⟨harith'.trans harith, hinactive'.trans hinactive, hclock'.trans hclock⟩
  lockout := h.lockout.trans h'.lockout

/-- A select writes selections, the clock's running, faults and equipment alone (R311, R318, R334). -/
theorem State.select_eq (s : State) (y : Addr) :
    s.select y =
      { s with
        selArith := (s.select y).selArith, selInactive := (s.select y).selInactive
        clockRunning := (s.select y).clockRunning
        faults := { (s.select y).faults with oddStorage := s.faults.oddStorage, evenStorage := s.faults.evenStorage }
        console := (s.select y).console, equipment := (s.select y).equipment } := by
  unfold State.select
  split
  next =>
    cases internalSelect y with
    | none => rfl
    | some e => cases e <;> rfl
  next => cases codeBufferChannel y <;> rfl

theorem IoAct.controlsKept {i : Instr} {s t : State} (h : IoAct s t) : ControlsKept i s t := by
  cases h with
  | outside h => rw [h]; exact { ControlsKept.refl i s with }
  | store | channel | clockOverflow => exact { ControlsKept.refl i s with }

theorem Act.controlsKept {i : Instr} {s t : State} (h : Act i s t) : ControlsKept i s t := by
  have hsame := ControlsKept.refl i s
  cases h with
  | io h => exact h.controlsKept
  | registers h => rw [h]; exact { hsame with }
  | jump | divideFault | shiftFault | overflow | exponentFault | freeExponent => exact { hsame with }
  | interrupt hi => exact { hsame with lockout := .set hi rfl }
  | select y hi =>
    rw [State.select_eq]
    exact { hsame with selections := fun hne => absurd hi (hne y) }

theorem Acts.controlsKept {i : Instr} {s t : State} (h : Acts i s t) : ControlsKept i s t := by
  induction h with
  | refl => exact .refl i s
  | tail _ hact ih => exact ih.trans hact.controlsKept

/-- Settles O60: of the acts only a select writes selections, and only an interrupt between words sets the lockout. -/
theorem switchesAndSelections : Obligations.SwitchesAndSelections := by
  intro i s t h
  have hkept := (exec_acts h).controlsKept
  exact ⟨hkept.jumpKey, hkept.stopKey, hkept.breakpoint, hkept.modeSwitch, hkept.singleStep, hkept.params, hkept.imr,
    hkept.moments, hkept.selections, hkept.lockout.stays_set, hkept.lockout.allowed_of_set⟩

/-! ### The invariant: what each operation keeps (R35, R70, R313, R316, R370, R383)

A change of fields that `State.Inv` does not speak of keeps it by repacking its clauses (`{ h with }`). -/

theorem State.Inv.store {s : State} (h : s.Inv) (m : Addr) (w : Word) : (s.write m w).Inv :=
  { h with memory := State.write_wf m w h.memory }

/-- A channel that is given two addresses is active only while they differ. -/
theorem State.Inv.channel {s : State} (h : s.Inv) (c : Channel) (u l : Addr) :
    State.Inv { s with cr := s.cr.set c ⟨u, l⟩, active := s.active.set c (decide (u ≠ l)) } :=
  { h with
    buffers := fun d hd => by
      by_cases hcd : d = c
      · subst hcd
        simpa using hd
      · rw [PerChannel.get_set_other _ _ hcd] at hd ⊢
        exact h.buffers d hd }

/-- A jump sets `int_exit` only under the lockout. -/
theorem State.Inv.jump {s : State} (h : s.Inv) (m : Addr) : (s.jump m).Inv :=
  { h with
    exit := fun hexit => by
      simp only [State.jump_intExit, Bool.or_eq_true, Bool.and_eq_true] at hexit
      rcases hexit with hbefore | ⟨hlockout, _⟩
      · exact h.exit hbefore
      · exact hlockout }

theorem State.Inv.enterLower {s : State} (h : s.Inv) (m ret : Addr) : (s.enterLower m ret).Inv := by
  rw [State.enterLower_eq]
  exact { h with memory := Memory.wf_write _ m.isLt h.memory }

/-- An interrupt entry sets the lockout and clears `int_exit`. -/
theorem State.Inv.interruptEntry {s : State} (h : s.Inv) : s.interruptEntry.Inv := by
  have hentered := h.enterLower s.entryAddress s.p
  rw [State.interruptEntry_eq]
  exact { hentered with exit := fun _ => rfl }

theorem State.Inv.select {s : State} (h : s.Inv) (y : Addr) : (s.select y).Inv := by
  rw [State.select_eq]
  exact { h with }

/-- The lockout and `int_exit` fall together. -/
theorem State.Inv.releaseLockout {t : State} (h : t.Inv) (s : State) : (s.releaseLockout t).Inv := by
  rcases s.releaseLockout_cases t with ⟨hfalls, _⟩ | ⟨hstays, _⟩
  · rw [hfalls]
    exact { h with exit := fun hexit => absurd hexit Bool.false_ne_true }
  · rw [hstays]
    exact h

theorem IoAct.keeps_inv {s t : State} (h : IoAct s t) (hs : s.Inv) : t.Inv := by
  cases h with
  | outside h => rw [h]; exact { hs with }
  | store m w => exact hs.store m w
  | channel c u l => exact hs.channel c u l
  | clockOverflow => exact { hs with }

theorem IoActs.keeps_inv {s t : State} (h : IoActs s t) (hs : s.Inv) : t.Inv := by
  induction h with
  | refl => exact hs
  | tail _ hact ih => exact hact.keeps_inv ih

theorem Act.keeps_inv {i : Instr} {s t : State} (h : Act i s t) (hs : s.Inv) : t.Inv := by
  cases h with
  | io h => exact h.keeps_inv hs
  | registers h => rw [h]; exact { hs with }
  | jump m => exact hs.jump m
  | divideFault | shiftFault | overflow | exponentFault | freeExponent => exact { hs with }
  | interrupt => exact hs.interruptEntry
  | select y => exact hs.select y

theorem Acts.keeps_inv {i : Instr} {s t : State} (h : Acts i s t) (hs : s.Inv) : t.Inv := by
  induction h with
  | refl => exact hs
  | tail _ hact ih => exact hact.keeps_inv ih

theorem State.Inv.point {s : State} (h : s.Inv) : s.point.Inv := (point_ioActs s).keeps_inv h

/-! ### The operator and the script (R41 to R43, R361 to R364, R420 to R424) -/

theorem State.Inv.internalClear {s : State} (h : s.Inv) : s.internalClear.Inv where
  memory := h.memory
  mask := rfl
  storage := rfl
  exit hexit := absurd hexit Bool.false_ne_true
  buffers c hactive := by simp [State.internalClear] at hactive

theorem State.Inv.resumeStop {s : State} (h : s.Inv) : s.resumeStop.Inv := by
  unfold State.resumeStop
  split
  next => exact h
  next =>
    split
    next j c m _ =>
      have hjumps : Acts (.sls j c m) s (s.jumpBy j m) := Acts.nil.jumpBy j m
      exact (hjumps.keeps_inv h).releaseLockout s
    next => exact h

theorem State.Inv.operatorStart {s : State} (h : s.Inv) : s.operatorStart.Inv := by
  have hresumed := h.resumeStop
  unfold State.operatorStart
  cases s.run with
  | running => exact { h with }
  | stopped why =>
    cases why with
    | illegal => exact h
    | sls => exact { hresumed with }
    | breakpoint | operator | clear => exact { h with }

theorem State.Inv.operatorStep {s : State} (h : s.Inv) : s.operatorStep.Inv := by
  have hresumed := h.resumeStop
  unfold State.operatorStep
  cases s.run with
  | running => exact { h with }
  | stopped why =>
    cases why with
    | illegal => exact h
    | sls =>
      cases s.held with
      | some i => exact { h with }
      | none => exact { hresumed with }
    | breakpoint | operator | clear => exact { h with }

theorem State.Inv.rekeyed {s : State} (h : s.Inv) : s.rekeyed.Inv := by
  rcases s.rekeyed_cases with ⟨_, hstop⟩ | ⟨_, hsame⟩
  · rw [hstop]
    exact { h with }
  · rw [hsame]
    exact h

theorem State.Inv.keyIn {s : State} (h : s.Inv) (r : KeyedRegister) : (s.keyIn r).Inv := by
  have hrekeyed := h.rekeyed
  cases r with
  | a | q | index => exact { h with }
  | p => exact { hrekeyed with }
  | instruction w =>
    unfold State.keyIn
    cases s.half <;> exact { hrekeyed with }

theorem State.Inv.autoLoadStart {s : State} (h : s.Inv) : s.autoLoadStart.Inv := by
  by_cases hwritten : s.bootWritten = 3
  · rw [State.autoLoadStart_of_written hwritten]
    exact { h with }
  · rw [State.autoLoadStart_of_not_written hwritten]
    exact h

theorem State.Inv.deliver {s : State} (h : s.Inv) (e : Event) : (s.deliver e).Inv := by
  cases e with
  | io e => exact (deliverIo_ioActs s e).keeps_inv h
  | operator e =>
    cases e with
    | jumpKeys | stopKeys | breakpoint | modeSwitch | externalClear => exact { h with }
    | key r =>
      by_cases hrun : s.run = .running
      · simpa [State.deliver, State.deliverOperator, hrun] using h
      · simpa [State.deliver, State.deliverOperator, hrun] using h.keyIn r
    | start => exact h.operatorStart
    | step => exact h.operatorStep
    | internalClear => exact h.internalClear
    | autoLoadStart => exact h.autoLoadStart

theorem State.Inv.beginTurn {s : State} (h : s.Inv) : s.beginTurn.Inv := by
  unfold State.beginTurn
  split
  next => exact { h with }
  next m rest _ => exact List.foldlRecOn m.events State.deliver { h with } fun t ht e _ => ht.deliver e

/-! ### The turn of the control section (R108) -/

theorem State.Inv.complete {t : State} (h : t.Inv) (s : State) (i : Instr) : (s.complete i t).Inv := by
  have hreleased := h.releaseLockout s
  unfold State.complete
  dsimp only
  split
  next => split_ifs <;> exact { hreleased with }
  next => exact { h with }

theorem State.Inv.sweepOn {s : State} (h : s.Inv) : s.sweepOn.Inv := by
  unfold State.sweepOn
  rw [State.goNext_eq_advanced]
  dsimp only
  split <;> exact { h with }

theorem executeCurrent_keeps_inv {s t : State} (hs : s.Inv) (h : executeCurrent s = .next t) : t.Inv := by
  rcases executeCurrent_cases s with ⟨_, hsweep⟩ | ⟨u, hexec, hnext⟩ | ⟨_, _, hfault⟩ | ⟨_, _, hrefused⟩
  · cases hsweep.symm.trans h
    exact hs.sweepOn
  · have hbegun : s.beginInstr.Inv := { hs with }
    cases hnext.symm.trans h
    exact ((exec_acts hexec).keeps_inv hbegun).complete _ _
  · cases hfault.symm.trans h
  · cases hrefused.symm.trans h

theorem programTurn_keeps_inv {s t : State} (hs : s.Inv) (h : programTurn s = .next t) : t.Inv := by
  rcases programTurn_cases s with ⟨_, hrefused⟩ | ⟨_, hheld⟩ | ⟨_, _, hentry⟩ | ⟨_, _, hlower⟩ | ⟨_, _, hbreak⟩ |
    ⟨_, _, _, hupper⟩
  · cases hrefused.symm.trans h
  · exact executeCurrent_keeps_inv hs (hheld.symm.trans h)
  · have hentered := hs.interruptEntry
    cases hentry.symm.trans h
    exact { hentered with }
  · exact executeCurrent_keeps_inv hs (hlower.symm.trans h)
  · cases hbreak.symm.trans h
    exact { hs with }
  · have hpoint := hs.point
    have hfetched : s.fetchStep.Inv := { hpoint with }
    exact executeCurrent_keeps_inv hfetched (hupper.symm.trans h)

/-- Settles O12: the script's events keep the invariant, and so does the turn of the control section. -/
theorem stepKeepsInvariant : Obligations.StepKeepsInvariant := by
  intro s t hs h
  have hbegun := hs.beginTurn
  rcases step_cases s with ⟨_, _, hstopped⟩ | ⟨_, hturn⟩
  · cases hstopped.symm.trans h
    exact { hbegun with }
  · exact programTurn_keeps_inv hbegun (hturn.symm.trans h)

end Sys2Proof.Machine

/-! PROOFS. Address modification (spec/20_memory.md R76 to R79, R81, R84): what the other agents leave alone at the
points of an operand, the limit on indirect chains, and from these the operand forms. -/

namespace Sys2Proof.Machine

/-! ### What the other agents leave alone (R81, R84, R316) -/

/-- The state with what other agents can change taken from o. -/
def State.withOutside (s o : State) : State :=
  { s with
    mem := o.mem, cr := o.cr, active := o.active, extInt := o.extInt
    faults := { s.faults with clockOverflow := o.faults.clockOverflow }
    console := o.console, equipment := o.equipment, bootWritten := o.bootWritten, mid := o.mid }

/-- What is replaced twice is replaced once. -/
theorem State.withOutside_withOutside (s o o' : State) : (s.withOutside o).withOutside o' = s.withOutside o' := rfl

theorem IoAct.eq_withOutside {s t : State} (h : IoAct s t) : t = s.withOutside t := by
  cases h with
  | outside h => rw [h]; rfl
  | store | channel | clockOverflow => rfl

theorem IoActs.eq_withOutside {s u : State} (h : IoActs s u) : u = s.withOutside u := by
  induction h with
  | refl => rfl
  | @tail t u _ hact ih =>
    calc u = t.withOutside u := hact.eq_withOutside
      _ = (s.withOutside t).withOutside u := by rw [← ih]
      _ = s.withOutside u := s.withOutside_withOutside t u

theorem IoAct.clockOverflow_stays {s t : State} (h : IoAct s t) (hs : s.faults.clockOverflow = true) :
    t.faults.clockOverflow = true := by
  cases h with
  | outside h => rw [h]; exact hs
  | store | channel => exact hs
  | clockOverflow x => simp [State.setClockOverflowIf, hs]

theorem IoActs.clockOverflow_stays {s u : State} (h : IoActs s u) (hs : s.faults.clockOverflow = true) :
    u.faults.clockOverflow = true := by
  induction h with
  | refl => exact hs
  | tail _ hact ih => exact hact.clockOverflow_stays ih

/-- From s to u other agents alone have acted, at points of the script. -/
structure ByOtherAgents (s u : State) : Prop where
  acts : IoActs s u
  quiet : s.mid = [] → u = s

theorem ByOtherAgents.point (s : State) : ByOtherAgents s s.point := ⟨point_ioActs s, State.point_of_quiet⟩

theorem ByOtherAgents.trans {s t u : State} (h : ByOtherAgents s t) (h' : ByOtherAgents t u) : ByOtherAgents s u where
  acts := h.acts.trans h'.acts
  quiet hs := by
    obtain rfl := h.quiet hs
    exact h'.quiet hs

theorem ByOtherAgents.indirect {s u : State} {b : Designator} {e m : Addr} {r : Option IndexReg}
    (h : s.indirect b e = some (u, r, m)) : ByOtherAgents s u :=
  ⟨indirect_ioActs h, fun hs => State.indirectWithin_state_of_quiet hs h⟩

theorem ByOtherAgents.resolveAll {s u : State} {b : Designator} {e m : Addr} (h : s.resolveAll b e = some (u, m)) :
    ByOtherAgents s u := by
  obtain ⟨r, e', hchain, _⟩ := State.resolveAll_eq_some.1 h
  exact .indirect hchain

theorem ByOtherAgents.operand {s u : State} {b : Designator} {e m : Addr} (h : s.operand b e = some (u, m)) :
    ByOtherAgents s u := by
  obtain ⟨v, hresolved, rfl⟩ := State.operand_eq_some.1 h
  exact (ByOtherAgents.resolveAll hresolved).trans (.point v)

theorem ByOtherAgents.indirectOperand {s u : State} {b : Designator} {e m : Addr} {r : Option IndexReg}
    (h : s.indirectOperand b e = some (u, r, m)) : ByOtherAgents s u := by
  obtain ⟨v, hchain, rfl⟩ := State.indirectOperand_eq_some.1 h
  exact (ByOtherAgents.indirect hchain).trans (.point v)

/-- Settles O58: the references of every form are made by acts of other agents, and each act leaves the rest alone. -/
theorem otherAgentsFrame : Obligations.OtherAgentsFrame := by
  intro s u b e h
  have hothers : ByOtherAgents s u := by
    rcases h with rfl | ⟨m, h⟩ | ⟨m, h⟩ | ⟨r, m, h⟩ | ⟨r, m, h⟩
    · exact .point s
    · exact .resolveAll h
    · exact .operand h
    · exact .indirect h
    · exact .indirectOperand h
  exact ⟨hothers.acts.eq_withOutside, hothers.acts.clockOverflow_stays, hothers.quiet⟩

/-- Settles O17: a sum is negative zero only when both terms are, and the chain leaves the index registers alone. -/
theorem modifiedAddressNegativeZero : Obligations.ModifiedAddressNegativeZero := by
  have hzero : (0o77777#15 : Addr) = BitVec.allOnes 15 := rfl
  refine ⟨fun s u b e => ?_, rfl, rfl, rfl, rfl, rfl⟩
  rw [State.resolveAll_eq_some]
  refine exists_congr fun r => exists_congr fun e' => and_congr_right fun hchain => ?_
  have hb : u.b = s.b := by rw [(ByOtherAgents.indirect hchain).acts.eq_withOutside]; rfl
  cases r with
  | none => simp [State.modified]
  | some r => simpa only [State.modified, hb, hzero, Option.some.injEq, forall_eq'] using ocAdd_eq_allOnes_iff _ _

/-! ### The script at a point (R84) -/

theorem bufferStep_mid (s : State) (c : Channel) (w : Word) : (s.bufferStep c w).mid = s.mid := by
  cases hready : s.bufferReady c with
  | false => rw [State.bufferStep_of_not_ready w hready]
  | true =>
    cases hinput : Channel.isInput c with
    | true => rw [State.bufferStep_input w hready hinput]
    | false => rw [State.bufferStep_output w hready hinput]; rfl

theorem readerFrame_mid (s : State) (f : BitVec 7) : (s.readerFrame f).mid = s.mid := by
  unfold State.readerFrame
  dsimp only
  split_ifs
  · rfl
  · exact bufferStep_mid _ _ _
  · rfl
  · exact bufferStep_mid s _ _
  · rfl

theorem deliverConsole_mid (s : State) (e : ConsoleEvent) : (s.deliverConsole e).mid = s.mid := by
  cases e with
  | keyStrike c =>
    unfold State.deliverConsole
    split_ifs
    · exact bufferStep_mid s _ _
    · rfl
  | readerFrame f => exact readerFrame_mid s f
  | carriageReturn | typewriterCase | typewriterHang | readerSwitch | punchMotorSwitch | punchSupply => rfl

/-- No event of another agent changes what the script still holds. -/
theorem deliverIo_mid (s : State) (e : IoEvent) : (s.deliverIo e).mid = s.mid := by
  cases e with
  | bufferWord c w => exact bufferStep_mid s c w
  | clockTick =>
    unfold State.deliverIo State.clockAdvance
    split_ifs <;> rfl
  | autoLoadWord =>
    unfold State.deliverIo
    rcases s.autoLoadWord_cases with ⟨_, hsame⟩ | ⟨m, w, _, hwritten⟩
    · rw [hsame]
    · rw [hwritten]
  | console e => exact deliverConsole_mid s e
  | line | answers | ch7Deliver | ch7Accept => rfl

/-- A point uses up one entry of the script. -/
theorem State.point_mid (s : State) : s.point.mid = s.mid.tail := by
  cases hmid : s.mid with
  | nil => rw [State.point_of_quiet hmid, hmid]; rfl
  | cons es rest =>
    rw [State.point_of_events hmid]
    refine List.foldlRecOn (motive := fun t => t.mid = rest) es State.deliverIo ?_ fun t ht e _ => ?_
    · rfl
    · exact (deliverIo_mid t e).trans ht

/-! ### The limit on indirect chains (R77, D18) -/

/-- A pass goes on from the designator and the address in the word at e, referred to after a point (R77, R84). -/
theorem State.indirectWithin_indirect (s : State) (n : Nat) (e : Addr) :
    s.indirectWithin (n + 1) .indirect e =
      s.point.indirectWithin n (designatorOf (indirectDesignator (s.point.read e)))
        (lowerAddress (s.point.read e)) :=
  rfl

/-- A chain that has ended stays ended with more passes. -/
theorem State.indirectWithin_mono {s : State} {n k : Nat} (hnk : n ≤ k) {b : Designator} {e : Addr}
    {x : State × Option IndexReg × Addr} (h : s.indirectWithin n b e = some x) : s.indirectWithin k b e = some x :=
  Nat.le_induction h (fun _ _ => State.indirectWithin_succ) k hnk

/-- The addresses from which an indirect chain ends within n passes. -/
def State.endingWithin (s : State) (n : Nat) : Set Addr := {e | ∃ x, s.indirectWithin n .indirect e = some x}

theorem State.mem_endingWithin {s : State} {n : Nat} {e : Addr} :
    e ∈ s.endingWithin n ↔ ∃ x, s.indirectWithin n .indirect e = some x :=
  .rfl

theorem State.endingWithin_mono (s : State) : Monotone s.endingWithin :=
  monotone_nat_of_le_succ fun _ _ ⟨x, h⟩ => ⟨x, State.indirectWithin_succ h⟩

/-- With nothing in the script, whether a chain ends within one pass more is a matter of its next word alone. -/
theorem State.mem_endingWithin_succ {s : State} (hs : s.mid = []) {n : Nat} {e : Addr} :
    e ∈ s.endingWithin (n + 1) ↔
      (designatorOf (indirectDesignator (s.read e)) = .indirect → lowerAddress (s.read e) ∈ s.endingWithin n) := by
  rw [State.mem_endingWithin, State.mem_endingWithin, State.indirectWithin_indirect, State.point_of_quiet hs]
  cases designatorOf (indirectDesignator (s.read e)) with
  | direct => simp [State.indirectWithin_direct]
  | index r => simp [State.indirectWithin_index]
  | indirect => simp

/-- Once one pass more ends no further chain, no more passes end one. -/
theorem State.endingWithin_stable {s : State} (hs : s.mid = []) {n : Nat}
    (h : s.endingWithin n = s.endingWithin (n + 1)) : s.endingWithin (n + 1) = s.endingWithin (n + 2) := by
  ext e
  rw [State.mem_endingWithin_succ hs, State.mem_endingWithin_succ hs, h]

/-- There are as many addresses as the limit has passes (R70). -/
theorem ncard_addr_le (S : Set Addr) : S.ncard ≤ chainLimit := by
  calc S.ncard ≤ Nat.card Addr := Set.ncard_le_card S
    _ = Nat.card (Fin (2 ^ 15)) := Nat.card_congr BitVec.equivFin.toEquiv
    _ = chainLimit := Nat.card_fin (2 ^ 15)

/-- With nothing in the script every chain that ends does so within the limit: the sets of addresses whose chains have
ended grow with the passes, are at most as large as storage, and stop growing for good where they stop once. -/
theorem State.endingWithin_subset_limit {s : State} (hs : s.mid = []) (n : Nat) :
    s.endingWithin n ⊆ s.endingWithin chainLimit := by
  rcases le_total n chainLimit with hn | hn
  · exact s.endingWithin_mono hn
  · have heq {k : Nat} (hcard : (s.endingWithin k).ncard = (s.endingWithin (k + 1)).ncard) :
        s.endingWithin k = s.endingWithin (k + 1) :=
      Set.eq_of_subset_of_ncard_le (s.endingWithin_mono k.le_succ) hcard.ge
    have hstops : (s.endingWithin n).ncard = (s.endingWithin chainLimit).ncard :=
      Nat.stabilises_of_monotone (f := fun k => (s.endingWithin k).ncard)
        (fun _ _ hkl => Set.ncard_le_ncard (s.endingWithin_mono hkl)) (fun k => ncard_addr_le _)
        (fun k hcard => congrArg Set.ncard (State.endingWithin_stable hs (heq hcard))) hn
    exact (Set.eq_of_subset_of_ncard_le (s.endingWithin_mono hn) hstops.le).ge

theorem State.indirectWithin_limit_of_quiet {s : State} (hs : s.mid = []) {n : Nat} {e : Addr}
    {x : State × Option IndexReg × Addr} (h : s.indirectWithin n .indirect e = some x) :
    s.indirectWithin chainLimit .indirect e = some x := by
  obtain ⟨y, hy⟩ := State.endingWithin_subset_limit hs n ⟨x, h⟩
  have hx := State.indirectWithin_mono (le_max_left n chainLimit) h
  have hxy : some x = some y := hx.symm.trans (State.indirectWithin_mono (le_max_right n chainLimit) hy)
  rw [hxy, hy]

/-- While the script has points left a chain uses one with each pass; after them it has the whole limit. -/
theorem State.indirect_of_indirectWithin {s : State} {n : Nat} {b : Designator} {e : Addr}
    {x : State × Option IndexReg × Addr} (h : s.indirectWithin n b e = some x) : s.indirect b e = some x := by
  induction n generalizing s b e with
  | zero => exact State.indirectWithin_mono (Nat.zero_le _) h
  | succ n ih =>
    cases b with
    | direct => rwa [State.indirectWithin_direct, ← State.indirect_direct] at h
    | index r => rwa [State.indirectWithin_index, ← State.indirect_index] at h
    | indirect =>
      unfold State.indirect
      cases hmid : s.mid with
      | nil =>
        rw [List.length_nil, Nat.zero_add]
        exact State.indirectWithin_limit_of_quiet hmid h
      | cons es rest =>
        have hrest := ih h
        rw [State.indirect, State.point_mid, hmid] at hrest
        rw [List.length_cons, Nat.add_right_comm, State.indirectWithin_indirect]
        exact hrest

theorem State.indirect_eq_some_iff {s : State} {b : Designator} {e : Addr} {x : State × Option IndexReg × Addr} :
    s.indirect b e = some x ↔ ∃ n, s.indirectWithin n b e = some x :=
  ⟨fun h => ⟨_, h⟩, fun ⟨_, h⟩ => State.indirect_of_indirectWithin h⟩

/-- Settles O15: the points of the script first, then the pigeonhole on the addresses of storage. -/
theorem indirectChainLimit : Obligations.IndirectChainLimit := fun _ _ _ _ => State.indirect_eq_some_iff

/-! ### The modes of address modification (R76, R77) -/

/-- A chain goes on from the word it reaches, after the point before the reference to it. -/
theorem State.indirect_indirect (s : State) (e : Addr) :
    s.indirect .indirect e =
      s.point.indirect (designatorOf (indirectDesignator (s.point.read e))) (lowerAddress (s.point.read e)) := by
  ext x
  rw [State.indirect_eq_some_iff, State.indirect_eq_some_iff]
  constructor
  · rintro ⟨_ | n, h⟩
    · cases h
    · exact ⟨n, h⟩
  · rintro ⟨n, h⟩
    exact ⟨n + 1, h⟩

theorem State.resolveAll_indirect (s : State) (e : Addr) :
    s.resolveAll .indirect e =
      s.point.resolveAll (designatorOf (indirectDesignator (s.point.read e))) (lowerAddress (s.point.read e)) := by
  rw [State.resolveAll, State.indirect_indirect, State.resolveAll]

@[simp] theorem State.resolveAll_direct (s : State) (e : Addr) : s.resolveAll .direct e = some (s, e) := by
  simp [State.resolveAll, State.modified]

@[simp] theorem State.resolveAll_index (s : State) (r : IndexReg) (e : Addr) :
    s.resolveAll (.index r) e = some (s, ocAdd e (s.b.get r)) := by
  simp [State.resolveAll, State.modified]

/-- With no other agent acting an atomic form ends in the state it began in. -/
theorem State.resolveAtomic_iff {s : State} {b : Designator} {e k : Addr} :
    s.resolveAtomic b e = some k ↔
      State.resolveAll { s with mid := [] } b e = some ({ s with mid := [] }, k) := by
  rw [State.resolveAtomic_eq_some]
  refine ⟨fun ⟨u, h⟩ => ?_, fun h => ⟨_, h⟩⟩
  have hu := (ByOtherAgents.resolveAll h).quiet rfl
  rwa [hu] at h

theorem State.indirectAtomic_iff {s : State} {b : Designator} {e k : Addr} {r : Option IndexReg} :
    s.indirectAtomic b e = some (r, k) ↔
      State.indirect { s with mid := [] } b e = some ({ s with mid := [] }, r, k) := by
  rw [State.indirectAtomic_eq_some]
  refine ⟨fun ⟨u, h⟩ => ?_, fun h => ⟨_, h⟩⟩
  have hu := (ByOtherAgents.indirect h).quiet rfl
  rwa [hu] at h

/-- Settles O14, form by form. The limit of a chain and that of its tail differ: that both answer the same rests on the
limit losing no chain. -/
theorem addressModification : Obligations.AddressModification := by
  rintro s e w rfl
  refine ⟨s.resolveAll_direct e, fun r => s.resolveAll_index r e, s.resolveAll_indirect e, s.indirect_direct e,
    fun r => s.indirect_index r e, s.indirect_indirect e, fun b => ⟨fun u m => ?_, fun u r m => ?_,
    fun _ => State.resolveAtomic_iff, fun _ _ => State.indirectAtomic_iff⟩⟩
  · simp only [State.operand_eq_some, eq_comm (a := u)]
  · simp only [State.indirectOperand_eq_some, eq_comm (a := u)]

end Sys2Proof.Machine

/-! PROOFS. Encoding and the instruction cycle (spec/30_encoding.md R100 to R108): the fields of a word and the codes of
the designators both ways, from these the two round trips; then the turn of the control section and the illegal
codes. -/

namespace Sys2Proof

/-! ### The fields of a word (R100) -/

theorem decode_instrWord (f : BitVec 6) (j : BitVec 3) (e : Addr) : decode (instrWord f j e) = decodeFields f j e := by
  rw [decode, opcodeField_instrWord, designatorField_instrWord, addressField_instrWord]

/-- The three fields are all of a word: no bit is dropped. -/
theorem instrWord_fields (w : InstrBits) : instrWord (opcodeField w) (designatorField w) (addressField w) = w := by
  have hupper : opcodeField w ++ designatorField w = w.extractLsb' 15 9 :=
    BitVec.extractLsb'_append_extractLsb'_eq_extractLsb' rfl
  have hword : w.extractLsb' 15 9 ++ addressField w = w.extractLsb' 0 24 :=
    BitVec.extractLsb'_append_extractLsb'_eq_extractLsb' rfl
  rw [instrWord, hupper, hword, BitVec.extractLsb'_eq_self]

/-! ### The codes of the designators, both ways (R76, R103, R236, R237, R309) -/

theorem designatorOf_designatorBits (b : Designator) : designatorOf (designatorBits b) = b := by
  cases b with
  | direct | indirect => rfl
  | index r => cases r <;> rfl

theorem exfFunctionOf_exfFunctionBits (j : ExfFunction) : exfFunctionOf (exfFunctionBits j) = j := by
  cases j with
  | select | sense => rfl
  | activate c => cases c <;> rfl

theorem jumpKindOf_append (j : JumpKind) (c : BitVec 2) : jumpKindOf (jumpKindBit j ++ c) = j := by
  rw [jumpKindOf, BitVec.getLsbD_append]
  cases j <;> rfl

theorem low_bits_of_append (x : BitVec 1) (c : BitVec 2) : (x ++ c).extractLsb' 0 2 = c :=
  BitVec.extractLsb'_append_eq_right

theorem regCondOf_append (x : BitVec 1) (c : RegCond) : regCondOf (x ++ regCondBits c) = c := by
  rw [regCondOf, low_bits_of_append]
  cases c <;> rfl

theorem keyCondOf_append (x : BitVec 1) (c : KeyCond) : keyCondOf (x ++ keyCondBits c) = c := by
  rw [keyCondOf, low_bits_of_append]
  cases c <;> rfl

theorem designatorBits_designatorOf : ∀ j : BitVec 3, designatorBits (designatorOf j) = j := by decide

theorem exfFunctionBits_exfFunctionOf : ∀ j : BitVec 3, exfFunctionBits (exfFunctionOf j) = j := by decide

theorem jumpKindBit_append_regCondBits :
    ∀ j : BitVec 3, jumpKindBit (jumpKindOf j) ++ regCondBits (regCondOf j) = j := by decide

theorem jumpKindBit_append_keyCondBits :
    ∀ j : BitVec 3, jumpKindBit (jumpKindOf j) ++ keyCondBits (keyCondOf j) = j := by decide

/-! ### The rows of the opcode table (R103, R104)

A row is given by its operation code and its constructor; the table's entry is the hypothesis. -/

theorem decode_designatorRow {f : BitVec 6} {row : Designator → Addr → Instr}
    (h : ∀ j e, decodeFields f j e = row (designatorOf j) e) (b : Designator) (e : Addr) :
    decode (instrWord f (designatorBits b) e) = row b e := by
  rw [decode_instrWord, h, designatorOf_designatorBits]

theorem decode_regJumpRow {f : BitVec 6} {row : JumpKind → RegCond → Addr → Instr}
    (h : ∀ j e, decodeFields f j e = row (jumpKindOf j) (regCondOf j) e) (j : JumpKind) (c : RegCond) (m : Addr) :
    decode (instrWord f (jumpKindBit j ++ regCondBits c) m) = row j c m := by
  rw [decode_instrWord, h, jumpKindOf_append, regCondOf_append]

theorem decode_keyJumpRow {f : BitVec 6} {row : JumpKind → KeyCond → Addr → Instr}
    (h : ∀ j e, decodeFields f j e = row (jumpKindOf j) (keyCondOf j) e) (j : JumpKind) (c : KeyCond) (m : Addr) :
    decode (instrWord f (jumpKindBit j ++ keyCondBits c) m) = row j c m := by
  rw [decode_instrWord, h, jumpKindOf_append, keyCondOf_append]

theorem decode_exfRow (j : ExfFunction) (y : Addr) : decode (encode (.exf j y)) = .exf j y :=
  (decode_instrWord _ _ _).trans (congrArg (Instr.exf · y) (exfFunctionOf_exfFunctionBits j))

/-- Settles O1, row by row of the opcode table. -/
theorem decodeEncode : Obligations.DecodeEncode := by
  intro i
  cases i with
  | ajp j c m | qjp j c m => exact decode_regJumpRow (fun _ _ => rfl) j c m
  | slj j c m | sls j c m => exact decode_keyJumpRow (fun _ _ => rfl) j c m
  | exf j y => exact decode_exfRow j y
  | _ b e => exact decode_designatorRow (fun _ _ => rfl) b e

theorem instrWord_eq {n f : BitVec 6} {i j : BitVec 3} (hf : f.toNat = n.toNat) (hj : i = j) (e : Addr) :
    instrWord n i e = instrWord f j e := by
  rw [BitVec.eq_of_toNat_eq hf, hj]

/-- Encoding a row of the table gives the operation code and the designator it was read from. The alternatives of the
split stand in the order of the operation codes: alternative 19 is 22, AJP. -/
theorem encode_decodeFields (f : BitVec 6) (j : BitVec 3) (e : Addr) :
    encode (decodeFields f j e) = instrWord f j e := by
  unfold decodeFields
  split
  case h_19 | h_20 => exact instrWord_eq ‹_› (jumpKindBit_append_regCondBits j) e
  case h_61 => exact instrWord_eq ‹_› (exfFunctionBits_exfFunctionOf j) e
  case h_62 | h_63 => exact instrWord_eq ‹_› (jumpKindBit_append_keyCondBits j) e
  case h_64 =>
    have hlast : f.toNat = (0o77#6).toNat := by
      have hbound := f.isLt
      simp only [imp_false] at *
      rw [BitVec.toNat_ofNat]
      omega
    exact instrWord_eq hlast (designatorBits_designatorOf j) e
  all_goals exact instrWord_eq ‹_› (designatorBits_designatorOf j) e

/-- Settles O2: a word is its three fields, and each row of the table gives them back. -/
theorem encodeDecode : Obligations.EncodeDecode := fun w => by
  rw [decode, encode_decodeFields, instrWord_fields]

/-- Settles O3: the fields of each word, and the row of the table they name. -/
theorem decodedWords : Obligations.DecodedWords := by
  unfold Obligations.DecodedWords
  decide

end Sys2Proof

namespace Sys2Proof.Machine

/-! ### The completion of an instruction (R383, R364) -/

/-- The release of the lockout, as the two fields it writes (R383; log 16). -/
theorem State.releaseLockout_eq (s t : State) :
    s.releaseLockout t =
      { t with
        lockout := t.lockout && !(decide (s.half = .upper) && s.intExit && t.intExit)
        intExit := t.intExit && !(decide (s.half = .upper) && s.intExit) } := by
  rcases s.releaseLockout_cases t with ⟨hreleased, hhalf, hs, ht⟩ | ⟨hkept, hnot⟩
  · simp [hreleased, hhalf, hs, ht]
  · have hlockout : (t.lockout && !(decide (s.half = .upper) && s.intExit && t.intExit)) = t.lockout := by grind
    have hexit : (t.intExit && !(decide (s.half = .upper) && s.intExit)) = t.intExit := by grind
    rw [hkept, hlockout, hexit]

/-- An instruction that goes on, with the mode switch neutral: nothing is repeated (R383, R364, R410). -/
theorem State.complete_of_goes_on {s t : State} {i : Instr} (hmode : s.modeSwitch = .neutral) (hrun : t.run = .running)
    (hheld : t.held = none) :
    s.complete i t =
      { s.releaseLockout t with run := if s.singleStep then .stopped .operator else .running, mid := [] } := by
  have honce : s.repeats t = false := by simp [State.repeats, hmode]
  have hreleased : (s.releaseLockout t).run = .running := by rw [s.releaseLockout_eq, hrun]
  unfold State.complete
  cases s.singleStep with
  | true => simp [hrun, hheld, honce, State.stop]
  | false => simp [hrun, hheld, honce, ← hreleased]

/-- An instruction that has stopped the computer or waits is not complete (R108). -/
theorem State.complete_of_not_goes_on {s t : State} {i : Instr} (h : t.run ≠ .running ∨ t.held ≠ none) :
    s.complete i t = { t with mid := [] } :=
  if_neg (not_and_or.2 h)

/-! ### The state in which the current instruction is executed (R90, R108, R304, R379) -/

/-- In x the current instruction is i, which is executed in v, and the mode switch is neutral. -/
structure State.Begins (x : State) (i : Instr) (v : State) : Prop where
  neutral : x.modeSwitch = .neutral
  instr : x.currentInstr = i
  state : x.beginInstr = v

theorem State.Begins.of_held {u : State} {i : Instr} (hmode : u.modeSwitch = .neutral) (hheld : u.held = some i) :
    u.Begins i { u with lastPos := u.half, held := none } where
  neutral := hmode
  instr := by rw [State.currentInstr, hheld]
  state := rfl

/-- With nothing held the instruction is the half of U1 that the position names (R108). -/
theorem State.Begins.of_upper {x : State} (hmode : x.modeSwitch = .neutral) (hheld : x.held = none)
    (hhalf : x.half = .upper) : x.Begins (decode (upperInstr x.u1)) { x with lastPos := .upper } where
  neutral := hmode
  instr := by rw [State.currentInstr, hheld, State.currentBits, hhalf]
  state := by rw [State.beginInstr, hhalf, ← hheld]

theorem State.Begins.of_lower {x : State} (hmode : x.modeSwitch = .neutral) (hheld : x.held = none)
    (hhalf : x.half = .lower) : x.Begins (decode (lowerInstr x.u1)) { x with lastPos := .lower } where
  neutral := hmode
  instr := by rw [State.currentInstr, hheld, State.currentBits, hhalf]
  state := by rw [State.beginInstr, hhalf, ← hheld]

/-- The fetch reads the word at P after the other agents have acted, and they leave control alone. -/
theorem State.Begins.of_fetch {u : State} (hmode : u.modeSwitch = .neutral) (hheld : u.held = none)
    (hhalf : u.half = .upper) :
    u.fetchStep.Begins (decode (upperInstr (u.point.read u.p)))
      { u.point with u1 := u.point.read u.p, breakPassed := false, lastPos := .upper } := by
  have hpoint := (point_ioActs u).eq_withOutside
  refine .of_upper (x := u.fetchStep) ?_ ?_ ?_ <;> rw [State.fetchStep, hpoint]
  · exact hmode
  · exact hheld
  · exact hhalf

/-- The current instruction executed: its completed state, or the fault it is stuck with (R108). -/
theorem executeCurrent_of_next {x v t : State} {i : Instr} (h : x.Begins i v) (hexec : exec i v = .next t) :
    executeCurrent x = .next (v.complete i t) := by
  simp [executeCurrent, h.neutral, h.instr, h.state, hexec]

theorem executeCurrent_of_fault {x v : State} {i : Instr} {r : Fault} (h : x.Begins i v) (hexec : exec i v = .fault r) :
    executeCurrent x = .fault r := by
  simp [executeCurrent, h.neutral, h.instr, h.state, hexec]

/-! ### The turn that executes an instruction (R84, R90, R108) -/

/-- A held instruction begins without an interrupt test, a breakpoint test or a fetch (log 21, log 27). -/
theorem programTurn_of_held {u : State} {i : Instr} (hstorage : u.faults.anyStorage = false) (hheld : u.held = some i) :
    programTurn u = executeCurrent u := by
  simp [programTurn, hstorage, hheld]

theorem programTurn_of_lower {u : State} (hstorage : u.faults.anyStorage = false) (hheld : u.held = none)
    (hint : (u.atInterruptPoint && u.interruptDue) = false) (hhalf : u.half = .lower) :
    programTurn u = executeCurrent u := by
  simp only [programTurn, hstorage, hheld, hint, hhalf, Bool.false_eq_true, if_false]

/-- The breakpoint does not stop the step it has been restarted at (R362). -/
theorem programTurn_of_upper {u : State} (hstorage : u.faults.anyStorage = false) (hheld : u.held = none)
    (hint : (u.atInterruptPoint && u.interruptDue) = false) (hhalf : u.half = .upper)
    (hbreak : u.breakpoint ≠ some u.p ∨ u.breakPassed = true) : programTurn u = executeCurrent u.fetchStep := by
  have hgo : u.breakpointStops = false := by
    rcases hbreak with hother | hpassed
    · simp [State.breakpointStops, hother]
    · simp [State.breakpointStops, hpassed]
  simp only [programTurn, hstorage, hheld, hint, hhalf, hgo, Bool.false_eq_true, if_false]

/-- Settles O4: each of the three ways to begin names the state whose current instruction the turn executes; what the
step answers then follows from what the instruction does and from its completion. -/
theorem stepRunsDecodedInstruction : Obligations.StepRunsDecodedInstruction := by
  intro s u v i hu hrun hstorage hmode hway
  have hstep : step s = programTurn u := by
    rw [step, turn, hu, hrun]
  obtain ⟨x, hturn, hbegins⟩ : ∃ x : State, programTurn u = executeCurrent x ∧ x.Begins i v := by
    rcases hway with ⟨hheld, hint, hhalf, hbreak, rfl, rfl⟩ | ⟨hheld, hint, hhalf, rfl, rfl⟩ | ⟨hheld, rfl⟩
    · exact ⟨_, programTurn_of_upper hstorage hheld hint hhalf hbreak, .of_fetch hmode hheld hhalf⟩
    · exact ⟨_, programTurn_of_lower hstorage hheld hint hhalf, .of_lower hmode hheld hhalf⟩
    · exact ⟨_, programTurn_of_held hstorage hheld, .of_held hmode hheld⟩
  have hneutral : v.modeSwitch = .neutral := by rw [← hbegins.state]; exact hbegins.neutral
  rw [hstep, hturn]
  refine ⟨fun t hexec hgoes hfree => ?_, fun t hexec hnot => ?_, fun r => executeCurrent_of_fault hbegins⟩
  · rw [executeCurrent_of_next hbegins hexec, State.complete_of_goes_on hneutral hgoes hfree, State.releaseLockout_eq]
  · rw [executeCurrent_of_next hbegins hexec, State.complete_of_not_goes_on hnot]

/-! ### The illegal codes (R106) -/

/-- A half of U1 replaced reads as the bits keyed (R25, R101). -/
theorem upperInstr_append (w v : InstrBits) : upperInstr (w ++ v) = w := BitVec.extractLsb'_append_eq_left

theorem lowerInstr_append (w v : InstrBits) : lowerInstr (w ++ v) = v := BitVec.extractLsb'_append_eq_right

/-- A register keyed in while the computer is stopped (R364). -/
theorem State.deliver_key {s : State} {why : StopReason} (h : s.run = .stopped why) (r : KeyedRegister) :
    s.deliver (.operator (.key r)) = s.keyIn r := by
  simp [State.deliver, State.deliverOperator, h]

/-- Keying after an illegal stop leaves the computer stopped by the operator (log 17). -/
theorem State.rekeyed_of_illegal {s : State} (h : s.run = .stopped .illegal) : s.rekeyed = s.stop .operator := by
  rw [State.rekeyed, h]

theorem Half.upper_or_lower (h : Half) : h = .upper ∨ h = .lower := by
  cases h with
  | upper => exact .inl rfl
  | lower => exact .inr rfl

/-- An instruction keyed in takes the half of U1 that the position names, and is held (R364). -/
theorem State.keyIn_instruction_of_upper {s : State} (h : s.half = .upper) (w : InstrBits) :
    s.keyIn (.instruction w) = { s.rekeyed with u1 := w ++ lowerInstr s.u1, held := some (decode w) } := by
  rw [State.keyIn, h]

theorem State.keyIn_instruction_of_lower {s : State} (h : s.half = .lower) (w : InstrBits) :
    s.keyIn (.instruction w) = { s.rekeyed with u1 := upperInstr s.u1 ++ w, held := some (decode w) } := by
  rw [State.keyIn, h]

/-- Settles O43: both codes stop, and what can be keyed after such a stop replaces the reason of the stop. -/
theorem illegalCodes : Obligations.IllegalCodes := by
  refine ⟨fun s b m => ⟨rfl, rfl⟩, fun s hs => ⟨?_, ?_, fun m => ?_, ?_⟩⟩
  · simp only [State.deliver, State.deliverOperator, State.operatorStart, hs]
  · simp only [State.deliver, State.deliverOperator, State.operatorStep, hs]
  · rw [State.deliver_key hs, State.keyIn, State.rekeyed_of_illegal hs, State.stop]
  · rintro w t rfl
    rw [State.deliver_key hs]
    rcases s.half.upper_or_lower with hhalf | hhalf
    · rw [State.keyIn_instruction_of_upper hhalf, State.rekeyed_of_illegal hs]
      exact ⟨rfl, by simp [State.currentBits, hhalf, upperInstr_append]⟩
    · rw [State.keyIn_instruction_of_lower hhalf, State.rekeyed_of_illegal hs]
      exact ⟨rfl, by simp [State.currentBits, hhalf, lowerInstr_append]⟩

end Sys2Proof.Machine

/-! PROOFS. Data transmission (spec/40_data_transmission.md R131 to R140), the partial stores from A (R166, R167) and
STL (R271): what an instruction that ends with `next` leaves once its operand is found, what a store and an index load
change in that state, and from these the four statements. -/

namespace Sys2Proof.Machine

/-! ### An operand found, and `next` (R78, R109) -/

/-- An instruction with an operand in storage that ends with `next`. -/
theorem withOperand_goNext {s u : State} {b : Designator} {e m : Addr} (change : State → Addr → State)
    (h : s.operand b e = some (u, m)) :
    withOperand s b e (fun v k => (change v k).goNext) = .next (change u m).advanced := by
  rw [withOperand_of_resolved _ h, State.goNext_eq_advanced]

/-- The same for an instruction that only indirect addressing modifies. -/
theorem withIndirectOperand_goNext {s u : State} {b : Designator} {e m : Addr} {r : Option IndexReg}
    (change : State → Option IndexReg → Addr → State) (h : s.indirectOperand b e = some (u, r, m)) :
    withIndirectOperand s b e (fun v i k => (change v i k).goNext) = .next (change u r m).advanced := by
  rw [withIndirectOperand_of_resolved _ h, State.goNext_eq_advanced]

/-! ### What a store leaves (R15, R81, R101) -/

/-- A word stored, and control at the next instruction. -/
theorem next_write {x : Result} {u : State} {m : Addr} {w : Word} (h : x = .next (u.write m w).advanced) :
    ∃ t, x = .next t ∧ t = { u with mem := t.mem, p := u.nextP, half := u.nextHalf } ∧ storedAt u t m w :=
  ⟨_, h, rfl, u.storedAt_write m w⟩

/-- A word stored of which something is known: the word read back is the one stored. -/
theorem next_write_of {x : Result} {u : State} {m : Addr} {w : Word} {holds : Word → Prop}
    (h : x = .next (u.write m w).advanced) (hw : holds w) :
    ∃ t, x = .next t ∧ t = { u with mem := t.mem, p := u.nextP, half := u.nextHalf } ∧
      storedAt u t m (t.read m) ∧ holds (t.read m) := by
  obtain ⟨t, hnext, hframe, hread, hothers⟩ := next_write h
  exact ⟨t, hnext, hframe, ⟨rfl, hothers⟩, hread.symm ▸ hw⟩

theorem next_storeUpper {x : Result} {u : State} {m y : Addr} (h : x = .next (u.storeUpper m y).advanced) :
    ∃ t, x = .next t ∧ t = { u with mem := t.mem, p := u.nextP, half := u.nextHalf } ∧
      storedAt u t m (t.read m) ∧ upperReplaced (u.read m) (t.read m) y :=
  next_write_of (holds := (upperReplaced (u.read m) · y)) h (upperReplaced_setUpperAddress _ y)

theorem next_storeLower {x : Result} {u : State} {m y : Addr} (h : x = .next (u.storeLower m y).advanced) :
    ∃ t, x = .next t ∧ t = { u with mem := t.mem, p := u.nextP, half := u.nextHalf } ∧
      storedAt u t m (t.read m) ∧ lowerReplaced (u.read m) (t.read m) y :=
  next_write_of (holds := (lowerReplaced (u.read m) · y)) h (lowerReplaced_setLowerAddress _ y)

/-! ### What the load of an index register leaves (R23) -/

theorem next_setB {x : Result} {u : State} {r : IndexReg} {y : Addr} (h : x = .next (u.setB (some r) y).advanced) :
    ∃ t, x = .next t ∧ t = { u with b := t.b, p := u.nextP, half := u.nextHalf } ∧ t.b.get r = y ∧
      ∀ r', r' ≠ r → t.b.get r' = u.b.get r' :=
  ⟨_, h, rfl, u.b.get_set_same r y, fun _ hr => u.b.get_set_other y hr⟩

/-! ### The statements -/

/-- Settles O23: each of the three is one write: of A, of Q, or of their logical product. -/
theorem storeRegister : Obligations.StoreRegister := fun _ _ _ _ _ h =>
  ⟨next_write (withOperand_goNext (fun v k => v.write k v.a) h),
    next_write (withOperand_goNext (fun v k => v.write k v.q) h),
    next_write (withOperand_goNext (fun v k => v.write k (v.q &&& v.a)) h)⟩

/-- Settles O24: without an index register the write is discarded, with one it is the only change. -/
theorem loadIndex : Obligations.LoadIndex := by
  intro s u b e m
  have hliu : ∀ r, s.indirectOperand b e = some (u, r, m) →
      exec (.liu b e) s = .next (u.setB r (upperAddress (u.read m))).advanced := fun _ h =>
    withIndirectOperand_goNext (fun v r k => v.setB r (upperAddress (v.read k))) h
  have hlil : ∀ r, s.indirectOperand b e = some (u, r, m) →
      exec (.lil b e) s = .next (u.setB r (lowerAddress (u.read m))).advanced := fun _ h =>
    withIndirectOperand_goNext (fun v r k => v.setB r (lowerAddress (v.read k))) h
  exact ⟨fun h => ⟨hliu none h, hlil none h⟩, fun r h => ⟨next_setB (hliu r h), next_setB (hlil r h)⟩⟩

/-- Settles O25: each of the four is one partial store; the clearing without an index register is B0 read as zero. -/
theorem storeAddressField : Obligations.StoreAddressField :=
  ⟨fun _ _ _ _ _ _ h =>
    ⟨next_storeUpper (withIndirectOperand_goNext (fun v r k => v.storeUpper k (v.getB r)) h),
      next_storeLower (withIndirectOperand_goNext (fun v r k => v.storeLower k (v.getB r)) h)⟩,
    fun _ _ _ _ _ h =>
    ⟨next_storeUpper (withOperand_goNext (fun v k => v.storeUpper k (lowerAddress v.a)) h),
      next_storeLower (withOperand_goNext (fun v k => v.storeLower k (lowerAddress v.a)) h)⟩⟩

/-- Settles O22: each of the four loads sets one register from the word at M, or its complement. -/
theorem loadRegister : Obligations.LoadRegister := fun _ _ _ _ _ h =>
  ⟨withOperand_goNext (fun v k => v.setA (v.read k)) h, withOperand_goNext (fun v k => v.setA (cmpl (v.read k))) h,
    withOperand_goNext (fun v k => v.setQ (v.read k)) h, withOperand_goNext (fun v k => v.setQ (cmpl (v.read k))) h⟩

end Sys2Proof.Machine

/-! PROOFS. Shifting instructions (spec/41_shifting.md R150 to R156): which bit of the register each bit comes from, for
every width, then what a shift leaves beside the register it moves, and from these the two statements. -/

namespace Sys2Proof.Machine

/-! ### The bits of a shifted register, at every width (R14, R157) -/

/-- y is x moved k places to the right, the sign copied (R14): each bit comes from k places to its left, from the sign
where that is beyond the register. -/
def ShiftedRight {n : Nat} (k : Nat) (x y : BitVec n) : Prop :=
  ∀ i : Nat, i < n → y.getLsbD i = x.getLsbD (min (i + k) (n - 1))

/-- y is x moved k places to the left, circular (R14): each bit goes k places to its left, round the register. -/
def ShiftedLeft {n : Nat} (k : Nat) (x y : BitVec n) : Prop :=
  ∀ i : Nat, i < n → y.getLsbD ((i + k) % n) = x.getLsbD i

theorem shiftedRight_asr {n : Nat} (x : BitVec n) (k : Nat) : ShiftedRight k x (asr x k) := by
  intro i hi
  rw [asr, BitVec.getLsbD_sshiftRight, BitVec.msb_eq_getLsbD_last]
  by_cases hinside : k + i < n
  · have hsource : min (i + k) (n - 1) = k + i := by omega
    simp [hi, hinside, hsource]
  · have hsource : min (i + k) (n - 1) = n - 1 := by omega
    simp [hi, hinside, hsource]

/-- The closed form of R157(a): a count beyond the width moves no further than the width. -/
theorem shiftedRight_asr_min {n : Nat} (x : BitVec n) (k : Nat) : ShiftedRight k x (asr x (min k n)) := by
  intro i hi
  have hsource : min (i + min k n) (n - 1) = min (i + k) (n - 1) := by omega
  rw [shiftedRight_asr x (min k n) i hi, hsource]

/-- A count within the register: the bits that leave it at the left enter it at the right. -/
theorem shiftedLeft_rotl_of_lt {n k : Nat} (x : BitVec n) (hk : k < n) : ShiftedLeft k x (rotl x k) := by
  intro i hi
  rw [rotl, BitVec.getLsbD_rotateLeft_of_le hk]
  by_cases hinside : i + k < n
  · simp [Nat.mod_eq_of_lt hinside, hinside]
  · have hplace : (i + k) % n = i + k - n := by
      rw [Nat.mod_eq_sub_mod (Nat.le_of_not_lt hinside), Nat.mod_eq_of_lt (by omega)]
    have hround : i + k - n < k := by omega
    have hsource : n - k + (i + k - n) = i := by omega
    simp [hplace, hround, hsource]

/-- The closed form of R157(a): whole turns of the register leave it as it was. -/
theorem shiftedLeft_rotl_mod {n : Nat} (x : BitVec n) (k : Nat) : ShiftedLeft k x (rotl x (k % n)) := by
  intro i hi
  have hk : k % n < n := Nat.mod_lt k (Nat.zero_lt_of_lt hi)
  rw [← Nat.add_mod_mod, shiftedLeft_rotl_of_lt x hk i hi]

/-- A double register is its two halves (R21). -/
theorem double_halves (x : DoubleWord) : double (highHalf x) (lowHalf x) = x :=
  (BitVec.extractLsb'_append_extractLsb'_eq_extractLsb' rfl).trans BitVec.extractLsb'_eq_self

/-! ### What a shift leaves (R109, R150) -/

section

variable {s : State} {b : Designator} {e k : Addr} {f : Faults} (h : s.resolveAtomic b e = some k)
  (hf : f = { s.faults with shift := s.faults.shift || decide (127 < k.toNat) })

include h hf

/-- A shift acts in the state it began in, with the shift fault set for a count above 127. -/
theorem shiftBy_eq_advanced (shift : State → Nat → State) :
    shiftBy b e s shift = .next (shift { s with faults := f } k.toNat).advanced := by
  rw [shiftBy_of_resolved _ h, State.goNext_eq_advanced, hf, State.setShiftFaultIf]

/-- A shift of A: A alone moves. -/
theorem shiftBy_setA {moved : Word → Word → Prop} (change : Word → Nat → Word)
    (hmoved : moved s.a (change s.a k.toNat)) :
    ∃ t, shiftBy b e s (fun v j => v.setA (change v.a j)) = .next t ∧
      t = { s with a := t.a, faults := f, p := s.nextP, half := s.nextHalf } ∧ moved s.a t.a :=
  ⟨_, shiftBy_eq_advanced h hf _, rfl, hmoved⟩

/-- A shift of Q: Q alone moves. -/
theorem shiftBy_setQ {moved : Word → Word → Prop} (change : Word → Nat → Word)
    (hmoved : moved s.q (change s.q k.toNat)) :
    ∃ t, shiftBy b e s (fun v j => v.setQ (change v.q j)) = .next t ∧
      t = { s with q := t.q, faults := f, p := s.nextP, half := s.nextHalf } ∧ moved s.q t.q :=
  ⟨_, shiftBy_eq_advanced h hf _, rfl, hmoved⟩

/-- A long shift: A and Q move as one register, whose halves they are. -/
theorem shiftBy_setAQ {moved : DoubleWord → DoubleWord → Prop} (change : DoubleWord → Nat → DoubleWord)
    (hmoved : moved (double s.a s.q) (change (double s.a s.q) k.toNat)) :
    ∃ t, shiftBy b e s (fun v j => v.setAQ (change (double v.a v.q) j)) = .next t ∧
      t = { s with a := t.a, q := t.q, faults := f, p := s.nextP, half := s.nextHalf } ∧
      moved (double s.a s.q) (double t.a t.q) := by
  refine ⟨_, shiftBy_eq_advanced h hf _, rfl, ?_⟩
  rw [State.advanced, State.setAQ, double_halves]
  exact hmoved

end

/-! ### The statements -/

/-- Settles O28: each of the three moves its register by the closed form of the right shift. -/
theorem rightShifts : Obligations.RightShifts := fun s _ _ k _ h hf =>
  ⟨shiftBy_setA h hf (moved := ShiftedRight k.toNat) (fun x j => asr x (min j 48)) (shiftedRight_asr_min s.a _),
    shiftBy_setQ h hf (moved := ShiftedRight k.toNat) (fun x j => asr x (min j 48)) (shiftedRight_asr_min s.q _),
    shiftBy_setAQ h hf (moved := ShiftedRight k.toNat) (fun x j => asr x (min j 96))
      (shiftedRight_asr_min (double s.a s.q) _)⟩

/-- Settles O29: each of the three moves its register by the closed form of the circular shift. -/
theorem leftShifts : Obligations.LeftShifts := fun s _ _ k _ h hf =>
  ⟨shiftBy_setA h hf (moved := ShiftedLeft k.toNat) (fun x j => rotl x (j % 48)) (shiftedLeft_rotl_mod s.a _),
    shiftBy_setQ h hf (moved := ShiftedLeft k.toNat) (fun x j => rotl x (j % 48)) (shiftedLeft_rotl_mod s.q _),
    shiftBy_setAQ h hf (moved := ShiftedLeft k.toNat) (fun x j => rotl x (j % 96))
      (shiftedLeft_rotl_mod (double s.a s.q) _)⟩

end Sys2Proof.Machine

/-! PROOFS. Counting in an index register (spec/42_address_modification.md R168, R169; 45_no_address.md R225): what ISK,
IJP and INI answer once the chain has named the register, B0 included, and from these the statement. -/

namespace Sys2Proof.Machine

/-! ### The index register and the address named, and `next` (R78, R109) -/

/-- An instruction on the index register named after indirection that ends with `next`. -/
theorem withIndex_goNext {s u : State} {b : Designator} {e y : Addr} {r : Option IndexReg}
    (change : State → Option IndexReg → Addr → State) (h : s.indirect b e = some (u, r, y)) :
    withIndex s b e (fun v i k => (change v i k).goNext) = .next (change u r y).advanced := by
  rw [withIndex_of_resolved _ h, State.goNext_eq_advanced]

/-! ### The three instructions, with B0 read as zero and not written (R23) -/

section

variable {s u : State} {b : Designator} {e y : Addr} {r : Option IndexReg} (h : s.indirect b e = some (u, r, y))

include h

/-- The counting is over: the register is cleared and the exit is full (R168). -/
theorem exec_isk_of_eq (hy : u.getB r = y) : exec (.isk b e) s = .next ((u.setB r 0#15).exitOn true) :=
  withIndex_eq_next.2 ⟨u, r, y, h, if_pos hy⟩

/-- The counting goes on: the register is counted up and the exit is half (R168, D25). -/
theorem exec_isk_of_ne (hy : u.getB r ≠ y) :
    exec (.isk b e) s = .next ((u.setB r (u.getB r + 1#15)).exitOn false) :=
  withIndex_eq_next.2 ⟨u, r, y, h, if_neg hy⟩

/-- A register counted down to zero does not jump (R169). -/
theorem exec_ijp_of_zero (hzero : u.getB r = 0#15) : exec (.ijp b e) s = .next u.advanced :=
  withIndex_eq_next.2 ⟨u, r, y, h, (if_pos hzero).trans u.goNext_eq_advanced⟩

/-- A register that is not zero is counted down, and the jump is a normal one (R169, R112). -/
theorem exec_ijp_of_ne_zero (hzero : u.getB r ≠ 0#15) :
    exec (.ijp b e) s = .next ((u.setB r (u.getB r - 1#15)).jump y) :=
  withIndex_eq_next.2 ⟨u, r, y, h, if_neg hzero⟩

/-- The address is added to the register in one's complement (R225, D2). -/
theorem exec_ini : exec (.ini b e) s = .next (u.setB r (ocAdd (u.getB r) y)).advanced :=
  withIndex_goNext (fun v i k => v.setB i (ocAdd (v.getB i) k)) h

end

/-- Without a register ISK compares zero with the address, and only the exit depends on it (R168, R23). -/
theorem exec_isk_of_none {s u : State} {b : Designator} {e y : Addr} (h : s.indirect b e = some (u, none, y)) :
    exec (.isk b e) s = .next (u.exitOn (decide (y = 0#15))) := by
  by_cases hy : y = 0#15
  · rw [exec_isk_of_eq h hy.symm, State.setB_none, decide_eq_true hy]
  · rw [exec_isk_of_ne h (Ne.symm hy), State.setB_none, decide_eq_false hy]

/-! ### The statement -/

/-- Settles O27: without a register nothing is counted; with one, each outcome is one write of the register and the
exit, the jump or the `next` after it. -/
theorem indexCounting : Obligations.IndexCounting := by
  refine fun s u b e y => ⟨fun h => ⟨exec_isk_of_none h, exec_ijp_of_zero h u.getB_none, exec_ini h⟩, fun r h =>
    ⟨exec_isk_of_eq h, exec_isk_of_ne h, exec_ijp_of_zero h, fun hzero => ?_, exec_ini h⟩⟩
  rw [exec_ijp_of_ne_zero h hzero, State.jump_eq]
  rfl

end Sys2Proof.Machine

/-! PROOFS. Fixed point arithmetic (spec/43_arithmetic_fixed.md R181 to R188): a one's complement pattern as a sign and
a magnitude, for every width, and its agreement with product, quotient and remainder of the integers; then what the
instructions answer, and from these the four statements. -/

namespace Sys2Proof.Machine

/-! ### A sign and a magnitude (R9, R184) -/

/-- The integer with a sign and a magnitude. -/
def signedValue (neg : Bool) (mag : Nat) : Int := if neg then -(mag : Int) else mag

/-- The signed value of a pattern is its magnitude under its sign bit. -/
theorem sval_eq_signedValue {n : Nat} (x : BitVec n) : sval x = signedValue x.msb (magnitude x) := by
  unfold sval signedValue magnitude
  cases x.msb <;> rfl

theorem natAbs_signedValue (neg : Bool) (mag : Nat) : (signedValue neg mag).natAbs = mag := by
  cases neg <;> simp [signedValue]

theorem magnitude_eq_natAbs {n : Nat} (x : BitVec n) : magnitude x = (sval x).natAbs := by
  rw [sval_eq_signedValue, natAbs_signedValue]

/-- Only the two zeros have magnitude zero, as only they have the value zero. -/
theorem magnitude_eq_zero_iff {n : Nat} (x : BitVec n) : magnitude x = 0 ↔ sval x = 0 := by
  rw [magnitude_eq_natAbs, Int.natAbs_eq_zero]

/-- A magnitude leaves the sign bit free. -/
theorem magnitude_lt {k : Nat} (x : BitVec (k + 1)) : magnitude x < 2 ^ k := by
  have hpos : 0 < 2 ^ k := Nat.two_pow_pos k
  have hbounds := sval_bounds x
  rw [magnitude_eq_natAbs]
  omega

/-! ### Integer arithmetic on signs and magnitudes -/

theorem signedValue_mul (a b : Bool) (m n : Nat) :
    signedValue (a != b) (m * n) = signedValue a m * signedValue b n := by
  cases a <;> cases b <;> simp [signedValue]

theorem signedValue_scale (c : Nat) (neg : Bool) (m : Nat) : signedValue neg (c * m) = c * signedValue neg m := by
  cases neg <;> simp [signedValue]

/-- The quotient truncated toward zero: the magnitudes divide, the signs combine. -/
theorem signedValue_tdiv (a b : Bool) (m n : Nat) :
    (signedValue a m).tdiv (signedValue b n) = signedValue (a != b) (m / n) := by
  cases a <;> cases b <;> simp [signedValue]

/-- The remainder of the truncated quotient: the magnitudes divide, the sign is the dividend's. -/
theorem signedValue_tmod (a b : Bool) (m n : Nat) :
    (signedValue a m).tmod (signedValue b n) = signedValue a (m % n) := by
  cases a <;> cases b <;> simp [signedValue, Int.tmod_eq_emod_of_nonneg]

/-! ### The pattern of a sign and a magnitude (D4) -/

/-- A magnitude that fits keeps off the sign bit, so the sign asked for is the sign of the pattern, of a zero too. -/
theorem msb_signedPattern {k mag : Nat} (neg : Bool) (hfits : mag < 2 ^ k) :
    (signedPattern (k + 1) neg mag).msb = neg := by
  have hpositive : (BitVec.ofNat (k + 1) mag).msb = false := by
    rw [← Bool.not_eq_true, msb_iff_le_toNat, BitVec.toNat_ofNat, Nat.mod_eq_of_lt (by omega)]
    omega
  cases neg with
  | false => exact hpositive
  | true => simp [signedPattern, cmpl, hpositive]

theorem sval_signedPattern {k mag : Nat} (neg : Bool) (hfits : mag < 2 ^ k) :
    sval (signedPattern (k + 1) neg mag) = signedValue neg mag := by
  have htoNat : (BitVec.ofNat (k + 1) mag).toNat = mag := by
    rw [BitVec.toNat_ofNat, Nat.mod_eq_of_lt (by omega)]
  rw [sval_eq_signedValue, msb_signedPattern neg hfits, magnitude, msb_signedPattern neg hfits]
  cases neg with
  | false => simp only [signedPattern, Bool.false_eq_true, if_false, htoNat]
  | true => simp only [signedPattern, cmpl, if_true, BitVec.not_not, htoNat]

/-! ### The double register and the product (R21, R184, R185) -/

/-- The sign of a double register is the sign of its high half. -/
theorem msb_highHalf (x : DoubleWord) : (highHalf x).msb = x.msb := by
  conv_rhs => rw [← double_halves x, double, BitVec.msb_append]
  rfl

/-- Twice the product of two magnitudes fits below the sign of the double register (R185). -/
theorem two_mul_magnitude_mul_lt (x y : Word) : 2 * (magnitude x * magnitude y) < 2 ^ 95 := by
  have hproduct : magnitude x * magnitude y < 2 ^ 47 * 2 ^ 47 := Nat.mul_lt_mul'' (magnitude_lt x) (magnitude_lt y)
  omega

/-- The product of two signed values: the magnitudes multiply, the signs combine. -/
theorem sval_mul_sval (x y : Word) :
    sval x * sval y = signedValue (x.msb != y.msb) (magnitude x * magnitude y) := by
  rw [signedValue_mul, ← sval_eq_signedValue, ← sval_eq_signedValue]

/-! ### The quotient and the fault of a division (R186, R187) -/

theorem sval_tdiv_sval {k n : Nat} (d : BitVec k) (x : BitVec n) :
    (sval d).tdiv (sval x) = signedValue (d.msb != x.msb) (magnitude d / magnitude x) := by
  rw [sval_eq_signedValue d, sval_eq_signedValue x, signedValue_tdiv]

theorem sval_tmod_sval {k n : Nat} (d : BitVec k) (x : BitVec n) :
    (sval d).tmod (sval x) = signedValue d.msb (magnitude d % magnitude x) := by
  rw [sval_eq_signedValue d, sval_eq_signedValue x, signedValue_tmod]

/-- The quotient of DVF: the divisor counts twice, since a fraction in AQ has one place more than two fractions in A
together (R180, R187). -/
theorem sval_tdiv_two_mul_sval {k n : Nat} (d : BitVec k) (x : BitVec n) :
    (sval d).tdiv (2 * sval x) = signedValue (d.msb != x.msb) (magnitude d / (2 * magnitude x)) := by
  have hdivisor : 2 * sval x = signedValue x.msb (2 * magnitude x) := by
    rw [signedValue_scale, ← sval_eq_signedValue, Nat.cast_ofNat]
  rw [sval_eq_signedValue d, hdivisor, signedValue_tdiv]

/-- A quotient within the limit leaves the sign bit of A free (R186). -/
theorem lt_of_not_quotientLimit_lt {quot : Nat} (h : ¬quotientLimit < quot) : quot < 2 ^ 47 := by
  unfold quotientLimit at h
  omega

/-- A remainder is below the divisor, so it fits where the divisor did. -/
theorem mod_magnitude_lt {md : Nat} {x : Word} (hx : magnitude x ≠ 0) : md % magnitude x < 2 ^ 47 :=
  (Nat.mod_lt md (Nat.pos_of_ne_zero hx)).trans (magnitude_lt x)

/-- The remainder of DVF has the sign asked for, exact or not (R187, D6). -/
theorem msb_dvfRemainder (md mx quot : Nat) (neg : Bool) : (dvfRemainder md mx quot neg).msb = neg := by
  unfold dvfRemainder
  split
  · exact msb_signedPattern (k := 47) neg (Nat.two_pow_pos 47)
  · exact BitVec.msb_append.trans (by cases neg <;> rfl)

/-- The remainder of an exact division is a zero (R187). -/
theorem sval_dvfRemainder_of_dvd {md mx : Nat} (neg : Bool) (h : 2 * mx ∣ md) :
    sval (dvfRemainder md mx (md / (2 * mx)) neg) = 0 := by
  rw [dvfRemainder, if_pos (Nat.mul_div_cancel' h).symm, sval_signedPattern (k := 47) neg (Nat.two_pow_pos 47)]
  cases neg <;> rfl

/-! ### What the instructions answer (R109, R188) -/

/-- An atomic instruction that ends with `next`, on the branch that its operand selects. -/
theorem withAtomic_advanced {s t : State} {b : Designator} {e m : Addr} {run : State → Addr → State}
    (h : s.resolveAtomic b e = some m) (hrun : run s m = t.goNext) : withAtomic s b e run = .next t.advanced :=
  withAtomic_eq_next.2 ⟨m, h, hrun.trans t.goNext_eq_advanced⟩

section

variable {s : State} {b : Designator} {e m : Addr} (h : s.resolveAtomic b e = some m)

include h

/-- MUI leaves the product in QA (R184). -/
theorem exec_mui : exec (.mui b e) s = .next (s.setQA
    (signedPattern 96 (s.a.msb != (s.read m).msb) (magnitude s.a * magnitude (s.read m)))).advanced := by
  rw [exec, execMui]
  exact withAtomic_advanced h rfl

/-- MUF leaves twice the product in AQ (R185). -/
theorem exec_muf : exec (.muf b e) s = .next (s.setAQ
    (signedPattern 96 (s.a.msb != (s.read m).msb) (2 * (magnitude s.a * magnitude (s.read m))))).advanced := by
  rw [exec, execMuf]
  exact withAtomic_advanced h rfl

variable {x : Word} {d : DoubleWord} (hx : x = s.read m)

include hx

/-- DVI leaves the quotient in A and the remainder in Q (R186). -/
theorem exec_dvi_of_fits (hd : d = double s.q s.a)
    (hfits : ¬(magnitude x = 0 ∨ quotientLimit < magnitude d / magnitude x)) :
    exec (.dvi b e) s = .next ((s.setA (signedPattern 48 (d.msb != x.msb) (magnitude d / magnitude x))).setQ
      (signedPattern 48 d.msb (magnitude d % magnitude x))).advanced := by
  subst hx hd
  rw [exec, execDvi]
  exact withAtomic_advanced h (if_neg hfits)

/-- A zero divisor or a quotient above the limit ends DVI with the divide fault (R186). -/
theorem exec_dvi_of_fault (hd : d = double s.q s.a)
    (hfault : magnitude x = 0 ∨ quotientLimit < magnitude d / magnitude x) :
    exec (.dvi b e) s = .next s.divideFault.advanced := by
  subst hx hd
  rw [exec, execDvi]
  exact withAtomic_advanced h (if_pos hfault)

/-- DVF leaves the quotient in A and a remainder in Q that may be open (R187, D6). -/
theorem exec_dvf_of_fits (hd : d = double s.a s.q)
    (hfits : ¬(magnitude x = 0 ∨ quotientLimit < magnitude d / (2 * magnitude x))) :
    exec (.dvf b e) s = .next ((s.setA (signedPattern 48 (d.msb != x.msb) (magnitude d / (2 * magnitude x)))).setQ
      (dvfRemainder (magnitude d) (magnitude x) (magnitude d / (2 * magnitude x)) d.msb)).advanced := by
  subst hx hd
  rw [exec, execDvf]
  exact withAtomic_advanced h (if_neg hfits)

/-- The same of DVF (R187). -/
theorem exec_dvf_of_fault (hd : d = double s.a s.q)
    (hfault : magnitude x = 0 ∨ quotientLimit < magnitude d / (2 * magnitude x)) :
    exec (.dvf b e) s = .next s.divideFault.advanced := by
  subst hx hd
  rw [exec, execDvf]
  exact withAtomic_advanced h (if_pos hfault)

end

/-! ### The statements -/

/-- Settles O30: each of the two is one addition into A, SUB that of the complement. -/
theorem addSubtract : Obligations.AddSubtract := fun _ _ _ _ _ h =>
  ⟨withOperand_goNext (fun v k => v.addToA v.a (v.read k)) h,
    withOperand_goNext (fun v k => v.addToA v.a (cmpl (v.read k))) h⟩

/-- Settles O32: the product of the magnitudes, doubled or not, fits below the sign of the double register. -/
theorem multiply : Obligations.Multiply := by
  intro s b e m h
  have htwice := two_mul_magnitude_mul_lt s.a (s.read m)
  have honce : magnitude s.a * magnitude (s.read m) < 2 ^ 95 := by omega
  refine ⟨⟨_, exec_mui h, rfl, ?_, ?_⟩, ⟨_, exec_muf h, rfl, ?_, ?_⟩⟩
  · rw [State.advanced, State.setQA, double_halves, sval_signedPattern (k := 95) _ honce, sval_mul_sval]
  · exact (msb_highHalf _).trans (msb_signedPattern (k := 95) _ honce)
  · rw [State.advanced, State.setAQ, double_halves, sval_signedPattern (k := 95) _ htwice, sval_mul_sval,
      signedValue_scale, Nat.cast_ofNat]
  · exact (msb_highHalf _).trans (msb_signedPattern (k := 95) _ htwice)

/-- Settles O33: division of the magnitudes; the guard of the model is that of the statement, since the magnitude of the
truncated quotient is the quotient of the magnitudes. -/
theorem divideInteger : Obligations.DivideInteger := by
  intro s b e m x d h hx hd
  rw [sval_tdiv_sval, sval_tmod_sval, natAbs_signedValue, ← not_lt, ne_eq, ← magnitude_eq_zero_iff]
  refine ⟨fun hzero hlimit => ?_, fun hfault => ⟨_, exec_dvi_of_fault h hx hd hfault, rfl⟩⟩
  have hquot := lt_of_not_quotientLimit_lt hlimit
  have hrem := mod_magnitude_lt (md := magnitude d) hzero
  exact ⟨_, exec_dvi_of_fits h hx hd (not_or.2 ⟨hzero, hlimit⟩), rfl,
    sval_signedPattern (k := 47) _ hquot, msb_signedPattern (k := 47) _ hquot,
    sval_signedPattern (k := 47) _ hrem, msb_signedPattern (k := 47) _ hrem⟩

/-- Settles O34: as O33 with the divisor counted twice; an exact division of the values is one of the magnitudes. -/
theorem divideFractional : Obligations.DivideFractional := by
  intro s b e m x d h hx hd
  rw [sval_tdiv_two_mul_sval, natAbs_signedValue, ← not_lt, ne_eq, ← magnitude_eq_zero_iff]
  refine ⟨fun hzero hlimit => ?_, fun hfault => ⟨_, exec_dvf_of_fault h hx hd hfault, rfl⟩⟩
  have hquot := lt_of_not_quotientLimit_lt hlimit
  have hexact (hdvd : 2 * sval x ∣ sval d) : 2 * magnitude x ∣ magnitude d := by
    simpa [magnitude_eq_natAbs, Int.natAbs_mul] using Int.natAbs_dvd_natAbs.2 hdvd
  exact ⟨_, exec_dvf_of_fits h hx hd (not_or.2 ⟨hzero, hlimit⟩), rfl,
    sval_signedPattern (k := 47) _ hquot, msb_signedPattern (k := 47) _ hquot, msb_dvfRemainder _ _ _ _,
    fun hdvd => sval_dvfRemainder_of_dvd _ (hexact hdvd)⟩

end Sys2Proof.Machine

/-! PROOFS. Floating point words (spec/44_arithmetic_floating.md R200 to R202): the fields of a word are those of its
magnitude, so packing and unpacking are arithmetic on a sign and a magnitude. -/

namespace Sys2Proof.Machine

/-! ### A floating point word as a sign and a magnitude (R200, R201) -/

/-- The exponent that a biased exponent stands for (R201). -/
def trueExponent (be : Nat) : Int := if 0o2000 ≤ be then (be : Int) - 0o2000 else (be : Int) - 0o1777

/-- The biased exponent of a true one (R201). -/
def biasedExponent (exp : Int) : Nat := (if 0 ≤ exp then 0o2000 + exp else 0o1777 + exp).toNat

theorem trueExponent_biasedExponent {exp : Int} (hlow : -1023 ≤ exp) : trueExponent (biasedExponent exp) = exp := by
  unfold trueExponent biasedExponent
  split <;> omega

theorem biasedExponent_lt {exp : Int} (hhigh : exp ≤ 1023) : biasedExponent exp < 2 ^ 11 := by
  unfold biasedExponent
  omega

theorem trueExponent_bounds {be : Nat} (h : be < 2 ^ 11) : -1023 ≤ trueExponent be ∧ trueExponent be ≤ 1023 := by
  unfold trueExponent
  omega

/-- The fields of a word are those of its magnitude: the complement of a negative word has its magnitude. -/
theorem fpUnpack_eq (w : Word) :
    fpUnpack w = ⟨w.msb, trueExponent (magnitude w / 2 ^ 36), magnitude w % 2 ^ 36⟩ := by
  have hlt : magnitude w < 2 ^ 47 := magnitude_lt w
  have hu : (if w.msb then cmpl w else w).toNat = magnitude w := by
    unfold magnitude
    split <;> rfl
  have hfield : magnitude w / 2 ^ 36 % 2 ^ 11 = magnitude w / 2 ^ 36 := Nat.mod_eq_of_lt (by omega)
  simp only [fpUnpack, BitVec.extractLsb'_toNat, hu, Nat.shiftRight_eq_div_pow, hfield, pow_zero, Nat.div_one]
  rfl

/-- The exponent field stands above the coefficient field, and the sign bit is free. -/
theorem fpPack_eq {f : FpParts} (hexp : f.exp ≤ 1023) (hcoef : f.coef < 2 ^ 36) :
    fpPack f = signedPattern 48 f.neg (biasedExponent f.exp * 2 ^ 36 + f.coef) := by
  have hbiased := biasedExponent_lt hexp
  have hfits : biasedExponent f.exp * 2 ^ 36 + f.coef < 2 ^ 48 := by omega
  have hu : (0#1 ++ BitVec.ofNat 11 (biasedExponent f.exp) ++ BitVec.ofNat 36 f.coef : Word) =
      BitVec.ofNat 48 (biasedExponent f.exp * 2 ^ 36 + f.coef) := by
    apply BitVec.eq_of_toNat_eq
    simp only [BitVec.toNat_append, BitVec.toNat_ofNat, Nat.mod_eq_of_lt hbiased, Nat.mod_eq_of_lt hcoef,
      Nat.mod_eq_of_lt hfits]
    rw [← Nat.shiftLeft_add_eq_or_of_lt hcoef]
    simp [Nat.shiftLeft_eq]
  unfold signedPattern
  rw [← hu]
  rfl

theorem magnitude_signedPattern {k mag : Nat} (neg : Bool) (hfits : mag < 2 ^ k) :
    magnitude (signedPattern (k + 1) neg mag) = mag := by
  rw [magnitude_eq_natAbs, sval_signedPattern neg hfits, natAbs_signedValue]

theorem fpUnpack_fpPack {f : FpParts} (hlow : -1023 ≤ f.exp) (hhigh : f.exp ≤ 1023) (hcoef : f.coef < 2 ^ 36) :
    fpUnpack (fpPack f) = f := by
  have hbiased := biasedExponent_lt hhigh
  have hfits : biasedExponent f.exp * 2 ^ 36 + f.coef < 2 ^ 47 := by omega
  have hexp : (biasedExponent f.exp * 2 ^ 36 + f.coef) / 2 ^ 36 = biasedExponent f.exp := by omega
  have hfield : (biasedExponent f.exp * 2 ^ 36 + f.coef) % 2 ^ 36 = f.coef := by omega
  rw [fpPack_eq hhigh hcoef, fpUnpack_eq, magnitude_signedPattern (k := 47) _ hfits,
    msb_signedPattern (k := 47) _ hfits, hexp, hfield, trueExponent_biasedExponent hlow]

theorem floatValue_fpPack {f : FpParts} (hlow : -1023 ≤ f.exp) (hhigh : f.exp ≤ 1023) (hcoef : f.coef < 2 ^ 36) :
    floatValue (fpPack f) = f.value := by
  rw [floatValue, fpUnpack_fpPack hlow hhigh hcoef]

/-! ### The statements -/

/-- Settles O36: the fields of the magnitude are those it was put together from, and every magnitude has such fields. -/
theorem floatPackUnpack : Obligations.FloatPackUnpack := by
  refine ⟨fun _ => fpUnpack_fpPack, fun w => ?_⟩
  have hlt : magnitude w < 2 ^ 47 := magnitude_lt w
  obtain ⟨hlow, hhigh⟩ := trueExponent_bounds (be := magnitude w / 2 ^ 36) (by omega)
  rw [fpUnpack_eq]
  exact ⟨hlow, hhigh, Nat.mod_lt _ (by omega)⟩

/-- Settles O35: the words are computed, and their values are those of the parts packed in them. -/
theorem floatWorkedConversions : Obligations.FloatWorkedConversions := by
  have four : fpPack ⟨false, 3, 2 ^ 35⟩ = 0o2003400000000000#48 := by decide
  have minusFour : fpPack ⟨true, 3, 2 ^ 35⟩ = 0o5774377777777777#48 := by decide
  have half : fpPack ⟨false, 0, 2 ^ 35⟩ = 0o2000400000000000#48 := by decide
  have sixteenth : fpPack ⟨false, -3, 2 ^ 35⟩ = 0o1774400000000000#48 := by decide
  refine ⟨four, minusFour, half, sixteenth, ?_, ?_, ?_, ?_⟩
  · rw [← four, floatValue_fpPack] <;> norm_num [FpParts.value]
  · rw [← minusFour, floatValue_fpPack] <;> norm_num [FpParts.value]
  · rw [← sixteenth, floatValue_fpPack] <;> norm_num [FpParts.value]
  · rw [← half, floatValue_fpPack] <;> norm_num [FpParts.value]

end Sys2Proof.Machine

/-! PROOFS. Floating point arithmetic (spec/44_arithmetic_floating.md R203 to R208): the numbers the operations compute
on as rationals, normalization and rounding of such a number, the outcome of the common result step, then what the
instructions answer, and from these the two statements. -/

namespace Sys2Proof.Machine

/-! ### Numbers as they are computed on (R201, R204 to R207) -/

/-- The number that an exact result stands for. -/
def Exact.value (x : Exact) : ℚ := (x.num : ℚ) / x.den * (2 : ℚ) ^ x.exp

theorem Exact.value_of_den_one {x : Exact} (h : x.den = 1) : x.value = x.num * (2 : ℚ) ^ x.exp := by
  rw [Exact.value, h, Nat.cast_one, div_one]

theorem Exact.value_eq_zero_iff {x : Exact} (h : x.den ≠ 0) : x.value = 0 ↔ x.num = 0 := by
  simp [Exact.value, h, zpow_ne_zero]

theorem Exact.value_lt_zero_iff {x : Exact} (h : x.den ≠ 0) : x.value < 0 ↔ x.num < 0 := by
  have hden : (0 : ℚ) < x.den := by exact_mod_cast Nat.pos_of_ne_zero h
  rw [Exact.value, Rat.mul_neg_iff_of_pos_right (by positivity), div_eq_mul_inv,
    Rat.mul_neg_iff_of_pos_right (by positivity), Int.cast_lt_zero]

theorem Exact.abs_value (x : Exact) : |x.value| = (x.num.natAbs : ℚ) / x.den * (2 : ℚ) ^ x.exp := by
  rw [Exact.value, abs_mul, abs_div, abs_of_pos (zpow_pos (zero_lt_two' ℚ) x.exp), Nat.abs_cast, Nat.cast_natAbs,
    Int.cast_abs]

theorem fpValue_den (w : Word) : (fpValue w).den = 1 := rfl

theorem value_fpValue (w : Word) : (fpValue w).value = floatValue w := by
  rw [Exact.value_of_den_one (fpValue_den w), floatValue, FpParts.value, fpValue]
  cases (fpUnpack w).neg <;> simp

/-- The numerators are brought to the smaller of the two exponents. -/
theorem Exact.value_add {x y : Exact} (hx : x.den = 1) (hy : y.den = 1) : (x.add y).value = x.value + y.value := by
  have hscale (z : Exact) (hmin : min x.exp y.exp ≤ z.exp) :
      (z.num : ℚ) * 2 ^ (z.exp - min x.exp y.exp).toNat * 2 ^ min x.exp y.exp = z.num * 2 ^ z.exp := by
    rw [mul_assoc, ← zpow_natCast, ← zpow_add₀ two_ne_zero, Int.toNat_of_nonneg (by omega), sub_add_cancel]
  rw [value_of_den_one rfl, value_of_den_one hx, value_of_den_one hy, ← hscale x (min_le_left _ _),
    ← hscale y (min_le_right _ _), ← add_mul]
  simp [Exact.add]

theorem Exact.den_neg (x : Exact) : x.neg.den = x.den := rfl

theorem Exact.value_neg (x : Exact) : x.neg.value = -x.value := by
  simp [Exact.value, Exact.neg, neg_div]

theorem Exact.value_mul (x y : Exact) : (x.mul y).value = x.value * y.value := by
  simp only [Exact.value, Exact.mul, Int.cast_mul, Nat.cast_mul, zpow_add₀ (two_ne_zero (α := ℚ))]
  ring

/-- The sign of the divisor goes to the numerator, so that the denominator is its magnitude. -/
theorem Exact.value_div {x y : Exact} (hx : x.den = 1) (hy : y.den = 1) (hzero : y.num ≠ 0) :
    (x.div y).value = x.value / y.value := by
  have hnum : (y.num : ℚ) ≠ 0 := by exact_mod_cast hzero
  have habs : ((y.num.natAbs : ℕ) : ℚ) = y.num.sign * y.num := by
    rw [← Int.cast_mul, Int.sign_mul_self_eq_natAbs, Int.cast_natCast]
  have hsign : (y.num.sign : ℚ) ≠ 0 := by exact_mod_cast (Int.sign_eq_zero_iff_zero.not.2 hzero)
  rw [value_of_den_one hx, value_of_den_one hy, Exact.value, Exact.div, habs, zpow_sub₀ two_ne_zero]
  push_cast
  field_simp

/-! ### Normalization (R203) -/

/-- e is the exponent of v in normalized form: 2^(e-1) ≤ |v| < 2^e. -/
def HasExponent (v : ℚ) (e : Int) : Prop := (2 : ℚ) ^ (e - 1) ≤ |v| ∧ |v| < (2 : ℚ) ^ e

theorem two_zpow_lt_iff {i j : Int} : (2 : ℚ) ^ i < 2 ^ j ↔ i < j := zpow_lt_zpow_iff_right₀ one_lt_two

theorem two_zpow_le_iff {i j : Int} : (2 : ℚ) ^ i ≤ 2 ^ j ↔ i ≤ j := zpow_le_zpow_iff_right₀ one_lt_two

theorem HasExponent.unique {v : ℚ} {e e' : Int} (h : HasExponent v e) (h' : HasExponent v e') : e = e' := by
  have hle := two_zpow_lt_iff.1 (h.1.trans_lt h'.2)
  have hge := two_zpow_lt_iff.1 (h'.1.trans_lt h.2)
  omega

/-- A power of two of either sign as a quotient of powers with natural exponents. -/
theorem two_zpow_eq_div (d : Int) : (2 : ℚ) ^ d = 2 ^ d.toNat / 2 ^ (-d).toNat := by
  rw [← zpow_natCast, ← zpow_natCast, ← zpow_sub₀ two_ne_zero]
  congr 1
  omega

/-- The comparison that decides between the two candidates is one of the ratio with a power of two. -/
theorem two_zpow_le_div_iff {num den : Nat} (d : Int) (hden : den ≠ 0) :
    (2 : ℚ) ^ d ≤ num / den ↔ den * 2 ^ d.toNat ≤ num * 2 ^ (-d).toNat := by
  have hpos : (0 : ℚ) < den := by exact_mod_cast Nat.pos_of_ne_zero hden
  rw [two_zpow_eq_div, div_le_div_iff₀ (by positivity) hpos, mul_comm]
  exact_mod_cast Iff.rfl

/-- The logarithms bound a ratio within a factor of four. -/
theorem div_bounds {num den : Nat} (hnum : num ≠ 0) (hden : den ≠ 0) :
    (2 : ℚ) ^ ((num.log2 : Int) - den.log2 - 1) < num / den ∧
      (num : ℚ) / den < 2 ^ ((num.log2 : Int) - den.log2 + 1) := by
  have hpos : (0 : ℚ) < den := by exact_mod_cast Nat.pos_of_ne_zero hden
  have hnumLow : (2 : ℚ) ^ num.log2 ≤ num := by exact_mod_cast Nat.log2_self_le hnum
  have hnumHigh : (num : ℚ) < 2 ^ (num.log2 + 1) := by exact_mod_cast Nat.lt_log2_self
  have hdenLow : (2 : ℚ) ^ den.log2 ≤ den := by exact_mod_cast Nat.log2_self_le hden
  have hdenHigh : (den : ℚ) < 2 ^ (den.log2 + 1) := by exact_mod_cast Nat.lt_log2_self
  constructor
  · rw [sub_sub, zpow_sub₀ two_ne_zero, div_lt_div_iff₀ (by positivity) hpos]
    exact mul_lt_mul' hnumLow hdenHigh (by positivity) (by positivity)
  · rw [sub_add_eq_add_sub, zpow_sub₀ two_ne_zero, div_lt_div_iff₀ hpos (by positivity)]
    exact mul_lt_mul hnumHigh hdenLow (by positivity) (by positivity)

/-- The model's comparison of logarithms finds the exponent of the number. -/
theorem hasExponent_normalExponent {x : Exact} (hden : x.den ≠ 0) (hnum : x.num ≠ 0) :
    HasExponent x.value (normalExponent x.num.natAbs x.den x.exp) := by
  have hpos : (0 : ℚ) < 2 ^ x.exp := zpow_pos two_pos _
  have hshift (ratio : ℚ) (d : Int) (hlow : (2 : ℚ) ^ (d - 1) ≤ ratio) (hhigh : ratio < (2 : ℚ) ^ d) :
      (2 : ℚ) ^ (d + x.exp - 1) ≤ ratio * 2 ^ x.exp ∧ ratio * 2 ^ x.exp < 2 ^ (d + x.exp) := by
    rw [add_sub_right_comm, zpow_add₀ two_ne_zero, zpow_add₀ two_ne_zero]
    exact ⟨mul_le_mul_of_nonneg_right hlow hpos.le, mul_lt_mul_of_pos_right hhigh hpos⟩
  obtain ⟨hlow, hhigh⟩ := div_bounds (Int.natAbs_ne_zero.2 hnum) hden
  unfold HasExponent normalExponent
  rw [x.abs_value]
  dsimp only
  split
  next hle => exact hshift _ _ (by rwa [add_sub_cancel_right, two_zpow_le_div_iff _ hden]) hhigh
  next hgt => exact hshift _ _ hlow.le (by rwa [← not_le, two_zpow_le_div_iff _ hden])

/-! ### Rounding (R203, D7) -/

/-- c is one of the two integers about x, and x itself where x is an integer. -/
def RoundsTo (x : ℚ) (c : Nat) : Prop := ⌊x⌋₊ ≤ c ∧ c ≤ ⌈x⌉₊

section

variable {x : ℚ} {c m : Nat} (h : RoundsTo x c)

include h

/-- Rounding does not pass an integer above. -/
theorem RoundsTo.le_natCast (hx : x ≤ m) : c ≤ m := h.2.trans (Nat.ceil_le.2 hx)

/-- Rounding does not pass an integer below. -/
theorem RoundsTo.natCast_le (hx : (m : ℚ) ≤ x) : m ≤ c := (Nat.le_floor hx).trans h.1

theorem RoundsTo.eq_natCast (hx : x = m) : c = m := Nat.le_antisymm (h.le_natCast hx.le) (h.natCast_le hx.ge)

theorem RoundsTo.abs_sub_lt_one (hx : 0 ≤ x) : |(c : ℚ) - x| < 1 := by
  have hlow : (⌊x⌋₊ : ℚ) ≤ c := by exact_mod_cast h.1
  have hhigh : (c : ℚ) ≤ ⌈x⌉₊ := by exact_mod_cast h.2
  have hfloor := Nat.lt_floor_add_one x
  have hceil := Nat.ceil_lt_add_one hx
  rw [abs_sub_lt_iff]
  constructor <;> linarith

end

/-- Either choice of `FP_ROUND` is a rounding: it has a choice only where the ratio is not an integer. -/
theorem roundsTo_fpRound (neg : Bool) (num : Nat) {den : Nat} (hden : den ≠ 0) :
    RoundsTo (num / den) (fpRound neg num den).1 := by
  have hpos : (0 : ℚ) < den := by exact_mod_cast Nat.pos_of_ne_zero hden
  have hfloor : ⌊(num / den : ℚ)⌋₊ = num / den := Nat.floor_div_eq_div num den
  rw [RoundsTo, hfloor]
  rcases fpRound_coef neg num den with hcoef | ⟨hrem, hcoef⟩ <;> rw [hcoef]
  · exact ⟨le_rfl, hfloor.symm.trans_le (Nat.floor_le_ceil _)⟩
  · have hbelow : num / den * den < num := by
      have := Nat.div_add_mod' num den
      omega
    refine ⟨Nat.le_succ _, Nat.succ_le_of_lt (Nat.lt_ceil.2 ?_)⟩
    rw [lt_div_iff₀ hpos]
    exact_mod_cast hbelow

/-! ### The parts of a rounded result (R203) -/

/-- The parts of a result with exponent e and rounded coefficient c: a carry out of the coefficient goes into the
exponent (R203). -/
def roundedParts (neg : Bool) (e : Int) (c : Nat) : FpParts :=
  ⟨neg, if c = 2 ^ 36 then e + 1 else e, if c = 2 ^ 36 then 2 ^ 35 else c⟩

/-- The parts have no word: the exponent is beyond its field (R208). -/
def FpParts.OutOfRange (f : FpParts) : Prop := 1023 < f.exp ∨ f.exp < -1023

theorem FpParts.not_outOfRange_iff {f : FpParts} : ¬f.OutOfRange ↔ -1023 ≤ f.exp ∧ f.exp ≤ 1023 := by
  unfold FpParts.OutOfRange
  omega

theorem roundedParts_of_carry (neg : Bool) (e : Int) : roundedParts neg e (2 ^ 36) = ⟨neg, e + 1, 2 ^ 35⟩ := rfl

theorem roundedParts_of_ne (neg : Bool) (e : Int) {c : Nat} (h : c ≠ 2 ^ 36) :
    roundedParts neg e c = ⟨neg, e, c⟩ := by
  rw [roundedParts, if_neg h, if_neg h]

/-- The carry leaves the exponent as it is or counts it up once. -/
theorem roundedParts_exp_bounds (neg : Bool) (e : Int) (c : Nat) :
    e ≤ (roundedParts neg e c).exp ∧ (roundedParts neg e c).exp ≤ e + 1 := by
  unfold roundedParts
  dsimp only
  omega

/-- The carry does not change the value. -/
theorem value_roundedParts (neg : Bool) (e : Int) (c : Nat) :
    (roundedParts neg e c).value = (if neg then -1 else 1) * (c * (2 : ℚ) ^ (e - 36)) := by
  by_cases hcarry : c = 2 ^ 36
  · subst hcarry
    rw [roundedParts_of_carry, FpParts.value, add_sub_right_comm, zpow_add_one₀ two_ne_zero]
    push_cast
    ring
  · rw [roundedParts_of_ne neg e hcarry, FpParts.value, mul_assoc]

theorem sign_mul_abs (v : ℚ) : (if decide (v < 0) then -1 else 1) * |v| = v := by
  by_cases h : v < 0
  · simp [h, abs_of_neg]
  · simp [h, abs_of_nonneg (not_lt.1 h)]

theorem FpParts.abs_value (f : FpParts) : |f.value| = f.coef * (2 : ℚ) ^ (f.exp - 36) := by
  have hpow : (0 : ℚ) < 2 ^ (f.exp - 36) := zpow_pos two_pos _
  rw [FpParts.value, abs_mul, abs_mul, Nat.abs_cast, abs_of_pos hpow]
  cases f.neg <;> simp

/-- The sign bit is the sign of the value, where that is not zero. -/
theorem FpParts.value_lt_zero_iff {f : FpParts} (h : f.coef ≠ 0) : f.value < 0 ↔ f.neg = true := by
  have hcoef : (0 : ℚ) < f.coef := by exact_mod_cast Nat.pos_of_ne_zero h
  have hpow : (0 : ℚ) < 2 ^ (f.exp - 36) := zpow_pos two_pos _
  rw [FpParts.value, Rat.mul_neg_iff_of_pos_right hpow, Rat.mul_neg_iff_of_pos_right hcoef]
  cases f.neg <;> simp

/-- Scaling by the exponent and back. -/
theorem two_zpow_sub_mul_two_zpow_sub (e : Int) : (2 : ℚ) ^ (36 - e) * 2 ^ (e - 36) = 1 := by
  rw [← zpow_add₀ two_ne_zero, sub_add_sub_cancel, sub_self, zpow_zero]

/-- The exponent of normalized parts is that of their value. -/
theorem FpParts.normalized.hasExponent {f : FpParts} (h : f.normalized) : HasExponent f.value f.exp := by
  obtain ⟨_, _, hlow, hhigh⟩ := h
  have hlowq : (2 : ℚ) ^ (35 : Int) ≤ f.coef := by exact_mod_cast hlow
  have hhighq : (f.coef : ℚ) < 2 ^ (36 : Int) := by exact_mod_cast hhigh
  have hpow : (0 : ℚ) < 2 ^ (f.exp - 36) := zpow_pos two_pos _
  rw [HasExponent, f.abs_value]
  constructor
  · calc (2 : ℚ) ^ (f.exp - 1)
      _ = 2 ^ (35 : Int) * 2 ^ (f.exp - 36) := by rw [← zpow_add₀ two_ne_zero]; congr 1; ring
      _ ≤ f.coef * 2 ^ (f.exp - 36) := mul_le_mul_of_nonneg_right hlowq hpow.le
  · calc f.coef * (2 : ℚ) ^ (f.exp - 36)
      _ < 2 ^ (36 : Int) * 2 ^ (f.exp - 36) := mul_lt_mul_of_pos_right hhighq hpow
      _ = 2 ^ f.exp := by rw [← zpow_add₀ two_ne_zero]; congr 1; ring

/-- The rounded result is less than one unit of its last place from the exact one. -/
theorem RoundsTo.abs_value_sub_lt {v : ℚ} {e : Int} {c : Nat} (hc : RoundsTo (|v| * 2 ^ (36 - e)) c) {neg : Bool}
    (hsign : (if neg then -1 else 1) * |v| = v) :
    |(roundedParts neg e c).value - v| < 2 ^ ((roundedParts neg e c).exp - 36) := by
  obtain ⟨hexp, _⟩ := roundedParts_exp_bounds neg e c
  have hpow : (0 : ℚ) < 2 ^ (e - 36) := zpow_pos two_pos _
  have hnear := hc.abs_sub_lt_one (by positivity)
  have hdiff : (roundedParts neg e c).value - v =
      (if neg then -1 else 1) * ((c - |v| * 2 ^ (36 - e)) * 2 ^ (e - 36)) := by
    rw [value_roundedParts, sub_mul, mul_assoc |v|, two_zpow_sub_mul_two_zpow_sub, mul_one, mul_sub, hsign]
  have hone : |(if neg then -1 else 1 : ℚ)| = 1 := by cases neg <;> simp
  calc |(roundedParts neg e c).value - v|
    _ = |(c : ℚ) - |v| * 2 ^ (36 - e)| * 2 ^ (e - 36) := by
      rw [hdiff, abs_mul, hone, one_mul, abs_mul, abs_of_pos hpow]
    _ < 1 * 2 ^ (e - 36) := mul_lt_mul_of_pos_right hnear hpow
    _ = 2 ^ (e - 36) := one_mul _
    _ ≤ 2 ^ ((roundedParts neg e c).exp - 36) := two_zpow_le_iff.2 (by omega)

section

variable {v : ℚ} {e : Int} {c : Nat} (he : HasExponent v e) (hc : RoundsTo (|v| * 2 ^ (36 - e)) c)

include he

/-- A number in range has an exponent in range. -/
theorem HasExponent.bounds_of_inRange (hlow : (2 : ℚ) ^ (-1024 : Int) ≤ |v|)
    (hhigh : |v| < (2 : ℚ) ^ (1023 : Int)) : -1023 ≤ e ∧ e ≤ 1023 := by
  have hlow := two_zpow_lt_iff.1 (hlow.trans_lt he.2)
  have hhigh := two_zpow_lt_iff.1 (he.1.trans_lt hhigh)
  omega

/-- A number out of range has an exponent out of range, below by more than a carry. -/
theorem HasExponent.bounds_of_outOfRange (h : (2 : ℚ) ^ (1023 : Int) ≤ |v| ∨ |v| < (2 : ℚ) ^ (-1025 : Int)) :
    1023 < e ∨ e < -1024 := by
  rcases h with hhigh | hlow
  · exact .inl (two_zpow_lt_iff.1 (hhigh.trans_lt he.2))
  · have hlow := two_zpow_lt_iff.1 (he.1.trans_lt hlow)
    omega

/-- An exact result out of range rounds to an exponent out of range: a carry does not bring it back. -/
theorem HasExponent.outOfRange_roundedParts (neg : Bool) (c : Nat)
    (h : (2 : ℚ) ^ (1023 : Int) ≤ |v| ∨ |v| < (2 : ℚ) ^ (-1025 : Int)) : (roundedParts neg e c).OutOfRange := by
  have hexact := he.bounds_of_outOfRange h
  have hexp := roundedParts_exp_bounds neg e c
  unfold FpParts.OutOfRange
  omega

include hc

/-- The rounded coefficient: from one half to one. -/
theorem RoundsTo.coef_bounds : 2 ^ 35 ≤ c ∧ c ≤ 2 ^ 36 := by
  have hpow : (0 : ℚ) < 2 ^ (36 - e) := zpow_pos two_pos _
  have hhalf : e - 1 + (36 - e) = 35 := by ring
  constructor
  · apply hc.natCast_le
    calc ((2 ^ 35 : Nat) : ℚ)
      _ = 2 ^ (e - 1) * 2 ^ (36 - e) := by rw [← zpow_add₀ two_ne_zero, hhalf]; norm_num
      _ ≤ |v| * 2 ^ (36 - e) := mul_le_mul_of_nonneg_right he.1 hpow.le
  · apply hc.le_natCast
    calc |v| * 2 ^ (36 - e)
      _ ≤ 2 ^ e * 2 ^ (36 - e) := mul_le_mul_of_nonneg_right he.2.le hpow.le
      _ = ((2 ^ 36 : Nat) : ℚ) := by rw [← zpow_add₀ two_ne_zero, add_sub_cancel]; norm_num

/-- The parts of a rounded result have a normalized coefficient. -/
theorem RoundsTo.normalized {neg : Bool} (h : ¬(roundedParts neg e c).OutOfRange) :
    (roundedParts neg e c).normalized := by
  obtain ⟨hhalf, hone⟩ := hc.coef_bounds he
  obtain ⟨hlow, hhigh⟩ := FpParts.not_outOfRange_iff.1 h
  refine ⟨hlow, hhigh, ?_⟩
  rcases hone.eq_or_lt with rfl | hlt
  · exact (by decide : 2 ^ 35 ≤ 2 ^ 35 ∧ 2 ^ 35 < 2 ^ 36)
  · rw [roundedParts_of_ne neg e hlt.ne]
    exact ⟨hhalf, hlt⟩

/-- An exact result within the largest word rounds to an exponent in range: the largest coefficient does not carry. -/
theorem RoundsTo.not_outOfRange_of_inRange (neg : Bool) (hlow : (2 : ℚ) ^ (-1024 : Int) ≤ |v|)
    (hhigh : |v| ≤ (2 ^ 36 - 1) * (2 : ℚ) ^ (987 : Int)) : ¬(roundedParts neg e c).OutOfRange := by
  have hpow : (0 : ℚ) < 2 ^ (987 : Int) := zpow_pos two_pos _
  have hlargest : (2 ^ 36 - 1) * (2 : ℚ) ^ (987 : Int) < 2 ^ (1023 : Int) := by
    calc (2 ^ 36 - 1) * (2 : ℚ) ^ (987 : Int)
      _ < 2 ^ (36 : Int) * 2 ^ (987 : Int) := mul_lt_mul_of_pos_right (by norm_num) hpow
      _ = 2 ^ (1023 : Int) := (zpow_add₀ two_ne_zero _ _).symm
  obtain ⟨helow, hehigh⟩ := he.bounds_of_inRange hlow (hhigh.trans_lt hlargest)
  obtain ⟨hexpLow, hexpHigh⟩ := roundedParts_exp_bounds neg e c
  refine FpParts.not_outOfRange_iff.2 ⟨by omega, ?_⟩
  rcases hehigh.lt_or_eq with hlt | rfl
  · omega
  · have hcoef : c ≤ 2 ^ 36 - 1 := by
      apply hc.le_natCast
      calc |v| * (2 : ℚ) ^ (36 - 1023 : Int)
        _ ≤ (2 ^ 36 - 1) * 2 ^ (987 : Int) * 2 ^ (36 - 1023 : Int) :=
          mul_le_mul_of_nonneg_right hhigh (zpow_pos two_pos _).le
        _ = ((2 ^ 36 - 1 : Nat) : ℚ) := by
          rw [mul_assoc, ← zpow_add₀ two_ne_zero]
          norm_num
    rw [roundedParts_of_ne neg _ (by omega)]

/-- A representable result is not changed by rounding. -/
theorem RoundsTo.roundedParts_of_value_eq {f : FpParts} (hf : f.normalized) (hv : f.value = v) :
    roundedParts (decide (v < 0)) e c = f := by
  subst hv
  obtain rfl := he.unique hf.hasExponent
  obtain ⟨_, _, hlow, hhigh⟩ := hf
  have hcoef : c = f.coef := hc.eq_natCast (by
    rw [f.abs_value, mul_assoc, mul_comm _ ((2 : ℚ) ^ (36 - f.exp)), two_zpow_sub_mul_two_zpow_sub, mul_one])
  have hneg : decide (f.value < 0) = f.neg := by
    rw [Bool.eq_iff_iff, decide_eq_true_iff, FpParts.value_lt_zero_iff (by omega)]
  rw [hcoef, hneg, roundedParts_of_ne _ _ hhigh.ne]

end

/-! ### The common result step (R203, R208) -/

/-- A result that is zero (D33). -/
theorem State.fpResult_of_value_zero (s : State) {x : Exact} (hden : x.den ≠ 0) (h : x.value = 0) :
    s.fpResult x = (s.setA 0#48).setQ 0#48 :=
  if_pos ((Exact.value_eq_zero_iff hden).1 h)

/-- The steps of a result that is not zero. -/
theorem State.fpResult_of_num_ne_zero (s : State) {x : Exact} (h : x.num ≠ 0) {e up : Int} {r : Nat × Word}
    (he : e = normalExponent x.num.natAbs x.den x.exp) (hup : up = 36 - e + x.exp)
    (hr : r = fpRound (decide (x.num < 0)) (x.num.natAbs * 2 ^ up.toNat) (x.den * 2 ^ (-up).toNat)) :
    s.fpResult x = s.fpFinish (decide (x.num < 0)) e r.1 r.2 := by
  subst he hup hr
  exact if_neg h

/-- The coefficient that is rounded is the magnitude of the result, scaled by the exponent. -/
theorem Exact.scaled_eq (x : Exact) (e : Int) {up : Int} (hup : up = 36 - e + x.exp) :
    ((x.num.natAbs * 2 ^ up.toNat : Nat) : ℚ) / (x.den * 2 ^ (-up).toNat : Nat) = |x.value| * 2 ^ (36 - e) := by
  have hpow : (2 : ℚ) ^ (36 - e) * 2 ^ x.exp = 2 ^ up.toNat / 2 ^ (-up).toNat := by
    rw [← zpow_add₀ two_ne_zero, ← hup, two_zpow_eq_div]
  push_cast
  rw [x.abs_value, mul_assoc, mul_comm ((2 : ℚ) ^ x.exp), hpow, div_mul_div_comm]

/-- A result that is not zero is normalized and rounded. -/
theorem State.fpResult_of_value_ne_zero (s : State) {x : Exact} (hden : x.den ≠ 0) (h : x.value ≠ 0) :
    ∃ e c residue, HasExponent x.value e ∧ RoundsTo (|x.value| * 2 ^ (36 - e)) c ∧
      s.fpResult x = s.fpFinish (decide (x.value < 0)) e c residue := by
  have hnum : x.num ≠ 0 := (Exact.value_eq_zero_iff hden).not.1 h
  have hneg : decide (x.value < 0) = decide (x.num < 0) := decide_eq_decide.2 (Exact.value_lt_zero_iff hden)
  rw [hneg, s.fpResult_of_num_ne_zero hnum rfl rfl rfl]
  refine ⟨_, _, _, hasExponent_normalExponent hden hnum, ?_, rfl⟩
  rw [← x.scaled_eq _ rfl]
  exact roundsTo_fpRound _ _ (by positivity)

/-- The exponent fault ends a result whose exponent is out of range (R208). -/
theorem State.fpFinish_of_fault (s : State) {neg : Bool} {e : Int} {c : Nat} (residue : Word)
    (h : (roundedParts neg e c).OutOfRange) : s.fpFinish neg e c residue = s.setExponentFault.freeAQ := if_pos h

/-- Any other result is packed into A, with the residue in Q (R203). -/
theorem State.fpFinish_of_fits (s : State) {neg : Bool} {e : Int} {c : Nat} (residue : Word)
    (h : ¬(roundedParts neg e c).OutOfRange) :
    s.fpFinish neg e c residue = (s.setA (fpPack (roundedParts neg e c))).setQ residue := if_neg h

/-! ### The outcome of the common result step (R203, R208) -/

/-- Packed parts that are near the exact result are the result rounded. -/
theorem roundedInto_fpPack (s : State) (residue : Word) {f : FpParts} {v : ℚ} (hf : f.normalized)
    (hnear : |f.value - v| < 2 ^ (f.exp - 36)) :
    roundedInto s ((s.setA (fpPack f)).setQ residue).advanced v := by
  have ⟨hlow, hhigh, _, hcoef⟩ := hf
  have hunpack := fpUnpack_fpPack hlow hhigh hcoef
  refine ⟨rfl, rfl, hunpack.symm ▸ hf, ?_⟩
  change |(fpUnpack (fpPack f)).value - v| < 2 ^ ((fpUnpack (fpPack f)).exp - 36)
  rwa [hunpack]

section

variable (s : State) {v : ℚ} {e : Int} {c : Nat} (he : HasExponent v e) (hc : RoundsTo (|v| * 2 ^ (36 - e)) c)

include he hc

/-- The exponent fault is an outcome: an exact result in range, or representable, does not end so. -/
theorem floatOutcome_fault (hfault : (roundedParts (decide (v < 0)) e c).OutOfRange) :
    floatOutcome s s.setExponentFault.freeAQ.advanced v := by
  refine ⟨rfl, .inr rfl, fun hlow hhigh => ?_, fun f hf hv => ?_, fun _ => rfl⟩
  · exact absurd hfault (hc.not_outOfRange_of_inRange he _ hlow hhigh)
  · rw [hc.roundedParts_of_value_eq he hf hv] at hfault
    obtain ⟨hlow, hhigh, _⟩ := hf
    exact absurd hfault (FpParts.not_outOfRange_iff.2 ⟨hlow, hhigh⟩)

/-- The packed parts are an outcome: an exact result out of range does not end so. -/
theorem floatOutcome_packed (residue : Word) (hfits : ¬(roundedParts (decide (v < 0)) e c).OutOfRange) :
    floatOutcome s ((s.setA (fpPack (roundedParts (decide (v < 0)) e c))).setQ residue).advanced v := by
  have hrounded := roundedInto_fpPack s residue (hc.normalized he hfits) (hc.abs_value_sub_lt (sign_mul_abs v))
  exact ⟨rfl, .inl hrounded, fun _ _ => hrounded,
    fun f hf hv => congrArg fpPack (hc.roundedParts_of_value_eq he hf hv),
    fun hout => absurd (he.outOfRange_roundedParts _ c hout) hfits⟩

end

/-- The common result step does what R203 and R208 say of an exact result that is not zero. -/
theorem floatOutcome_fpResult (s : State) {x : Exact} (hden : x.den ≠ 0) (h : x.value ≠ 0) :
    floatOutcome s (s.fpResult x).advanced x.value := by
  obtain ⟨e, c, residue, he, hc, hresult⟩ := s.fpResult_of_value_ne_zero hden h
  rw [hresult]
  by_cases hfault : (roundedParts (decide (x.value < 0)) e c).OutOfRange
  · rw [s.fpFinish_of_fault residue hfault]
    exact floatOutcome_fault s he hc hfault
  · rw [s.fpFinish_of_fits residue hfault]
    exact floatOutcome_packed s he hc residue hfault

/-! ### What the instructions answer (R109, R188, R204 to R207) -/

/-- The answer r is the common result step from s on a number of value v, and `next`. -/
def AnswersResult (s : State) (r : Result) (v : ℚ) : Prop :=
  ∃ x : Exact, x.den ≠ 0 ∧ x.value = v ∧ r = .next (s.fpResult x).advanced

theorem AnswersResult.of_zero {s : State} {r : Result} {v : ℚ} (h : AnswersResult s r v) (hv : v = 0) :
    r = .next { s with a := 0#48, q := 0#48, p := s.nextP, half := s.nextHalf } := by
  obtain ⟨x, hden, rfl, rfl⟩ := h
  rw [s.fpResult_of_value_zero hden hv]
  rfl

theorem AnswersResult.of_ne_zero {s : State} {r : Result} {v : ℚ} (h : AnswersResult s r v) (hv : v ≠ 0) :
    ∃ t, r = .next t ∧ floatOutcome s t v := by
  obtain ⟨x, hden, rfl, rfl⟩ := h
  exact ⟨_, rfl, floatOutcome_fpResult s hden hv⟩

/-- The divisor is tested by its numerator (R207). -/
theorem num_fpValue_eq_zero_iff (w : Word) : (fpValue w).num = 0 ↔ floatValue w = 0 := by
  rw [← value_fpValue, Exact.value_eq_zero_iff (by simp [fpValue_den])]

section

variable {s : State} {b : Designator} {e m : Addr} (h : s.resolveAtomic b e = some m)

include h

theorem exec_fad : AnswersResult s (exec (.fad b e) s) (floatValue s.a + floatValue (s.read m)) := by
  refine ⟨(fpValue s.a).add (fpValue (s.read m)), one_ne_zero, ?_, ?_⟩
  · rw [Exact.value_add (fpValue_den _) (fpValue_den _), value_fpValue, value_fpValue]
  · rw [exec, execFad]
    exact withAtomic_advanced h rfl

/-- FSB adds the negative of the operand (R205). -/
theorem exec_fsb : AnswersResult s (exec (.fsb b e) s) (floatValue s.a - floatValue (s.read m)) := by
  refine ⟨(fpValue s.a).add (fpValue (s.read m)).neg, one_ne_zero, ?_, ?_⟩
  · rw [Exact.value_add (fpValue_den _) ((Exact.den_neg _).trans (fpValue_den _)), Exact.value_neg, value_fpValue,
      value_fpValue, sub_eq_add_neg]
  · rw [exec, execFsb]
    exact withAtomic_advanced h rfl

theorem exec_fmu : AnswersResult s (exec (.fmu b e) s) (floatValue s.a * floatValue (s.read m)) := by
  refine ⟨(fpValue s.a).mul (fpValue (s.read m)), one_ne_zero, ?_, ?_⟩
  · rw [Exact.value_mul, value_fpValue, value_fpValue]
  · rw [exec, execFmu]
    exact withAtomic_advanced h rfl

theorem exec_fdv_of_ne_zero (hdivisor : floatValue (s.read m) ≠ 0) :
    AnswersResult s (exec (.fdv b e) s) (floatValue s.a / floatValue (s.read m)) := by
  have hnum := (num_fpValue_eq_zero_iff (s.read m)).not.2 hdivisor
  refine ⟨(fpValue s.a).div (fpValue (s.read m)), Int.natAbs_ne_zero.2 hnum, ?_, ?_⟩
  · rw [Exact.value_div (fpValue_den _) (fpValue_den _) hnum, value_fpValue, value_fpValue]
  · rw [exec, execFdv]
    exact withAtomic_advanced h (if_neg hnum)

/-- A division by zero leaves free values (U7). -/
theorem exec_fdv_of_zero (hdivisor : floatValue (s.read m) = 0) :
    exec (.fdv b e) s = .next s.fpDivideByZero.advanced := by
  rw [exec, execFdv]
  exact withAtomic_advanced h (if_pos ((num_fpValue_eq_zero_iff (s.read m)).2 hdivisor))

end

/-! ### The statements -/

/-- Settles O37: a zero result is the same state of all four operations; a zero dividend gives one. -/
theorem floatZeroCases : Obligations.FloatZeroCases := by
  rintro s b e m z h rfl
  exact ⟨(exec_fad h).of_zero, (exec_fsb h).of_zero, (exec_fmu h).of_zero,
    fun hdividend hdivisor => (exec_fdv_of_ne_zero h hdivisor).of_zero (by rw [hdividend, zero_div]),
    fun hdivisor => ⟨_, exec_fdv_of_zero h hdivisor, rfl⟩⟩

/-- Settles O38: each operation is the common result step on its exact result. -/
theorem floatOperationsRoundExactResult : Obligations.FloatOperationsRoundExactResult := fun _ _ _ _ h =>
  ⟨(exec_fad h).of_ne_zero, (exec_fsb h).of_ne_zero, (exec_fmu h).of_ne_zero,
    fun hdividend hdivisor => (exec_fdv_of_ne_zero h hdivisor).of_ne_zero (div_ne_zero hdividend hdivisor)⟩

end Sys2Proof.Machine

/-! PROOFS. Scaling (spec/44_arithmetic_floating.md R209 to R211): the scaling loop as a number of rotations, at every
width, then what SCA and SCQ answer, and from these the two statements. -/

namespace Sys2Proof.Machine

/-! ### The scaling loop, at every width (R210, R211) -/

/-- The two top bits agree: there is no significant digit to the right of the sign bit (R209). -/
def Unscaled {n : Nat} (x : BitVec n) : Prop := x.getLsbD (n - 1) = x.getLsbD (n - 2)

/-- j is the number of rotations the loop makes of x with count k: as many as the count allows while x is unscaled. -/
def ScalingCount {n : Nat} (k : Nat) (x : BitVec n) (j : Nat) : Prop :=
  j ≤ k ∧ (j = k ∨ ¬Unscaled (x.rotateLeft j)) ∧ ∀ i : Nat, i < j → Unscaled (x.rotateLeft i)

theorem msb_eq_getMsbD_one_iff {n : Nat} (hn : 2 ≤ n) (x : BitVec n) : x.msb = x.getMsbD 1 ↔ Unscaled x := by
  have hone : 1 < n := hn
  have hsecond : n - 1 - 1 = n - 2 := by omega
  rw [BitVec.msb_eq_getLsbD_last, BitVec.getMsbD_eq_getLsbD, hsecond, decide_eq_true hone, Bool.true_and, Unscaled]

theorem rotateLeft_zero {n : Nat} (x : BitVec n) : x.rotateLeft 0 = x := by
  refine BitVec.eq_of_getMsbD_eq fun i hi => ?_
  rw [BitVec.getMsbD_rotateLeft, Nat.zero_add, Nat.mod_eq_of_lt hi, decide_eq_true hi, Bool.true_and]

/-- Rotations add up. -/
theorem rotateLeft_rotateLeft {n : Nat} (x : BitVec n) (i j : Nat) :
    (x.rotateLeft i).rotateLeft j = x.rotateLeft (j + i) := by
  refine BitVec.eq_of_getMsbD_eq fun k hk => ?_
  have hplace : (i + (j + k) % n) % n = (j + i + k) % n := by rw [Nat.add_mod_mod, Nat.add_left_comm, Nat.add_assoc]
  simp only [BitVec.getMsbD_rotateLeft, hplace, Nat.mod_lt _ (Nat.zero_lt_of_lt hk), decide_true, Bool.true_and]

/-- A scaled register is not rotated. -/
theorem ScalingCount.zero {n : Nat} (k : Nat) {x : BitVec n} (h : ¬Unscaled x) : ScalingCount k x 0 :=
  ⟨Nat.zero_le k, .inr (by rwa [rotateLeft_zero]), fun _ hi => absurd hi (Nat.not_lt_zero _)⟩

/-- One rotation of an unscaled register, and those of what it leaves. -/
theorem ScalingCount.succ {n k j : Nat} {x : BitVec n} (hx : Unscaled x) (h : ScalingCount k (rotl x 1) j) :
    ScalingCount (k + 1) x (j + 1) := by
  obtain ⟨hle, hend, hbefore⟩ := h
  simp only [rotl, rotateLeft_rotateLeft] at hend hbefore
  refine ⟨Nat.succ_le_succ hle, hend.imp_left (congrArg (· + 1)), fun i hi => ?_⟩
  cases i with
  | zero => rwa [rotateLeft_zero]
  | succ i => exact hbefore i (Nat.lt_of_succ_lt_succ hi)

/-- The loop leaves the register rotated and the count reduced by the number of its rotations. -/
theorem scaleLeft_eq {n : Nat} (hn : 2 ≤ n) (k : Nat) (x : BitVec n) :
    ∃ j, ScalingCount k x j ∧ scaleLeft k x = (x.rotateLeft j, k - j) := by
  induction k generalizing x with
  | zero =>
    exact ⟨0, ⟨le_rfl, .inl rfl, fun _ hi => absurd hi (Nat.not_lt_zero _)⟩, by rw [scaleLeft, rotateLeft_zero]⟩
  | succ k ih =>
    rw [scaleLeft]
    by_cases hx : x.msb = x.getMsbD 1
    · obtain ⟨j, hj, heq⟩ := ih (rotl x 1)
      refine ⟨j + 1, hj.succ ((msb_eq_getMsbD_one_iff hn x).1 hx), ?_⟩
      rw [if_pos hx, heq, rotl, rotateLeft_rotateLeft, Nat.add_sub_add_right]
    · refine ⟨0, .zero _ ((msb_eq_getMsbD_one_iff hn x).not.1 hx), ?_⟩
      rw [if_neg hx, rotateLeft_zero, Nat.sub_zero]

/-! ### The zero tests (R210, R211) -/

theorem isZero_iff {n : Nat} (x : BitVec n) : isZero x = true ↔ x = 0#n ∨ x = BitVec.allOnes n := by
  simp [isZero, onesOf]

/-- The high half of a zero is a zero of the same sign. -/
theorem isZero_high_of_double {a q : Word} (h : isZero (double a q) = true) : isZero a = true := by
  have hhigh : highHalf (double a q) = a := BitVec.extractLsb'_append_eq_left
  rw [isZero_iff] at h ⊢
  rw [← hhigh]
  exact h.imp (fun h => by rw [h]; rfl) (fun h => by rw [h]; decide)

/-- Whichever reading of the test holds, a zero in AQ passes it. -/
theorem scqZeroTest_of_isZero {a q : Word} (h : isZero (double a q) = true) : scqZeroTest a q = true := by
  unfold scqZeroTest
  split
  · exact h
  · exact isZero_high_of_double h

/-- Whichever reading of the test holds, what passes it has a zero in A. -/
theorem isZero_of_scqZeroTest {a q : Word} (h : scqZeroTest a q = true) : isZero a = true := by
  unfold scqZeroTest at h
  split at h
  · exact isZero_high_of_double h
  · exact h

/-! ### What the instructions answer (R109, R188) -/

/-- An atomic instruction on the index register named that ends with `next`, on the branch that its registers select. -/
theorem withAtomicIndex_advanced {s t : State} {b : Designator} {e k : Addr} {r : Option IndexReg}
    {run : State → Option IndexReg → Addr → State} (h : s.indirectAtomic b e = some (r, k))
    (hrun : run s r k = t.goNext) : withAtomicIndex s b e run = .next t.advanced :=
  withAtomicIndex_eq_next.2 ⟨r, k, h, hrun.trans t.goNext_eq_advanced⟩

/-- The count left in the register named, or nowhere, with whatever stands in A and Q (R23). -/
theorem advanced_setB_setAQ (s : State) (a q : Word) (r : Option IndexReg) (y : Addr) :
    (((s.setA a).setQ q).setB r y).advanced =
      { s with a := a, q := q, b := (s.setB r y).b, p := s.nextP, half := s.nextHalf } := by
  cases r <;> rfl

section

variable {s : State} {b : Designator} {e k : Addr} {r : Option IndexReg} (h : s.indirectAtomic b e = some (r, k))

include h

/-- SCA leaves a zero as it is, and the whole count (R210). -/
theorem exec_sca_of_zero (hzero : isZero s.a = true) :
    exec (.sca b e) s = .next { s with b := (s.setB r k).b, p := s.nextP, half := s.nextHalf } := by
  rw [exec, execSca, withAtomicIndex_advanced h (if_pos hzero)]
  exact congrArg _ (advanced_setB_setAQ s s.a s.q r k)

/-- SCA leaves A and the count as the loop does (R210). -/
theorem exec_sca_of_not_zero (hzero : ¬isZero s.a = true) {x : Word} {left : Nat}
    (hloop : scaleLeft k.toNat s.a = (x, left)) :
    exec (.sca b e) s = .next { s with
      a := x, b := (s.setB r (BitVec.ofNat 15 left)).b, p := s.nextP, half := s.nextHalf } := by
  rw [exec, execSca, withAtomicIndex_advanced h (if_neg hzero), hloop]
  exact congrArg _ (advanced_setB_setAQ s x s.q r _)

/-- SCQ leaves what passes its zero test as it is, and the whole count (R211). -/
theorem exec_scq_of_zero (hzero : scqZeroTest s.a s.q = true) :
    exec (.scq b e) s = .next { s with b := (s.setB r k).b, p := s.nextP, half := s.nextHalf } := by
  rw [exec, execScq, withAtomicIndex_advanced h (if_pos hzero)]
  exact congrArg _ (advanced_setB_setAQ s s.a s.q r k)

/-- SCQ leaves AQ and the count as the loop does (R211). -/
theorem exec_scq_of_not_zero (hzero : ¬scqZeroTest s.a s.q = true) {x : DoubleWord} {left : Nat}
    (hloop : scaleLeft k.toNat (double s.a s.q) = (x, left)) :
    exec (.scq b e) s = .next { s with
      a := highHalf x, q := lowHalf x
      b := (s.setB r (BitVec.ofNat 15 left)).b, p := s.nextP, half := s.nextHalf } := by
  rw [exec, execScq, withAtomicIndex_advanced h (if_neg hzero), hloop]
  exact congrArg _ (advanced_setB_setAQ s (highHalf x) (lowHalf x) r _)

end

/-! ### The statements -/

/-- Settles O39: a zero is left alone, and anything else is left as the loop leaves it. -/
theorem scaleA : Obligations.ScaleA := by
  intro s b e k r h
  rw [← isZero_iff]
  refine ⟨exec_sca_of_zero h, fun hpos hneg => ?_⟩
  obtain ⟨n, ⟨hle, hend, hbefore⟩, hloop⟩ := scaleLeft_eq (by decide) k.toNat s.a
  have hzero : ¬isZero s.a = true := (isZero_iff s.a).not.2 (not_or.2 ⟨hpos, hneg⟩)
  exact ⟨n, hle, exec_sca_of_not_zero h hzero hloop, hend, hbefore⟩

/-- Settles O40: as O39 on AQ, with the number of rotations that the loop makes whether the open zero test lets SCQ
begin it or not. -/
theorem scaleAQ : Obligations.ScaleAQ := by
  rintro s b e k r d unscaled scaled h rfl rfl rfl
  rw [← isZero_iff, ← isZero_iff]
  refine ⟨fun hzero => exec_scq_of_zero h (scqZeroTest_of_isZero hzero), fun _ _ => ?_⟩
  obtain ⟨n, ⟨hle, hend, hbefore⟩, hloop⟩ := scaleLeft_eq (by decide) k.toNat (double s.a s.q)
  refine ⟨n, hle, hend, hbefore, ?_⟩
  by_cases htest : scqZeroTest s.a s.q = true
  · exact .inr ⟨isZero_of_scqZeroTest htest, exec_scq_of_zero h htest⟩
  · exact .inl (exec_scq_of_not_zero h htest hloop)

end Sys2Proof.Machine

/-! PROOFS. No-address instructions (spec/45_no_address.md R221 to R224) and the addition of a logical product
(47_storage_test_and_logical.md R269, R270): what an instruction that works on its own address leaves, the bits of the
address with its sign extended, and from these the two statements. -/

namespace Sys2Proof.Machine

/-! ### An address resolved, and `next` (R78, R109) -/

/-- An instruction on its resolved address that ends with `next`. -/
theorem withAddress_goNext {s u : State} {b : Designator} {e y : Addr} (change : State → Addr → State)
    (h : s.resolveAll b e = some (u, y)) :
    withAddress s b e (fun v k => (change v k).goNext) = .next (change u y).advanced := by
  rw [withAddress_of_resolved _ h, State.goNext_eq_advanced]

/-! ### The bits of an address with its sign extended (R12) -/

/-- Bits 0 to 13 stand where they stood; bit 14 and all above it are bit 14 of the address. -/
theorem getLsbD_sext48 (y : Addr) {i : Nat} (hi : i < 48) : (sext48 y).getLsbD i = y.getLsbD (min i 14) := by
  rw [sext48, BitVec.getLsbD_signExtend, decide_eq_true hi, Bool.true_and]
  by_cases hlow : i < 15
  · rw [if_pos hlow, Nat.min_eq_left (Nat.le_of_lt_succ hlow)]
  · rw [if_neg hlow, BitVec.msb_eq_getLsbD_last, Nat.min_eq_right (by omega)]

/-! ### The index register entered, with B0 not written (R23) -/

/-- ENI enters the address into the register named (R224). -/
theorem exec_eni {s u : State} {b : Designator} {e y : Addr} {r : Option IndexReg}
    (h : s.indirect b e = some (u, r, y)) : exec (.eni b e) s = .next (u.setB r y).advanced :=
  withIndex_goNext (fun v i k => v.setB i k) h

/-! ### The statements -/

/-- Settles O26: ENA and ENQ are one write of the extended address; that of ENI is discarded without a register. -/
theorem enterOperand : Obligations.EnterOperand := by
  refine ⟨fun s u b e y h => ⟨?ena, ?enq⟩, fun s u b e y => ⟨exec_eni, fun r => exec_eni⟩⟩
  case ena => exact ⟨_, withAddress_goNext (fun v k => v.setA (sext48 k)) h, rfl, fun _ => getLsbD_sext48 y⟩
  case enq => exact ⟨_, withAddress_goNext (fun v k => v.setQ (sext48 k)) h, rfl, fun _ => getLsbD_sext48 y⟩

/-- Settles O31: each of the three is the one addition into A of ADD: of the extended address, of the logical product,
and of its complement. -/
theorem addOperandAndMasked : Obligations.AddOperandAndMasked := by
  refine ⟨fun s u b e y h => withAddress_goNext (fun v k => v.addToA v.a (sext48 k)) h, ?_⟩
  rintro s u b e m x h rfl
  exact ⟨withOperand_goNext (fun v k => v.addToA v.a (v.q &&& v.read k)) h,
    withOperand_goNext (fun v k => v.addToA v.a (cmpl (v.q &&& v.read k))) h⟩

end Sys2Proof.Machine

/-! PROOFS. Jumps and stops (spec/46_jumps_and_stops.md R235 to R241; 60_exceptions.md R364): what a jump of either
kind leaves, the conditions of the jumps and of the selective stop, and from these the two statements. -/

namespace Sys2Proof.Machine

/-! ### A jump of either kind (R112, R113, R383) -/

/-- The other agents leave control alone at a point (R84). -/
theorem State.point_p (s : State) : s.point.p = s.p := by
  rw [(point_ioActs s).eq_withOutside, State.withOutside]

/-- The return jump and the interrupt entry store the word that they load into U1 (R113, R378). -/
theorem State.storedAt_enterLower (s : State) (m ret : Addr) :
    storedAt s (s.enterLower m ret) m (s.enterLower m ret).u1 :=
  s.storedAt_write m (setUpperAddress (s.read m) ret)

theorem jumpOutcome_jumpBy (s : State) (j : JumpKind) (m : Addr) : jumpOutcome s (s.jumpBy j m) j m := by
  cases j with
  | normal => exact s.jump_eq m
  | ret =>
    rw [State.jumpBy_ret, State.point_p]
    exact ⟨s.point.enterLower_eq m _, s.point.storedAt_enterLower m _, upperReplaced_setUpperAddress _ _⟩

/-! ### The conditions (R236, R237) -/

/-- The zero tests count both zeros, and the sign is bit 47 (log 37). -/
theorem regCondHolds_iff (c : RegCond) (v : Word) : regCondHolds c v = true ↔ regCondition c v := by
  have hsign : v.msb = v.getLsbD 47 := BitVec.msb_eq_getLsbD_last v
  cases c with
  | zero => exact isZero_iff v
  | nonzero => rw [regCondHolds, regCondition, Bool.not_eq_true', Bool.eq_false_iff, Ne, isZero_iff, not_or]
  | plus => rw [regCondHolds, regCondition, Bool.not_eq_true', hsign]
  | minus => rw [regCondHolds, regCondition, hsign]

theorem keyCondHolds_iff (c : KeyCond) (k : Keys) : keyCondHolds c k = true ↔ keyCondition c k := by
  cases c with
  | always => exact iff_of_true rfl trivial
  | key1 | key2 | key3 => exact Iff.rfl

/-! ### The conditional jumps (R238 to R240) -/

/-- What AJP, QJP and SLJ share: the jump when the condition holds, `next` when it does not. -/
theorem jumps_or_goes_on {s : State} {j : JumpKind} {m : Addr} {x : Result} {test : Bool} {holds : Prop}
    (hexec : x = .next (if test then s.jumpBy j m else s.goNext)) (htest : test = true ↔ holds) :
    (holds → ∃ t, x = .next t ∧ jumpOutcome s t j m) ∧ (¬holds → x = .next s.advanced) := by
  rw [← htest]
  refine ⟨fun hjump => ⟨s.jumpBy j m, ?_, jumpOutcome_jumpBy s j m⟩, fun hgo => ?_⟩
  · rw [hexec, if_pos hjump]
  · rw [hexec, if_neg hgo, State.goNext_eq_advanced]

/-- Settles O41: each of the three jumps or goes on by its own condition. -/
theorem conditionalJumps : Obligations.ConditionalJumps := by
  refine fun s j m => ⟨fun c => ?_, fun c => ?_⟩
  · obtain ⟨hajpJumps, hajpGoes⟩ := jumps_or_goes_on (x := exec (.ajp j c m) s) rfl (regCondHolds_iff c s.a)
    obtain ⟨hqjpJumps, hqjpGoes⟩ := jumps_or_goes_on (x := exec (.qjp j c m) s) rfl (regCondHolds_iff c s.q)
    exact ⟨hajpJumps, hajpGoes, hqjpJumps, hqjpGoes⟩
  · exact jumps_or_goes_on rfl (keyCondHolds_iff c s.jumpKey)

/-! ### The selective stop and its restart (R241, R364) -/

theorem exec_sls_of_stops {s : State} {j : JumpKind} {c : KeyCond} {m : Addr} (h : keyCondition c s.stopKey) :
    exec (.sls j c m) s = .next (s.stop .sls) := by
  rw [exec, execSls, if_pos ((keyCondHolds_iff c s.stopKey).2 h)]

theorem exec_sls_of_jumps {s : State} {j : JumpKind} {c : KeyCond} {m : Addr} (h : ¬keyCondition c s.stopKey) :
    exec (.sls j c m) s = .next (s.jumpBy j m) := by
  rw [exec, execSls, if_neg ((keyCondHolds_iff c s.stopKey).not.2 h)]

/-- The jump left to make after a selective stop, with the keys not tested (R364, log 19). -/
theorem State.resumeStop_of_sls {s : State} {j : JumpKind} {c : KeyCond} {m : Addr} (hheld : s.held = none)
    (hinstr : decode s.currentBits = .sls j c m) : s.resumeStop = s.releaseLockout (s.jumpBy j m) := by
  simp only [State.resumeStop, hheld, hinstr]

theorem State.deliver_start_of_sls {s : State} (h : s.run = .stopped .sls) :
    s.deliver (.operator .start) = { s.resumeStop with run := .running, singleStep := false } := by
  simp only [State.deliver, State.deliverOperator, State.operatorStart, h]

theorem State.deliver_step_of_sls {s : State} (h : s.run = .stopped .sls) (hheld : s.held = none) :
    s.deliver (.operator .step) = { s.resumeStop with run := .stopped .operator, singleStep := true } := by
  simp only [State.deliver, State.deliverOperator, State.operatorStep, h, hheld]

/-- Settles O42: the stop or the jump by the keys; Start and Step then both make the jump that is left, and the release
of the lockout follows it. -/
theorem selectiveStop : Obligations.SelectiveStop := by
  refine ⟨fun s j c m => ⟨exec_sls_of_stops, fun h => ⟨_, exec_sls_of_jumps h, jumpOutcome_jumpBy s j m⟩⟩, ?_⟩
  intro s j c m hrun hheld hinstr
  refine ⟨s.jumpBy j m, jumpOutcome_jumpBy s j m, ?_, ?_⟩
  · rw [State.deliver_start_of_sls hrun, State.resumeStop_of_sls hheld hinstr, State.releaseLockout_eq]
  · rw [State.deliver_step_of_sls hrun hheld, State.resumeStop_of_sls hheld hinstr, State.releaseLockout_eq]

end Sys2Proof.Machine

/-! PROOFS. Storage test and logical instructions (spec/47_storage_test_and_logical.md R261 to R268): the two exits
after a test of the operand, the bits of the masked instructions, and from these the two statements. -/

namespace Sys2Proof.Machine

/-! ### The exits after a storage test (R110, R111, R261, R262) -/

/-- An instruction with an operand in storage that ends in one of the two exits. -/
theorem withOperand_exitIf {s u : State} {b : Designator} {e m : Addr} (change : State → Addr → State)
    (test : State → Addr → Bool) (h : s.operand b e = some (u, m)) :
    withOperand s b e (fun v k => (change v k).exitIf (test v k)) = .next ((change u m).exitOn (test u m)) := by
  rw [withOperand_of_resolved _ h, State.exitIf_eq_exitOn]

/-- An exit writes control alone, so a word stored before it is the only other change. -/
theorem State.exitOn_write (s : State) (m : Addr) (w : Word) (c : Bool) :
    (s.write m w).exitOn c = { s.exitOn c with mem := ((s.write m w).exitOn c).mem } := by
  cases c <;> rfl

theorem State.exitOn_mem (s : State) (c : Bool) : (s.exitOn c).mem = s.mem := by
  cases c <;> rfl

/-- The exit after a write leaves storage as the write did. -/
theorem State.storedAt_exitOn_write (s : State) (m : Addr) (w : Word) (c : Bool) :
    storedAt s ((s.write m w).exitOn c) m w := by
  have hread : ∀ x, ((s.write m w).exitOn c).read x = (s.write m w).read x := State.read_congr (State.exitOn_mem _ c)
  obtain ⟨hsame, hother⟩ := s.storedAt_write m w
  exact ⟨(hread m).trans hsame, fun x hx => (hread x).trans (hother x hx)⟩

/-! ### The bits of the logical instructions (R266, R267) -/

/-- The substitution under a mask (R267): the word's bits where Q is 1, those of A elsewhere. -/
theorem getLsbD_masked (a q x : Word) (i : Nat) :
    ((a &&& ~~~q) ||| (x &&& q)).getLsbD i = if q.getLsbD i then x.getLsbD i else a.getLsbD i := by
  rw [BitVec.getLsbD_or, BitVec.getLsbD_and, BitVec.getLsbD_and, BitVec.getLsbD_not]
  cases hq : q.getLsbD i with
  | true => simp
  | false =>
    have ha : a.getLsbD i = true → i < 48 := BitVec.lt_of_getLsbD
    cases hbit : a.getLsbD i with
    | true => simp [ha hbit]
    | false => simp

/-- The selective clear (R266): the bits of A where the word is 0. -/
theorem getLsbD_cleared (a x : Word) (i : Nat) :
    (a &&& ~~~x).getLsbD i = (a.getLsbD i && !x.getLsbD i) := by
  rw [BitVec.getLsbD_and, BitVec.getLsbD_not]
  cases hbit : a.getLsbD i with
  | true => simp [BitVec.lt_of_getLsbD hbit]
  | false => simp

/-! ### The statements -/

/-- Settles O44: SSK exits by the sign of the word; SSH does so after one write, of the word moved round one place. -/
theorem storageTest : Obligations.StorageTest := by
  intro s u b e m h
  rw [← BitVec.msb_eq_getLsbD_last (u.read m)]
  have hssh : exec (.ssh b e) s =
      .next ((u.point.write m (rotl (u.read m) 1)).exitOn (u.read m).msb) :=
    withOperand_exitIf (fun v k => v.point.write k (rotl (v.read k) 1)) (fun v k => (v.read k).msb) h
  obtain ⟨hsame, hother⟩ := u.point.storedAt_exitOn_write m (rotl (u.read m) 1) (u.read m).msb
  refine ⟨withOperand_exitIf (fun v _ => v) (fun v k => (v.read k).msb) h, _, hssh, State.exitOn_write ..,
    ⟨rfl, hother⟩, ?_⟩
  rw [hsame]
  exact shiftedLeft_rotl_of_lt (u.read m) (by decide)

/-- Settles O45: each of the five is one load of A, with the word its bits are read off from. -/
theorem logicalInstructions : Obligations.LogicalInstructions := by
  rintro s u b e m x h rfl
  refine ⟨?sst, ?scm, ?scl, ?ssu, ?ldl⟩
  case sst => exact ⟨_, withOperand_goNext (fun v k => v.setA (v.a ||| v.read k)) h, rfl, fun _ => BitVec.getLsbD_or⟩
  case scm => exact ⟨_, withOperand_goNext (fun v k => v.setA (v.a ^^^ v.read k)) h, rfl, fun _ => BitVec.getLsbD_xor⟩
  case scl =>
    exact ⟨_, withOperand_goNext (fun v k => v.setA (v.a &&& ~~~v.read k)) h, rfl, getLsbD_cleared u.a _⟩
  case ssu =>
    exact ⟨_, withOperand_goNext (fun v k => v.setA ((v.a &&& ~~~v.q) ||| (v.read k &&& v.q))) h, rfl,
      getLsbD_masked u.a u.q _⟩
  case ldl => exact ⟨_, withOperand_goNext (fun v k => v.setA (v.q &&& v.read k)) h, rfl, fun _ => BitVec.getLsbD_and⟩

end Sys2Proof.Machine

/-! PROOFS. Search and replace instructions (spec/48_search_and_replace.md R280 to R294): the two comparisons as orders
on signed values, for every width, and the replaced word; then one word of a search, a whole list with no other agent
acting, and from these the four statements. -/

namespace Sys2Proof.Machine

/-! ### The comparisons (R281, D24) -/

theorem isZero_iff_toNat {n : Nat} (x : BitVec n) : isZero x = true ↔ x.toNat = 0 ∨ x.toNat = 2 ^ n - 1 := by
  rw [isZero_iff, eq_allOnes_iff_toNat, ← BitVec.toNat_inj, BitVec.toNat_zero]

/-- The signed value by the half of the patterns that the pattern lies in (R9). -/
theorem sval_eq_ite {k : Nat} (x : BitVec (k + 1)) :
    sval x = if 2 ^ k ≤ x.toNat then (x.toNat : Int) - (2 * 2 ^ k - 1 : Nat) else x.toNat := by
  have hhigh := msb_iff_le_toNat x
  cases h : x.msb with
  | false => rw [if_neg (by simpa [h] using hhigh), sval_of_msb_false h]
  | true => rw [if_pos (hhigh.1 h), sval_of_msb_true h, Nat.pow_succ']

/-- The same of the two's complement value: one less in the upper half. -/
theorem toInt_eq_ite {k : Nat} (x : BitVec (k + 1)) :
    x.toInt = if 2 ^ k ≤ x.toNat then (x.toNat : Int) - (2 * 2 ^ k : Nat) else x.toNat := by
  have hhigh := msb_iff_le_toNat x
  rw [BitVec.toInt_eq_msb_cond, Nat.pow_succ']
  simp only [hhigh]

/-- Two patterns have one signed value when they are the same or both zeros. -/
theorem sval_eq_sval_iff {k : Nat} (x y : BitVec (k + 1)) :
    sval x = sval y ↔ x = y ∨ (isZero x = true ∧ isZero y = true) := by
  have hpos : 0 < 2 ^ k := Nat.two_pow_pos k
  have hx := x.isLt
  have hy := y.isLt
  rw [isZero_iff_toNat, isZero_iff_toNat, ← BitVec.toNat_inj, sval_eq_ite, sval_eq_ite]
  rw [Nat.pow_succ'] at hx hy ⊢
  split_ifs <;> omega

/-- The order of the two's complement values is that of the signed values, with +0 above -0. -/
theorem toInt_lt_toInt_iff {k : Nat} (x y : BitVec (k + 1)) :
    y.toInt < x.toInt ↔ sval y < sval x ∨ (x = 0#(k + 1) ∧ y = BitVec.allOnes (k + 1)) := by
  have hpos : 0 < 2 ^ k := Nat.two_pow_pos k
  have hx := x.isLt
  have hy := y.isLt
  rw [eq_allOnes_iff_toNat, ← BitVec.toNat_inj, BitVec.toNat_zero, toInt_eq_ite, toInt_eq_ite, sval_eq_ite, sval_eq_ite]
  rw [Nat.pow_succ'] at hx hy ⊢
  split_ifs <;> omega

theorem searchEq_iff (x y : Word) : searchEq x y = true ↔ x = y ∨ (isZero x = true ∧ isZero y = true) := by
  rw [searchEq, Bool.or_eq_true, Bool.and_eq_true, beq_iff_eq]

theorem searchGt_iff (x y : Word) : searchGt x y = true ↔ y.toInt < x.toInt := by
  rw [toInt_lt_toInt_iff (k := 47), searchGt, Bool.or_eq_true, Bool.and_eq_true, decide_eq_true_eq, beq_iff_eq,
    beq_iff_eq, onesOf]

/-- Settles O20: the equality and the order are those of the signed values at 48 bits. -/
theorem searchComparisons : Obligations.SearchComparisons := fun x y =>
  ⟨(searchEq_iff x y).trans (sval_eq_sval_iff (k := 47) x y).symm,
    (searchEq_iff x y).trans (by rw [isZero_iff, isZero_iff]), searchGt_iff x y⟩

/-! ### The registers at a point (R84) -/

theorem State.point_a (s : State) : s.point.a = s.a := by
  rw [(point_ioActs s).eq_withOutside, State.withOutside]

theorem State.point_q (s : State) : s.point.q = s.q := by
  rw [(point_ioActs s).eq_withOutside, State.withOutside]

theorem State.point_b (s : State) : s.point.b = s.b := by
  rw [(point_ioActs s).eq_withOutside, State.withOutside]

theorem State.point_half (s : State) : s.point.half = s.half := by
  rw [(point_ioActs s).eq_withOutside, State.withOutside]

/-- The other agents leave alone where control goes on. -/
theorem State.point_nextP (s : State) : s.point.nextP = s.nextP := by
  rw [State.nextP, State.nextP, State.point_half, State.point_p]

theorem State.point_nextHalf (s : State) : s.point.nextHalf = s.nextHalf := by
  rw [State.nextHalf, State.nextHalf, State.point_half]

/-! ### The replaced word (R290) -/

/-- What the four replaces share: the sum in A and, after the point between the two references, in the word. -/
theorem withOperand_replaceWith {s u : State} {b : Designator} {e m : Addr} (term : State → Word)
    (h : s.operand b e = some (u, m)) :
    ∃ t, withOperand s b e (fun v k => v.replaceWith k (term v)) = .next t ∧
      t = { u.point with
            mem := t.mem, a := ocAdd (u.read m) (term u)
            faults := { u.point.faults with overflow := u.point.faults.overflow || ocOvf (u.read m) (term u) }
            p := u.nextP, half := u.nextHalf } ∧
      storedAt u.point t m (ocAdd (u.read m) (term u)) := by
  refine ⟨_, withOperand_goNext (fun v k => (v.point.addToA (v.read k) (term v)).write k (ocAdd (v.read k) (term v))) h,
    ?_, (u.point.addToA (u.read m) (term u)).storedAt_write m _⟩
  rw [← u.point_nextP, ← u.point_nextHalf]
  rfl

/-- Settles O46: each of the four adds its own term to the word. -/
theorem replaceInstructions : Obligations.ReplaceInstructions := by
  rintro s u b e m h i x (⟨rfl, rfl⟩ | ⟨rfl, rfl⟩ | ⟨rfl, rfl⟩ | ⟨rfl, rfl⟩)
  · exact withOperand_replaceWith (fun v => v.a) h
  · exact withOperand_replaceWith (fun v => cmpl v.a) h
  · exact withOperand_replaceWith (fun _ => 1#48) h
  · exact withOperand_replaceWith (fun _ => cmpl 1#48) h

/-! ### What a search looks for (R282 to R285) -/

/-- The search i examines words by a test of A, Q and the word. -/
def IsSearch (i : Designator → Addr → Instr) (test : Word → Word → Word → Bool) : Prop :=
  ∀ b e s, exec (i b e) s = search (test s.a s.q) b e s

theorem searchEq_eq_decide (x y : Word) : searchEq x y = decide (sval x = sval y) := by
  rw [Bool.eq_iff_iff, searchEq_iff, decide_eq_true_eq, sval_eq_sval_iff (k := 47)]

theorem searchGt_eq_decide (x y : Word) : searchGt x y = decide (y.toInt < x.toInt) := by
  rw [Bool.eq_iff_iff, searchGt_iff, decide_eq_true_eq]

theorem isSearch_eqs : IsSearch .eqs fun a _ w => decide (sval w = sval a) := fun b e s => by
  simp only [← searchEq_eq_decide]
  rfl

theorem isSearch_ths : IsSearch .ths fun a _ w => decide (a.toInt < w.toInt) := fun b e s => by
  simp only [← searchGt_eq_decide]
  rfl

theorem isSearch_meq : IsSearch .meq fun a q w => decide (sval (q &&& w) = sval a) := fun b e s => by
  simp only [← searchEq_eq_decide]
  rfl

theorem isSearch_mth : IsSearch .mth fun a q w => decide (a.toInt < (q &&& w).toInt) := fun b e s => by
  simp only [← searchGt_eq_decide]
  rfl

/-- Each of the four searches has a test, which finds what it looks for. -/
theorem isSearch_of_searchFinds {i : Designator → Addr → Instr} {u : State} {w : Word} {found : Bool}
    (h : searchFinds i u w found) : ∃ test, IsSearch i test ∧ test u.a u.q w = found := by
  rcases h with ⟨rfl, rfl⟩ | ⟨rfl, rfl⟩ | ⟨rfl, rfl⟩ | ⟨rfl, rfl⟩
  · exact ⟨_, isSearch_eqs, rfl⟩
  · exact ⟨_, isSearch_ths, rfl⟩
  · exact ⟨_, isSearch_meq, rfl⟩
  · exact ⟨_, isSearch_mth, rfl⟩

/-- The references of the chain leave A and Q alone, so the test is that of the state they lead to. -/
theorem IsSearch.exec_of_indirectOperand {i : Designator → Addr → Instr} {test : Word → Word → Word → Bool}
    (hi : IsSearch i test) {s u : State} {b : Designator} {e m : Addr} {r : Option IndexReg}
    (h : s.indirectOperand b e = some (u, r, m)) : exec (i b e) s = search (test u.a u.q) b e s := by
  rw [hi, (ByOtherAgents.indirectOperand h).acts.eq_withOutside, State.withOutside]

/-! ### One word of a search (R280, R286, R304, R376) -/

/-- The count in an index register is one more than the count it is taken down to. -/
theorem toNat_eq_succ_of_ne_zero {x : Addr} (h : x ≠ 0#15) : x.toNat = (x - 1#15).toNat + 1 := by
  bv_omega

theorem toNat_sub_one_eq_zero_iff {x : Addr} : (x - 1#15).toNat = 0 ↔ x = 1#15 := by
  bv_omega

section

variable {s u : State} {b : Designator} {e m : Addr} {r : IndexReg} (found : Word → Bool)

theorem search_of_register (h : s.indirect b e = some (u, some r, m)) :
    search found b e s = .next (searchWords found r m (u.b.get r).toNat u) :=
  withIndex_of_resolved _ h

/-- Without an index register the one word at m is examined. -/
theorem search_of_direct (h : s.indirectOperand b e = some (u, none, m)) :
    search found b e s = .next (if found (u.read m) then u.exitOn true else u.advanced) := by
  obtain ⟨v, hchain, rfl⟩ := State.indirectOperand_eq_some.1 h
  rw [search, withIndex_of_resolved _ hchain, State.searchEnd_eq]

/-- With no count left there is no word to examine. -/
theorem search_of_zero (h : s.indirect b e = some (u, some r, m)) (hzero : u.b.get r = 0#15) :
    search found b e s = .next u.advanced := by
  rw [search_of_register found h, hzero]
  exact congrArg _ (u.searchEnd_eq false)

/-- One word, with v the state in which the count has been taken down: the match, the last word, or what happens between
two words. -/
theorem search_of_count (h : s.indirectOperand b e = some (u, some r, m)) (hcount : u.b.get r ≠ 0#15) {v : State}
    (hv : v = { u with b := u.b.set r (u.b.get r - 1#15) }) :
    search found b e s = .next
      (if found (u.read (ocAdd m (u.b.get r - 1#15))) then v.exitOn true
      else if u.b.get r = 1#15 then v.advanced
      else v.betweenWords (searchWords found r m (v.b.get r).toNat)) := by
  obtain ⟨w, hchain, rfl⟩ := State.indirectOperand_eq_some.1 h
  have hv' : v = w.point.setB (some r) (dec15 (w.point.b.get r)) := hv
  have hget : v.b.get r = w.point.b.get r - 1#15 := by rw [hv, IndexRegs.get_set_same]
  have hread : v.read = w.point.read := by rw [hv]; rfl
  rw [search_of_register found hchain, ← w.point_b, toNat_eq_succ_of_ne_zero hcount,
    searchWords_succ found r m _ hv', hget, hread, State.searchEnd_eq, State.searchEnd_eq]
  simp only [toNat_sub_one_eq_zero_iff, Bool.false_eq_true, if_true, if_false]

end

/-- What happens between two words: an interrupt is entered, or the instruction goes on from there (R376(b), D34). -/
theorem next_betweenWords {v : State} {goOn : State → State} {x : Result} (h : x = .next (goOn v.point)) :
    .next (v.betweenWords goOn) = if v.point.interruptDue then .next v.point.interruptEntry else x := by
  rw [h, State.betweenWords]
  split <;> rfl

/-- A search goes on as the same instruction would. -/
theorem IsSearch.next_betweenWords {i : Designator → Addr → Instr} {test : Word → Word → Word → Bool}
    (hi : IsSearch i test) (v : State) (r : IndexReg) (m : Addr) :
    .next (v.betweenWords (searchWords (test v.a v.q) r m (v.b.get r).toNat)) =
      if v.point.interruptDue then .next v.point.interruptEntry else exec (i (.index r) m) v.point := by
  refine Machine.next_betweenWords ?_
  rw [hi, search_of_register _ (State.indirect_index v.point r m), State.point_a, State.point_q, State.point_b]

/-- Settles O48: the search's own test decides the word; the three ways on are those of one word. -/
theorem searchWordByWord : Obligations.SearchWordByWord := by
  refine ⟨fun s u v b e m r i found h hcount hfinds hv => ?word, fun s u b e m r i w found h hzero hfinds => ?zero,
    fun s u b e m i found h hfinds => ?direct⟩
  case word =>
    obtain ⟨test, hi, rfl⟩ := isSearch_of_searchFinds hfinds
    rw [hi.exec_of_indirectOperand h, search_of_count _ h hcount hv]
    refine ⟨fun hfound => by rw [if_pos hfound], fun hnot hlast => by rw [hnot, if_pos hlast]; rfl,
      fun hnot hmore => ?_⟩
    rw [hnot, if_neg hmore, ← hi.next_betweenWords, hv]
    rfl
  case zero =>
    obtain ⟨test, hi, _⟩ := isSearch_of_searchFinds hfinds
    rw [hi, search_of_zero _ h hzero]
  case direct =>
    obtain ⟨test, hi, rfl⟩ := isSearch_of_searchFinds hfinds
    rw [hi.exec_of_indirectOperand h, search_of_direct _ h]

/-! ### A whole list undisturbed (R280) -/

/-- Undisturbed, what is between two words is the next word. -/
theorem State.betweenWords_of_undisturbed {s : State} (h : s.undisturbed) (goOn : State → State) :
    s.betweenWords goOn = goOn s := by
  obtain ⟨hquiet, hnone⟩ := h
  simp [State.betweenWords, State.point_of_quiet hquiet, hnone]

/-- A count taken down from n + 1 is n, and so is the offset of the word it reaches (D3). -/
theorem dec15_of_toNat {x : Addr} {n : Nat} (h : x.toNat = n + 1) : dec15 x = BitVec.ofNat 15 n := by
  rw [dec15]
  bv_omega

/-- One word of a list undisturbed: the word at offset n, and what the rest of the search does with the count at n. -/
theorem searchWords_of_undisturbed {s : State} (h : s.undisturbed) (found : Word → Bool) (r : IndexReg) (m : Addr)
    {n : Nat} (hn : (s.b.get r).toNat = n + 1) {v : State} (hv : v = { s with b := s.b.set r (BitVec.ofNat 15 n) }) :
    searchWords found r m (n + 1) s =
      if found (s.read (listAddress m n)) then v.exitOn true else searchWords found r m n v := by
  have hv' : v = s.point.setB (some r) (dec15 (s.point.b.get r)) := by
    rw [State.point_of_quiet h.1, dec15_of_toNat hn, hv]
    rfl
  have hundisturbed : v.undisturbed := by rw [hv]; exact h
  have hread : v.read (ocAdd m (v.b.get r)) = s.read (listAddress m n) := by
    rw [hv, IndexRegs.get_set_same]
    rfl
  rw [searchWords_succ found r m n hv', hread, State.betweenWords_of_undisturbed hundisturbed, State.searchEnd_eq]
  cases n <;> rfl

/-- The words of a list undisturbed, down from the highest address: the offset of the first match is left in the index
register, or zero (R280). -/
theorem searchOutcome_searchWords {s : State} (h : s.undisturbed) (found : Word → Bool) (r : IndexReg) (m : Addr)
    {n : Nat} (hn : (s.b.get r).toNat = n) :
    searchOutcome found s (searchWords found r m n s) (some r) m := by
  induction n generalizing s with
  | zero =>
    have hzero : s.b.get r = 0#15 := BitVec.eq_of_toNat_eq hn
    refine .inr ⟨fun i hi => by omega, ?_⟩
    rw [searchWords_zero, State.searchEnd_eq, ← hzero, IndexRegs.set_get]
    rfl
  | succ n ih =>
    have hfits : n < 2 ^ 15 := by have := (s.b.get r).isLt; omega
    have hv : ({ s with b := s.b.set r (BitVec.ofNat 15 n) } : State).undisturbed := h
    have hleft : ((s.b.set r (BitVec.ofNat 15 n)).get r).toNat = n := by
      rw [IndexRegs.get_set_same, BitVec.toNat_ofNat, Nat.mod_eq_of_lt hfits]
    rw [searchWords_of_undisturbed h found r m hn rfl]
    by_cases hfound : found (s.read (listAddress m n)) = true
    · rw [if_pos hfound]
      exact .inl ⟨n, by omega, hfound, fun i hlow hhigh => by omega, rfl⟩
    · have hnot : ∀ i, i < (s.b.get r).toNat → ¬i < n → found (s.read (listAddress m i)) = false := fun i hi hge => by
        have hin : i = n := by omega
        rwa [hin, ← Bool.not_eq_true]
      rw [if_neg hfound]
      rcases ih hv hleft with ⟨j, hj, hmatch, hfirst, hend⟩ | ⟨hnone, hend⟩
      · rw [hleft] at hj hfirst
        refine .inl ⟨j, by omega, hmatch, fun i hlow hhigh => ?_, ?_⟩
        · by_cases hi : i < n
          · exact hfirst i hlow hi
          · exact hnot i hhigh hi
        · rw [hend, IndexRegs.set_set]
      · rw [hleft] at hnone
        refine .inr ⟨fun i hhigh => ?_, ?_⟩
        · by_cases hi : i < n
          · exact hnone i hi
          · exact hnot i hhigh hi
        · rw [hend, IndexRegs.set_set]
          rfl

/-- A search undisturbed, with or without an index register. -/
theorem searchOutcome_search {i : Designator → Addr → Instr} {test : Word → Word → Word → Bool} (hi : IsSearch i test)
    {s : State} {b : Designator} {e m : Addr} {r : Option IndexReg} (h : s.indirect b e = some (s, r, m))
    (hs : s.undisturbed) : ∃ t, exec (i b e) s = .next t ∧ searchOutcome (test s.a s.q) s t r m := by
  rw [hi]
  cases r with
  | none =>
    have hoperand : s.indirectOperand b e = some (s, none, m) :=
      State.indirectOperand_eq_some.2 ⟨s, h, State.point_of_quiet hs.1⟩
    exact ⟨_, search_of_direct _ hoperand, fun hfound => if_pos hfound, fun hnot => if_neg (Bool.eq_false_iff.1 hnot)⟩
  | some r => exact ⟨_, search_of_register _ h, searchOutcome_searchWords hs _ r m rfl⟩

/-- Settles O47: each of the four searches by its own test. -/
theorem searchList : Obligations.SearchList := fun _ _ _ _ _ h hs =>
  ⟨searchOutcome_search isSearch_eqs h hs, searchOutcome_search isSearch_ths h hs,
    searchOutcome_search isSearch_meq h hs, searchOutcome_search isSearch_mth h hs⟩

end Sys2Proof.Machine

/-! PROOFS. Transfer instructions on channel 7 (spec/49_transfer_and_external_function.md R302 to R304): one word of an
input and of an output transfer, the wait, the addresses of a list, a whole list with no other agent acting, and from
these the two statements. -/

namespace Sys2Proof.Machine

/-! ### One word of an input transfer (R302, R304) -/

section

variable {s u : State} {b : Designator} {e m : Addr} {r : IndexReg}

theorem exec_int_of_register (h : s.indirect b e = some (u, some r, m)) :
    exec (.int b e) s = .next (inputWords r m (u.b.get r).toNat u) :=
  withIndex_of_resolved _ h

/-- With no count left the transfer is a pass. -/
theorem exec_int_of_zero (h : s.indirect b e = some (u, some r, m)) (hzero : u.b.get r = 0#15) :
    exec (.int b e) s = .next u.advanced := by
  rw [exec_int_of_register h, hzero]
  exact congrArg _ u.goNext_eq_advanced

/-- A word at hand, with v the state in which it has been stored: the last word, or what happens between two words. -/
theorem exec_int_of_word (h : s.indirectOperand b e = some (u, some r, m)) (hcount : u.b.get r ≠ 0#15) {w : Word}
    {rest : List Word} (hword : u.equipment.ch7In = w :: rest) {v : State}
    (hv : v = { u.write (ocAdd m (u.b.get r - 1#15)) w with
                b := u.b.set r (u.b.get r - 1#15), equipment := { u.equipment with ch7In := rest } }) :
    exec (.int b e) s = .next
      (if u.b.get r = 1#15 then v.advanced else v.betweenWords (inputWords r m (v.b.get r).toNat)) := by
  obtain ⟨x, hchain, rfl⟩ := State.indirectOperand_eq_some.1 h
  have hget : v.b.get r = x.point.b.get r - 1#15 := by rw [hv, IndexRegs.get_set_same]
  rw [exec_int_of_register hchain, ← x.point_b, toNat_eq_succ_of_ne_zero hcount, inputWords_succ, hword, hget,
    ← State.goNext_eq_advanced, hv]
  simp only [toNat_sub_one_eq_zero_iff]
  rfl

/-- With no word at hand the transfer waits, nothing moved (log 21). -/
theorem exec_int_of_no_word (h : s.indirectOperand b e = some (u, some r, m)) (hcount : u.b.get r ≠ 0#15)
    (hword : u.equipment.ch7In = []) : exec (.int b e) s = .next (u.wait (.int (.index r) m)) := by
  obtain ⟨x, hchain, rfl⟩ := State.indirectOperand_eq_some.1 h
  rw [exec_int_of_register hchain, ← x.point_b, toNat_eq_succ_of_ne_zero hcount, inputWords_succ, hword]

/-- Without an index register one word is stored at m, or waited for. -/
theorem exec_int_of_direct_word (h : s.indirectOperand b e = some (u, none, m)) {w : Word} {rest : List Word}
    (hword : u.equipment.ch7In = w :: rest) : exec (.int b e) s = .next (u.inputWord m w rest).advanced := by
  obtain ⟨x, hchain, rfl⟩ := State.indirectOperand_eq_some.1 h
  rw [exec, execInt, withIndex_of_resolved _ hchain]
  simp only [hword, State.goNext_eq_advanced]

theorem exec_int_of_direct_no_word (h : s.indirectOperand b e = some (u, none, m)) (hword : u.equipment.ch7In = []) :
    exec (.int b e) s = .next (u.wait (.int .direct m)) := by
  obtain ⟨x, hchain, rfl⟩ := State.indirectOperand_eq_some.1 h
  rw [exec, execInt, withIndex_of_resolved _ hchain]
  simp only [hword]

end

/-- An input transfer goes on as the same instruction would. -/
theorem next_betweenWords_int (v : State) (r : IndexReg) (m : Addr) :
    .next (v.betweenWords (inputWords r m (v.b.get r).toNat)) =
      if v.point.interruptDue then .next v.point.interruptEntry else exec (.int (.index r) m) v.point :=
  next_betweenWords (by rw [exec_int_of_register (State.indirect_index v.point r m), State.point_b])

/-! ### One word of an output transfer (R303, R304) -/

section

variable {s u : State} {b : Designator} {e m : Addr} {r : IndexReg}

theorem exec_out_of_register (h : s.indirect b e = some (u, some r, m)) :
    exec (.out b e) s = .next (outputWords r m (u.b.get r).toNat u) :=
  withIndex_of_resolved _ h

theorem exec_out_of_zero (h : s.indirect b e = some (u, some r, m)) (hzero : u.b.get r = 0#15) :
    exec (.out b e) s = .next u.advanced := by
  rw [exec_out_of_register h, hzero]
  exact congrArg _ u.goNext_eq_advanced

/-- With a count left, and v the state in which the word has been sent: the wait, the last word, or what happens between
two words. -/
theorem exec_out_of_count (h : s.indirectOperand b e = some (u, some r, m)) (hcount : u.b.get r ≠ 0#15) {v : State}
    (hv : v = (u.setB (some r) (u.b.get r - 1#15)).outputWord (u.read (ocAdd m (u.b.get r - 1#15)))) :
    exec (.out b e) s = .next
      (if u.equipment.ch7Accept = 0 then u.wait (.out (.index r) m)
      else if u.b.get r = 1#15 then v.advanced
      else v.betweenWords (outputWords r m (v.b.get r).toNat)) := by
  obtain ⟨w, hchain, rfl⟩ := State.indirectOperand_eq_some.1 h
  have hget : v.b.get r = w.point.b.get r - 1#15 := by
    rw [hv]
    exact IndexRegs.get_set_same _ r _
  rw [exec_out_of_register hchain, ← w.point_b, toNat_eq_succ_of_ne_zero hcount, outputWords_succ r m _ hv, hget,
    State.goNext_eq_advanced]
  simp only [toNat_sub_one_eq_zero_iff]

/-- Without an index register the one word at m is sent, or waited for. -/
theorem exec_out_of_direct (h : s.indirectOperand b e = some (u, none, m)) :
    exec (.out b e) s = .next
      (if u.equipment.ch7Accept = 0 then u.wait (.out .direct m) else (u.outputWord (u.read m)).advanced) := by
  obtain ⟨v, hchain, rfl⟩ := State.indirectOperand_eq_some.1 h
  rw [exec, execOut, withIndex_of_resolved _ hchain]
  dsimp only
  rw [State.goNext_eq_advanced]

end

/-- An output transfer goes on as the same instruction would. -/
theorem next_betweenWords_out (v : State) (r : IndexReg) (m : Addr) :
    .next (v.betweenWords (outputWords r m (v.b.get r).toNat)) =
      if v.point.interruptDue then .next v.point.interruptEntry else exec (.out (.index r) m) v.point :=
  next_betweenWords (by rw [exec_out_of_register (State.indirect_index v.point r m), State.point_b])

/-! ### The words of a list in storage (R302, D3) -/

/-- No address stands for two counts of a list. -/
theorem listAddress_injective (m : Addr) {i j : Nat} (hi : i < 2 ^ 15 - 1) (hj : j < 2 ^ 15 - 1)
    (h : listAddress m i = listAddress m j) : i = j := by
  have hm := m.isLt
  rw [listAddress, listAddress, ← BitVec.toNat_inj, ocAdd_toNat, ocAdd_toNat, BitVec.toNat_ofNat, BitVec.toNat_ofNat,
    Nat.mod_eq_of_lt (by omega), Nat.mod_eq_of_lt (by omega)] at h
  split_ifs at h <;> omega

/-- From s to t the words ws have been stored down from the highest address of a list, and nothing else. -/
def listStored (s t : State) (m : Addr) (ws : List Word) : Prop :=
  (∀ (j : Nat) (w : Word), ws[j]? = some w → t.read (listAddress m (ws.length - 1 - j)) = w) ∧
    ∀ x : Addr, (∀ j : Nat, j < ws.length → x ≠ listAddress m j) → t.read x = s.read x

theorem listStored_nil {s t : State} (h : t.mem = s.mem) (m : Addr) : listStored s t m [] :=
  ⟨fun j w hw => by simp at hw, fun x _ => State.read_congr h x⟩

/-- The first word goes to the highest address, which none of the words after it reaches. -/
theorem listStored_cons {s v t : State} {m : Addr} {w : Word} {ws : List Word} (hlength : ws.length < 2 ^ 15 - 1)
    (hfirst : storedAt s v (listAddress m ws.length) w) (hrest : listStored v t m ws) :
    listStored s t m (w :: ws) := by
  obtain ⟨hword, hothers⟩ := hfirst
  obtain ⟨hwords, houtside⟩ := hrest
  refine ⟨fun j w' hj => ?_, fun x hx => ?_⟩
  · cases j with
    | zero =>
      obtain rfl : w = w' := by simpa using hj
      rw [List.length_cons, Nat.add_sub_cancel, Nat.sub_zero]
      refine (houtside _ fun j hj heq => ?_).trans hword
      have := listAddress_injective m hlength (by omega) heq
      omega
    | succ j =>
      have hplace : (w :: ws).length - 1 - (j + 1) = ws.length - 1 - j := by rw [List.length_cons]; omega
      rw [hplace]
      exact hwords j w' (by simpa using hj)
  · rw [List.length_cons] at hx
    rw [houtside x fun j hj => hx j (by omega), hothers x (hx ws.length (by omega))]

/-! ### A whole list undisturbed (R302, R303) -/

/-- One word of an input transfer undisturbed. -/
theorem inputWords_of_undisturbed {s : State} (h : s.undisturbed) (r : IndexReg) (m : Addr) {n : Nat}
    (hn : (s.b.get r).toNat = n + 1) {w : Word} {rest : List Word} (hword : s.equipment.ch7In = w :: rest) :
    inputWords r m (n + 1) s =
      inputWords r m n ((s.setB (some r) (BitVec.ofNat 15 n)).inputWord (listAddress m n) w rest) := by
  have hundisturbed : ((s.setB (some r) (BitVec.ofNat 15 n)).inputWord (listAddress m n) w rest).undisturbed := h
  rw [inputWords_succ, State.point_of_quiet h.1, hword, dec15_of_toNat hn]
  dsimp only
  rw [← listAddress, State.betweenWords_of_undisturbed hundisturbed]
  cases n <;> rfl

/-- The words at hand stored undisturbed, down from the highest address; the index register is left zero (R302). -/
theorem inputWords_list {s : State} (h : s.undisturbed) (r : IndexReg) (m : Addr) {ws rest : List Word}
    (hwords : s.equipment.ch7In = ws ++ rest) (hn : (s.b.get r).toNat = ws.length) {t : State}
    (ht : t = inputWords r m ws.length s) :
    t = { s with
          mem := t.mem, b := s.b.set r 0#15, equipment := { s.equipment with ch7In := rest }
          p := s.nextP, half := s.nextHalf } ∧ listStored s t m ws := by
  induction ws generalizing s with
  | nil =>
    have hzero : s.b.get r = 0#15 := BitVec.eq_of_toNat_eq hn
    have hend : t = s.advanced := ht.trans s.goNext_eq_advanced
    subst hend
    refine ⟨?_, listStored_nil rfl m⟩
    rw [← hzero, IndexRegs.set_get, ← List.nil_append rest, ← hwords]
    rfl
  | cons w ws ih =>
    have hfits : ws.length + 1 < 2 ^ 15 := by have := (s.b.get r).isLt; rw [List.length_cons] at hn; omega
    rw [List.length_cons, inputWords_of_undisturbed h r m hn hwords] at ht
    obtain ⟨hframe, hlist⟩ := ih (s := (s.setB (some r) (BitVec.ofNat 15 ws.length)).inputWord _ w (ws ++ rest)) h rfl
      (by
        refine (congrArg BitVec.toNat (IndexRegs.get_set_same s.b r _)).trans ?_
        rw [BitVec.toNat_ofNat, Nat.mod_eq_of_lt (by omega)]) ht
    refine ⟨hframe.trans ?_, listStored_cons (by omega) (s.storedAt_write _ w) hlist⟩
    rw [← IndexRegs.set_set s.b r (BitVec.ofNat 15 ws.length)]
    rfl

/-- One word of an output transfer undisturbed. -/
theorem outputWords_of_undisturbed {s : State} (h : s.undisturbed) (r : IndexReg) (m : Addr) {n : Nat}
    (hn : (s.b.get r).toNat = n + 1) (haccept : s.equipment.ch7Accept ≠ 0) :
    outputWords r m (n + 1) s =
      outputWords r m n ((s.setB (some r) (BitVec.ofNat 15 n)).outputWord (s.read (listAddress m n))) := by
  have hundisturbed : ((s.setB (some r) (BitVec.ofNat 15 n)).outputWord (s.read (listAddress m n))).undisturbed := h
  rw [outputWords_succ r m n rfl, State.point_of_quiet h.1, if_neg haccept, dec15_of_toNat hn, ← listAddress,
    State.betweenWords_of_undisturbed hundisturbed]
  cases n <;> rfl

/-- The words of a list sent undisturbed, down from the highest address; the index register is left zero (R303). -/
theorem outputWords_list {s : State} (h : s.undisturbed) (r : IndexReg) (m : Addr) {n : Nat}
    (hn : (s.b.get r).toNat = n) (haccept : n ≤ s.equipment.ch7Accept) :
    outputWords r m n s = { s with
      b := s.b.set r 0#15
      equipment := { s.equipment with
        ch7Accept := s.equipment.ch7Accept - n
        ch7Out := s.equipment.ch7Out ++ (List.range n).reverse.map fun j => s.read (listAddress m j) }
      p := s.nextP, half := s.nextHalf } := by
  induction n generalizing s with
  | zero =>
    have hzero : s.b.get r = 0#15 := BitVec.eq_of_toNat_eq hn
    rw [← hzero, IndexRegs.set_get, List.range_zero, List.reverse_nil, List.map_nil, List.append_nil]
    exact s.goNext_eq_advanced
  | succ n ih =>
    have hfits : n < 2 ^ 15 := by have := (s.b.get r).isLt; omega
    have hleft : (((s.setB (some r) (BitVec.ofNat 15 n)).outputWord (s.read (listAddress m n))).b.get r).toNat = n := by
      refine (congrArg BitVec.toNat (IndexRegs.get_set_same s.b r _)).trans ?_
      rw [BitVec.toNat_ofNat, Nat.mod_eq_of_lt hfits]
    rw [outputWords_of_undisturbed h r m hn (by omega),
      ih (s := (s.setB (some r) (BitVec.ofNat 15 n)).outputWord _) h hleft (Nat.le_sub_one_of_lt haccept),
      List.range_succ, List.reverse_append, List.reverse_singleton, List.singleton_append, List.map_cons,
      ← IndexRegs.set_set s.b r (BitVec.ofNat 15 n), Nat.add_comm n 1, ← Nat.sub_sub, List.append_cons]
    rfl

/-! ### The statements -/

/-- Settles O49: the whole list by its words one after the other, and each outcome of one word. -/
theorem inputTransfer : Obligations.InputTransfer := by
  refine ⟨fun s b e m r ws rest h hs hwords hlength => ?list, fun s u v b e m r w rest h hcount hword hv => ?word,
    fun s u b e m w rest h hword => ?direct, fun s u b e m hword => ?waits, fun s u b e m r => exec_int_of_zero⟩
  case list =>
    obtain ⟨hframe, hstored, hothers⟩ := inputWords_list hs r m hwords hlength.symm rfl
    exact ⟨_, hlength ▸ exec_int_of_register h, hframe, hstored, hothers⟩
  case word =>
    rw [exec_int_of_word h hcount hword hv]
    refine ⟨fun hlast => by rw [if_pos hlast], fun hmore => ?_⟩
    rw [if_neg hmore, next_betweenWords_int]
  case direct => exact ⟨_, exec_int_of_direct_word h hword, rfl, u.storedAt_write m w⟩
  case waits =>
    exact ⟨fun h => exec_int_of_direct_no_word h hword, fun r h hcount => exec_int_of_no_word h hcount hword⟩

/-- Settles O50: the whole list by its words one after the other, and each outcome of one word. -/
theorem outputTransfer : Obligations.OutputTransfer := by
  refine ⟨fun s b e m r h hs haccept => ?list, fun s u v b e m r h hcount haccept hv => ?word,
    fun s u b e m h haccept => ?direct, fun s u b e m haccept => ?waits, fun s u b e m r => exec_out_of_zero⟩
  case list => rw [exec_out_of_register h, outputWords_list hs r m rfl haccept]
  case word =>
    rw [exec_out_of_count h hcount hv, if_neg haccept]
    refine ⟨fun hlast => by rw [if_pos hlast], fun hmore => ?_⟩
    rw [if_neg hmore, next_betweenWords_out]
  case direct =>
    rw [exec_out_of_direct h, if_neg haccept]
    rfl
  case waits =>
    refine ⟨fun h => ?_, fun r h hcount => ?_⟩
    · rw [exec_out_of_direct h, if_pos haccept]
      rfl
    · rw [exec_out_of_count h hcount rfl, if_pos haccept]
      rfl

end Sys2Proof.Machine

/-! PROOFS. The external function instruction (spec/49_transfer_and_external_function.md R309 to R321, R334, R335): the
fields and the lists of the codes, what a select, an activate and a sense answer, and from these the five statements. -/

namespace Sys2Proof.Machine

/-! ### The channel field of a code (R310, R318) -/

theorem codeChannel_toNat (y : Addr) : (codeChannel y).toNat = y.toNat / 4096 := by
  have hy := y.isLt
  rw [codeChannel, BitVec.extractLsb'_toNat, Nat.shiftRight_eq_div_pow, Nat.mod_eq_of_lt (by omega)]

/-- An internal code has channel field 0. -/
theorem codeIsInternal_iff (y : Addr) : codeIsInternal y = true ↔ y.toNat / 4096 = 0 := by
  rw [codeIsInternal, beq_iff_eq, ← BitVec.toNat_inj, codeChannel_toNat, BitVec.toNat_zero]

/-- The channel field names the buffer channel of its number. -/
theorem codeBufferChannel_eq_some_iff (y : Addr) (c : Channel) :
    codeBufferChannel y = some c ↔ y.toNat / 4096 = channelNumber c := by
  have hlt : (codeChannel y).toNat < 8 := (codeChannel y).isLt
  rw [codeBufferChannel, ← codeChannel_toNat]
  generalize (codeChannel y).toNat = n at hlt ⊢
  interval_cases n <;> cases c <;> decide

/-- Channel fields 1 to 6 name a buffer channel. -/
theorem exists_codeBufferChannel {y : Addr} (hlow : 1 ≤ y.toNat / 4096) (hhigh : y.toNat / 4096 ≤ 6) :
    ∃ c, codeBufferChannel y = some c := by
  simp only [codeBufferChannel_eq_some_iff]
  generalize y.toNat / 4096 = n at hlow hhigh ⊢
  interval_cases n
  exacts [⟨.c1, rfl⟩, ⟨.c2, rfl⟩, ⟨.c3, rfl⟩, ⟨.c4, rfl⟩, ⟨.c5, rfl⟩, ⟨.c6, rfl⟩]

/-- A code that is sent on a buffer channel is not internal. -/
theorem codeIsInternal_of_bufferChannel {y : Addr} {c : Channel} (h : codeBufferChannel y = some c) :
    codeIsInternal y = false := by
  rw [codeBufferChannel_eq_some_iff] at h
  rw [← Bool.not_eq_true, codeIsInternal_iff, h]
  cases c <;> decide

/-- `C0000` is the one code that clears the selections of channel C. -/
theorem eq_of_clearChannelCode {y : Addr} {c : Channel} (h : clearChannelCode y = some c) :
    y = BitVec.ofNat 15 (4096 * channelNumber c) := by
  rw [clearChannelCode] at h
  split at h
  next hlow =>
    have hchannel := (codeBufferChannel_eq_some_iff y c).1 h
    have hlow : y.toNat % 4096 = 0 := by simpa [← BitVec.toNat_inj] using hlow
    have hy := y.isLt
    rw [← BitVec.toNat_inj, BitVec.toNat_ofNat]
    omega
  next => cases h

/-! ### Select (R311, R318, R320, R334) -/

section

variable (s : State) {y : Addr}

theorem exec_select (y : Addr) : exec (.exf .select y) s = .next (s.select y).advanced :=
  congrArg _ (s.select y).goNext_eq_advanced

/-- An internal code in the list has its effect. -/
theorem exec_select_internal {e : InternalSelect} (h : codeIsInternal y = true ∧ internalSelect y = some e) :
    exec (.exf .select y) s = .next (s.selectInternal e).advanced := by
  obtain ⟨hinternal, hlisted⟩ := h
  rw [exec_select, State.select, if_pos hinternal, hlisted]

/-- A code sent on a buffer channel reaches the equipment. -/
theorem State.select_of_external {c : Channel} (h : codeBufferChannel y = some c) :
    s.select y = s.selectExternal y := by
  rw [State.select, codeIsInternal_of_bufferChannel h, h]
  rfl

/-- A code in no list does nothing (R321; log 20). -/
theorem State.select_of_not_listed (h : selectCodeListed y = false) : s.select y = s := by
  rw [selectCodeListed] at h
  rw [State.select]
  split_ifs at h ⊢
  · rw [Option.isSome_eq_false_iff, Option.isNone_iff_eq_none] at h
    rw [h]
  · rw [Option.isSome_eq_false_iff, Option.isNone_iff_eq_none] at h
    rw [h]

/-- What a select can change, with control at the next instruction. -/
theorem State.advanced_select (y : Addr) :
    (s.select y).advanced =
      { s with
        selInactive := (s.select y).selInactive, selArith := (s.select y).selArith, faults := (s.select y).faults
        clockRunning := (s.select y).clockRunning, console := (s.select y).console
        equipment := (s.select y).equipment, p := s.nextP, half := s.nextHalf } := by
  have hframe := s.select_eq y
  generalize s.select y = t at hframe ⊢
  rw [hframe]
  rfl

/-- A code that is in no list of the console, and does not clear a channel of it, leaves it alone. -/
theorem State.selectExternal_console (hcode : consoleSelect y = none) (hc1 : y ≠ 0o10000#15) (hc2 : y ≠ 0o20000#15) :
    (s.selectExternal y).console = s.console := by
  rw [State.selectExternal]
  dsimp only
  cases hclear : clearChannelCode y with
  | none => rw [hcode]
  | some c =>
    cases c with
    | c1 => exact absurd (eq_of_clearChannelCode hclear) hc1
    | c2 => exact absurd (eq_of_clearChannelCode hclear) hc2
    | c3 | c4 | c5 | c6 => rfl

/-- A console code has its effect on the console, and is recorded for the environment (log 23). -/
theorem exec_select_console {c : Channel} {e : ConsoleSelect}
    (h : codeBufferChannel y = some c ∧ clearChannelCode y = none ∧ consoleSelect y = some e) :
    exec (.exf .select y) s = .next { s with
      console := s.console.select e, equipment := { s.equipment with selects := s.equipment.selects ++ [y] }
      p := s.nextP, half := s.nextHalf } := by
  obtain ⟨hchannel, hclear, hlisted⟩ := h
  rw [exec_select, State.select_of_external s hchannel, State.selectExternal, hclear, hlisted]
  rfl

end

/-! ### Sense (R314, R319 to R321, R335) -/

section

variable (s : State) {y : Addr}

/-- A sense that is answered takes the exit of its answer. -/
theorem exec_sense_of_some {c : Bool} (h : s.sense y = some c) : exec (.exf .sense y) s = .next (s.exitOn c) := by
  rw [exec, execExf, State.senseExit, h, ← State.exitIf_eq_exitOn]

/-- A sense in no list is answered by a free bit (log 20). -/
theorem exec_sense_of_none (h : s.sense y = none) :
    exec (.exf .sense y) s =
      .next (State.exitOn { s with freeCount := s.freeCount + 1 } (Config.freeBit s.freeCount)) := by
  rw [exec, execExf, State.senseExit, h, State.exitIf_eq_exitOn]

theorem State.sense_of_internal {e : InternalCondition} (hinternal : codeIsInternal y = true)
    (hlisted : internalCondition y = some e) : s.sense y = some (s.conditionHolds e ^^ isOddCode y) := by
  rw [State.sense, if_pos hinternal, hlisted]

theorem State.sense_of_external {c : Channel} (h : codeBufferChannel y = some c) :
    s.sense y = some (s.senseExternal y) := by
  rw [State.sense, codeIsInternal_of_bufferChannel h, h]
  rfl

/-- Only a code in no list is not answered. -/
theorem State.senseCodeListed_of_sense_eq_none (h : s.sense y = none) : senseCodeListed y = false := by
  rw [State.sense] at h
  rw [senseCodeListed]
  split_ifs at h ⊢
  · cases hcode : internalCondition y with
    | none => rfl
    | some e => simp [hcode] at h
  · cases hcode : codeBufferChannel y with
    | none => rfl
    | some c => simp [hcode] at h

/-- The two codes of an internal pair (R314, R319): both in the list with one condition, the second of them odd. -/
def isInternalPair (code : Nat) (e : InternalCondition) : Bool :=
  let even := BitVec.ofNat 15 code
  let odd := BitVec.ofNat 15 (code + 1)
  codeIsInternal even && codeIsInternal odd && internalCondition even == some e && internalCondition odd == some e &&
    !isOddCode even && isOddCode odd

/-- The even code of an internal pair exits fully when its condition holds, the odd one when it does not. -/
theorem exec_sense_internalPair {code : Nat} {e : InternalCondition} (h : isInternalPair code e = true) :
    exec (.exf .sense (BitVec.ofNat 15 code)) s = .next (s.exitOn (s.conditionHolds e)) ∧
      exec (.exf .sense (BitVec.ofNat 15 (code + 1))) s = .next (s.exitOn (!s.conditionHolds e)) := by
  simp only [isInternalPair, Bool.and_eq_true, Bool.not_eq_true', beq_iff_eq] at h
  obtain ⟨⟨⟨⟨⟨hinternal, hinternal'⟩, hlisted⟩, hlisted'⟩, heven⟩, hodd⟩ := h
  constructor
  · rw [exec_sense_of_some s (s.sense_of_internal hinternal hlisted), heven, Bool.xor_false]
  · rw [exec_sense_of_some s (s.sense_of_internal hinternal' hlisted'), hodd, Bool.xor_true]

theorem isInternalPair_active (c : Channel) : isInternalPair (8 * channelNumber c) (.active c) = true := by
  cases c <;> decide

theorem isInternalPair_line (c : Channel) : isInternalPair (512 * channelNumber c) (.line (.channel c)) = true := by
  cases c <;> decide

/-- The console's own request stands on the line of channel 1 alone (R389, log 22). -/
theorem State.lineLevel_of_ne {l : Line} (h : l ≠ .channel .c1) : s.lineLevel l = s.extInt.get l := by
  rw [State.lineLevel, decide_eq_false h, Bool.false_and, Bool.or_false]

theorem State.lineLevel_c1 :
    s.lineLevel (.channel .c1) =
      (s.extInt.get (.channel .c1) || (s.console.crInterrupt && s.console.carriageReturn) ||
        (s.console.eotInterrupt && s.console.endOfTape)) := by
  rw [State.lineLevel, decide_eq_true rfl, Bool.true_and, Console.request, Bool.or_assoc]

/-- The two codes of a console pair (R335): both sent on a buffer channel, in the console's list with one condition, the
second of them odd. -/
def isConsolePair (code : Nat) (e : ConsoleCondition) : Bool :=
  let even := BitVec.ofNat 15 code
  let odd := BitVec.ofNat 15 (code + 1)
  (codeBufferChannel even).isSome && (codeBufferChannel odd).isSome && consoleCondition even == some e &&
    consoleCondition odd == some e && !isOddCode even && isOddCode odd

theorem exec_sense_consolePair {code : Nat} {e : ConsoleCondition} (h : isConsolePair code e = true) :
    exec (.exf .sense (BitVec.ofNat 15 code)) s = .next (s.exitOn (s.console.conditionHolds e)) ∧
      exec (.exf .sense (BitVec.ofNat 15 (code + 1))) s = .next (s.exitOn (!s.console.conditionHolds e)) := by
  simp only [isConsolePair, Bool.and_eq_true, Bool.not_eq_true', beq_iff_eq, Option.isSome_iff_exists] at h
  obtain ⟨⟨⟨⟨⟨⟨c, hchannel⟩, c', hchannel'⟩, hlisted⟩, hlisted'⟩, heven⟩, hodd⟩ := h
  constructor
  · rw [exec_sense_of_some s (s.sense_of_external hchannel), State.senseExternal, hlisted, heven]
    simp only [Bool.xor_false]
  · rw [exec_sense_of_some s (s.sense_of_external hchannel'), State.senseExternal, hlisted', hodd]
    simp only [Bool.xor_true]

end

/-! ### The statements -/

/-- Settles O52: one partial store at the control word, whose terminal address stays, and the two addresses in CR. -/
theorem activateBuffer : Obligations.ActivateBuffer := by
  rintro s u c y word l rfl rfl rfl
  have hword : (channelBits c).setWidth 15 = BitVec.ofNat 15 (channelNumber c) := by cases c <;> rfl
  have hexec : exec (.exf (.activate c) y) s = .next (s.activate c y).advanced :=
    congrArg _ (s.activate c y).goNext_eq_advanced
  rw [State.activate, hword] at hexec
  obtain ⟨hsame, hothers⟩ := s.point.storedAt_write (BitVec.ofNat 15 (channelNumber c))
    (setUpperAddress (s.point.read (BitVec.ofNat 15 (channelNumber c))) y)
  refine ⟨_, hexec, rfl, ⟨rfl, hothers⟩, ?_, PerChannel.get_set_same .., PerChannel.get_set_same .., fun d hd =>
    ⟨PerChannel.get_set_other _ _ hd, PerChannel.get_set_other _ _ hd⟩⟩
  exact hsame.symm ▸ upperReplaced_setUpperAddress _ y

/-- Settles O51: each code by its row of the list. -/
theorem internalSelectCodes : Obligations.InternalSelectCodes := by
  refine fun s => ⟨fun c => ⟨?on, ?off, ?clear⟩, ?_, ?_, ?_, ?_, ?_, ?_⟩
  case on => exact exec_select_internal s (e := .interruptInactive c true) (by cases c <;> decide)
  case off => exact exec_select_internal s (e := .interruptInactive c false) (by cases c <;> decide)
  case clear =>
    have hchannel : codeBufferChannel (BitVec.ofNat 15 (4096 * channelNumber c)) = some c := by cases c <;> decide
    refine ⟨_, exec_select s _, ?_⟩
    rw [State.select_of_external s hchannel]
    rfl
  · exact exec_select_internal s (e := .interruptFaults true) (by decide)
  · exact exec_select_internal s (e := .interruptFaults false) (by decide)
  · exact exec_select_internal s (e := .clearFaults) (by decide)
  · exact exec_select_internal s (e := .clock true) (by decide)
  · exact exec_select_internal s (e := .clock false) (by decide)
  · exact exec_select_internal s (e := .clearCarriageReturn) (by decide)

/-- Settles O53: each pair by its row of the list. -/
theorem internalSenseCodes : Obligations.InternalSenseCodes := by
  rintro s code condition (⟨rfl, rfl⟩ | ⟨rfl, rfl⟩ | ⟨rfl, rfl⟩ | ⟨rfl, rfl⟩ | ⟨rfl, rfl⟩ | ⟨rfl, rfl⟩ | ⟨rfl, rfl⟩ |
    ⟨rfl, rfl⟩ | ⟨c, rfl, rfl⟩ | ⟨c, hc, rfl, rfl⟩ | ⟨rfl, rfl⟩)
  · exact exec_sense_internalPair s (e := .divideFault) (by decide)
  · exact exec_sense_internalPair s (e := .shiftFault) (by decide)
  · exact exec_sense_internalPair s (e := .overflowFault) (by decide)
  · exact exec_sense_internalPair s (e := .exponentFault) (by decide)
  · exact exec_sense_internalPair s (e := .clockOverflow) (by decide)
  · exact exec_sense_internalPair s (e := .exitOnLower) (by decide)
  · rw [← s.lineLevel_of_ne (by decide)]
    exact exec_sense_internalPair s (e := .line .out7) (by decide)
  · rw [← s.lineLevel_of_ne (by decide)]
    exact exec_sense_internalPair s (e := .line .in7) (by decide)
  · exact exec_sense_internalPair s (isInternalPair_active c)
  · rw [← s.lineLevel_of_ne (by simpa using hc)]
    exact exec_sense_internalPair s (isInternalPair_line c)
  · rw [← s.lineLevel_c1]
    exact exec_sense_internalPair s (isInternalPair_line .c1)

/-- Settles O54: each select and each pair by its row of the console's lists. -/
theorem consoleCodes : Obligations.ConsoleCodes := by
  constructor
  · rintro s y c (⟨rfl, rfl⟩ | ⟨rfl, rfl⟩ | ⟨rfl, rfl⟩ | ⟨rfl, rfl⟩ | ⟨rfl, rfl⟩ | ⟨rfl, rfl⟩ | ⟨rfl, rfl⟩ |
      ⟨rfl, rfl⟩ | ⟨rfl, rfl⟩ | ⟨rfl, rfl⟩)
    · exact exec_select_console s (c := .c1) (e := .keyboard false) (by decide)
    · exact exec_select_console s (c := .c1) (e := .keyboard true) (by decide)
    · exact exec_select_console s (c := .c1) (e := .reader false) (by decide)
    · exact exec_select_console s (c := .c1) (e := .setEndOfTape) (by decide)
    · exact exec_select_console s (c := .c1) (e := .reader true) (by decide)
    · exact exec_select_console s (c := .c2) (e := .typewriterOutput true) (by decide)
    · exact exec_select_console s (c := .c2) (e := .typewriterOutput false) (by decide)
    · exact exec_select_console s (c := .c2) (e := .punch true) (by decide)
    · exact exec_select_console s (c := .c2) (e := .punch false) (by decide)
    · exact exec_select_console s (c := .c2) (e := .punchMotorOff) (by decide)
  · rintro s code condition (⟨rfl, rfl⟩ | ⟨rfl, rfl⟩ | ⟨rfl, rfl⟩ | ⟨rfl, rfl⟩ | ⟨rfl, rfl⟩)
    · exact exec_sense_consolePair s (e := .carriageReturn) (by decide)
    · exact exec_sense_consolePair s (e := .lowerCase) (by decide)
    · exact exec_sense_consolePair s (e := .endOfTape) (by decide)
    · exact exec_sense_consolePair s (e := .assemblyMode) (by decide)
    · exact exec_sense_consolePair s (e := .outOfTape) (by decide)

/-- Settles O55: the select by what its code is, internal, external or in no list; the sense by its answer. -/
theorem everyCodeCompletes : Obligations.EveryCodeCompletes := by
  refine fun s y => ⟨⟨_, exec_select s y, s.advanced_select y⟩, fun hfree => ?free, fun hlow hhigh => ?external, ?sense⟩
  case free => rw [exec_select, s.select_of_not_listed hfree]
  case external =>
    obtain ⟨c, hchannel⟩ := exists_codeBufferChannel hlow hhigh
    refine ⟨⟨(s.selectExternal y).advanced, ?_, rfl, s.selectExternal_console⟩, fun hcode => ?_⟩
    · rw [exec_select, s.select_of_external hchannel]
    · rw [exec_sense_of_some s (s.sense_of_external hchannel), State.senseExternal, hcode]
      simp only [List.contains_eq_mem]
  case sense =>
    cases hsense : s.sense y with
    | some c => exact ⟨_, c, exec_sense_of_some s hsense, by cases c <;> rfl, fun _ => by cases c <;> rfl⟩
    | none =>
      refine ⟨_, Config.freeBit s.freeCount, exec_sense_of_none s hsense, ?_, fun hlisted => ?_⟩
      · cases Config.freeBit s.freeCount <;> rfl
      · rw [s.senseCodeListed_of_sense_eq_none hsense] at hlisted
        cases hlisted

end Sys2Proof.Machine

/-! PROOFS. The buffer channels and the clock (spec/49_transfer_and_external_function.md R316, R330 to R333;
60_exceptions.md R398, R399): one word on a channel, what the console equipment does with it, one advance of the clock,
and from these the two statements. -/

namespace Sys2Proof.Machine

/-! ### One word on a buffer channel (R316) -/

theorem Channel.isInput_iff (c : Channel) : Channel.isInput c = true ↔ c = .c1 ∨ c = .c3 ∨ c = .c5 := by
  cases c <;> decide

theorem Channel.isInput_eq_false_iff (c : Channel) : Channel.isInput c = false ↔ c = .c2 ∨ c = .c4 ∨ c = .c6 := by
  cases c <;> decide

section

variable {s : State} {c : Channel}

theorem State.bufferReady_of_inactive (h : s.active.get c = false) : s.bufferReady c = false := by
  rw [State.bufferReady, h, Bool.false_and]

/-- A typewriter that is hung up holds channel 2 (R331; log 22). -/
theorem State.bufferReady_of_hung (h : s.console.outputHung = true) : s.bufferReady .c2 = false := by
  rw [State.bufferReady, h, decide_eq_true rfl, Bool.true_and, Bool.not_true, Bool.and_false]

theorem State.bufferReady_of_active (h : s.active.get c = true) (hfree : c = .c2 → s.console.outputHung = false) :
    s.bufferReady c = true := by
  rw [State.bufferReady, h, Bool.true_and]
  by_cases hc : c = .c2
  · rw [hfree hc, Bool.and_false, Bool.not_false]
  · rw [decide_eq_false hc, Bool.false_and, Bool.not_false]

/-- Either way the word goes, the current address is advanced, and the channel stays active until it reaches the
terminal address (R316, D15). -/
theorem State.bufferStep_cr_active (w : Word) (h : s.bufferReady c = true) :
    (s.bufferStep c w).cr = s.cr.set c ⟨(s.cr.get c).u + 1#15, (s.cr.get c).l⟩ ∧
      (s.bufferStep c w).active = s.active.set c (decide ((s.cr.get c).u + 1#15 ≠ (s.cr.get c).l)) := by
  cases hinput : Channel.isInput c with
  | true => rw [State.bufferStep_input w h hinput]; exact ⟨rfl, rfl⟩
  | false => rw [State.bufferStep_output w h hinput]; exact ⟨rfl, rfl⟩

/-- The console equipment takes a word on channel 2 alone (R330). -/
theorem State.bufferStep_console (w : Word) (h : s.bufferReady c = true) :
    (s.bufferStep c w).console =
      if c = .c2 then s.console.acceptWord (s.read (s.cr.get c).u) else s.console := by
  cases hinput : Channel.isInput c with
  | true =>
    have hc : c ≠ .c2 := by rintro rfl; cases hinput
    rw [State.bufferStep_input w h hinput, if_neg hc]
  | false => rw [State.bufferStep_output w h hinput]; rfl

end

/-! ### What the console equipment does with a word (R330, R331, R333) -/

section

variable {c : Console} (x : Word)

theorem Console.acceptWord_of_none (h : c.output = .none) : c.acceptWord x = c := by
  rw [Console.acceptWord, h]

/-- In the assembly mode the typewriter types eight characters, the upper six bits first. -/
theorem Console.acceptWord_of_typewriter_assembly (h : c.output = .typewriter true) :
    c.acceptWord x = { c with typed := c.typed ++ disassembleWord x } := by
  cases c
  subst h
  rfl

theorem Console.acceptWord_of_typewriter_character (h : c.output = .typewriter false) :
    c.acceptWord x = { c with typed := c.typed ++ [x.extractLsb' 0 6] } := by
  cases c
  subst h
  rfl

/-- In the assembly mode the punch adds the seventh level to the first of the eight characters. -/
theorem Console.acceptWord_of_punch_assembly (h : c.output = .punch true) :
    c.acceptWord x = { c with punched := c.punched ++ punchFrames x } := by
  cases c
  subst h
  rfl

theorem Console.acceptWord_of_punch_character (h : c.output = .punch false) :
    c.acceptWord x = { c with punched := c.punched ++ [x.extractLsb' 0 7] } := by
  cases c
  subst h
  rfl

end

/-- Settles O56: the channel's own fields for both directions, then the direction, then the console on channel 2. -/
theorem bufferWord : Obligations.BufferWord := by
  rintro s t c w x (ht : t = s.bufferStep c w) rfl
  subst ht
  refine ⟨fun h => State.bufferStep_of_not_ready w (State.bufferReady_of_inactive h), ?hung,
    fun hactive hfree => ?moved⟩
  case hung =>
    rintro rfl hhung
    exact State.bufferStep_of_not_ready w (State.bufferReady_of_hung hhung)
  case moved =>
    have hready := State.bufferReady_of_active hactive hfree
    have hconsole := State.bufferStep_console w hready
    have htaken (hc : c = .c2) : (s.bufferStep c w).console = s.console.acceptWord (s.read (s.cr.get c).u) :=
      hconsole.trans (if_pos hc)
    obtain ⟨hcr, hact⟩ := State.bufferStep_cr_active w hready
    refine ⟨?cr, ?active, fun d hd => ?others, fun hc => ?input, fun hc => ?output, fun hc => ?unmoved,
      fun hc ho => (htaken hc).trans (Console.acceptWord_of_typewriter_assembly _ ho),
      fun hc ho => (htaken hc).trans (Console.acceptWord_of_typewriter_character _ ho),
      fun hc ho => (htaken hc).trans (Console.acceptWord_of_punch_assembly _ ho),
      fun hc ho => (htaken hc).trans (Console.acceptWord_of_punch_character _ ho)⟩
    case cr => rw [hcr, PerChannel.get_set_same]
    case active => rw [hact, PerChannel.get_set_same]
    case others => rw [hcr, hact, PerChannel.get_set_other _ _ hd, PerChannel.get_set_other _ _ hd]; exact ⟨rfl, rfl⟩
    case input =>
      rw [State.bufferStep_input w hready ((Channel.isInput_iff c).2 hc)]
      exact ⟨rfl, s.storedAt_write _ w⟩
    case output =>
      rw [State.bufferStep_output w hready ((Channel.isInput_eq_false_iff c).2 hc)]
      rfl
    case unmoved =>
      rw [hconsole]
      split
      next hc2 => exact Console.acceptWord_of_none _ (hc.resolve_left (absurd hc2))
      next => rfl

/-! ### One advance of the clock (R398, R399) -/

/-- Adding one overflows from the largest positive word alone. -/
theorem ocOvf_one_iff (x : Word) : ocOvf x 1#48 = true ↔ x = 0o3777777777777777#48 := by
  have hx := x.isLt
  have hone : sval 1#48 = 1 := by decide
  have hlargest : (0o3777777777777777#48 : Word).toNat = 2 ^ 47 - 1 := by decide
  rw [ocOvf_iff_sum (k := 47), hone, sval_eq_ite (k := 47), ← BitVec.toNat_inj, hlargest]
  split_ifs <;> omega

/-- Settles O57: one write of the sum, and the indicator on its overflow. -/
theorem clockAdvance : Obligations.ClockAdvance := by
  rintro s t (ht : t = s.clockAdvance)
  refine ⟨fun hstopped => ht.trans (State.clockAdvance_of_stopped hstopped), fun hrunning => ?_⟩
  rw [State.clockAdvance, if_pos hrunning] at ht
  subst ht
  refine ⟨rfl, s.storedAt_write _ _, ?_⟩
  rw [← ocOvf_one_iff]
  exact Bool.or_eq_true_iff

end Sys2Proof.Machine

/-! PROOFS. The interrupt system and the stops (spec/60_exceptions.md R361 to R364, R373 to R383; 30_encoding.md R112):
when an interrupt is due, its entry, the turn of a computer that is stopped or reaches a breakpoint, the two steps of
the return from an interrupt, and from these the four statements. -/

namespace Sys2Proof.Machine

/-! ### When an interrupt is due (R373 to R375) -/

theorem mem_allChannels (c : Channel) : c ∈ allChannels := by
  cases c <;> decide

theorem mem_allLines (l : Line) : l ∈ allLines := by
  cases l with
  | channel c => cases c <;> decide
  | out7 | in7 => decide

/-- The internal request (R373). -/
theorem State.internalRequest_iff (s : State) :
    s.internalRequest = true ↔
      (s.selArith = true ∧
          (s.faults.divide = true ∨ s.faults.shift = true ∨ s.faults.overflow = true ∨ s.faults.exponent = true ∨
            s.faults.clockOverflow = true)) ∨
        ∃ c : Channel, s.selInactive.get c = true ∧ s.active.get c = false := by
  simp only [State.internalRequest, allFaultCauses, List.any_cons, List.any_nil, Bool.or_false, Bool.or_eq_true,
    List.any_eq_true, mem_allChannels, true_and, State.causeStands, Bool.and_eq_true, Bool.not_eq_true', ← and_or_left]

/-- The level of a line, with the console's own request on that of channel 1 (R35, R389; log 22). -/
theorem State.lineLevel_iff (s : State) (l : Line) :
    s.lineLevel l = true ↔
      s.extInt.get l = true ∨
        (l = .channel .c1 ∧
          ((s.console.crInterrupt = true ∧ s.console.carriageReturn = true) ∨
            (s.console.eotInterrupt = true ∧ s.console.endOfTape = true))) := by
  simp only [State.lineLevel, Console.request, Bool.or_eq_true, Bool.and_eq_true, decide_eq_true_eq]

/-- The external request (R374). -/
theorem State.externalRequest_iff (s : State) :
    s.externalRequest = true ↔ ∃ l : Line, s.imr.get l = false ∧ s.lineLevel l = true := by
  simp only [State.externalRequest, List.any_eq_true, mem_allLines, true_and, State.causeStands, State.mir,
    Bool.and_eq_true, Bool.not_eq_true', and_comm]

/-- Settles O8: the two requests, unless the lockout holds them off. -/
theorem interruptDue : Obligations.InterruptDue := fun s => by
  simp only [State.interruptDue, Bool.and_eq_true, Bool.not_eq_true', Bool.or_eq_true, State.internalRequest_iff,
    State.externalRequest_iff, State.lineLevel_iff, or_assoc]

/-! ### The interrupt entry (R377 to R379) -/

/-- INT_ENTRY answers the address of one of the nine control words (R377). -/
theorem inControlBlock_entryAddress (s : State) : inControlBlock s.entryAddress = true := by
  rw [State.entryAddress]
  split
  next rule _ =>
    have hoffset := rule.offset.isLt
    rw [inControlBlock, decide_eq_true_eq, BitVec.toNat_ofNat]
    omega
  next => decide

/-- With no rule the control word is that of the spec's default (R377). -/
theorem State.entryAddress_of_nil {s : State} (h : s.params.intEntry = []) : s.entryAddress = 0o7#15 := by
  rw [State.entryAddress, h]
  rfl

/-- A first rule that fits decides (log 15). -/
theorem State.entryAddress_of_fits {s : State} {rule : EntryRule} {rest : List EntryRule}
    (h : s.params.intEntry = rule :: rest) (hfits : ∀ c x, (c, x) ∈ rule.causes → s.causeStands c = x) :
    s.entryAddress = BitVec.ofNat 15 (7 + rule.offset.val) := by
  have hrule : rule.fits s = true := by
    rw [EntryRule.fits, List.all_eq_true]
    exact fun c hc => beq_iff_eq.2 (hfits c.1 c.2 hc)
  rw [State.entryAddress, h, List.find?_cons_of_pos (by exact hrule)]

/-- An interrupt that is due is entered at the start of a program step, or before any instruction (R376, INT_POINTS). -/
theorem State.atInterruptPoint_of {s : State} (h : s.half = .upper ∨ s.params.intPoints = .everyInstruction) :
    s.atInterruptPoint = true := by
  rw [State.atInterruptPoint]
  cases hpoints : s.params.intPoints with
  | everyInstruction => rfl
  | stepBoundary => simpa [hpoints] using h

/-- A turn that takes an interrupt is its entry alone (R376). -/
theorem programTurn_of_interrupt {u : State} (hstorage : u.faults.anyStorage = false) (hheld : u.held = none)
    (hpoint : u.atInterruptPoint = true) (hdue : u.interruptDue = true) :
    programTurn u = .next { u.interruptEntry with mid := [] } := by
  simp only [programTurn, hstorage, hheld, hpoint, hdue, Bool.and_true, Bool.false_eq_true, if_true, if_false]

/-- A step of the running computer is a turn of the control section (R108). -/
theorem step_of_running {s u : State} (hu : s.beginTurn = u) (hrun : u.run = .running) : step s = programTurn u := by
  rw [step, turn, hu, hrun]

/-- Settles O6: the address by the rules, the entry as a return jump that stores P, and the turn that takes it. -/
theorem interruptEntry : Obligations.InterruptEntry := by
  refine ⟨?_, fun s u hu hrun hstorage hheld hpoint hdue => ?_⟩
  · rintro u t e rfl rfl
    exact ⟨inControlBlock_entryAddress u, State.entryAddress_of_nil, fun rule rest => State.entryAddress_of_fits,
      u.interruptEntry_eq, u.storedAt_enterLower _ _, upperReplaced_setUpperAddress _ _⟩
  · rw [step_of_running hu hrun, programTurn_of_interrupt hstorage hheld (State.atInterruptPoint_of hpoint) hdue]

/-! ### Stops and breakpoints (R361 to R364) -/

/-- The breakpoint stops the computer before the fetch (R362). -/
theorem programTurn_of_breakpoint {u : State} (hstorage : u.faults.anyStorage = false) (hheld : u.held = none)
    (hint : u.interruptDue = false) (hhalf : u.half = .upper) (hbreak : u.breakpointStops = true) :
    programTurn u = .next { u.stop .breakpoint with mid := [] } := by
  simp only [programTurn, hstorage, hheld, hint, hhalf, hbreak, Bool.and_false, Bool.false_eq_true, if_true, if_false]

/-- Settles O5: the turn of a stopped computer, the stop at a breakpoint, and the restart that passes it. -/
theorem stoppedAndBreakpoint : Obligations.StoppedAndBreakpoint := by
  refine ⟨fun s u why hu hrun => ?stopped, fun s u hu hrun hstorage hheld hhalf hint hat hnew => ?breaks,
    fun s hrun => ?restarts, fun s => State.beginTurn_of_quiet⟩
  case stopped =>
    rcases step_cases s with ⟨_, _, hstep⟩ | ⟨hgoes, _⟩
    · rw [hstep, hu]
    · rw [hu, hrun] at hgoes
      cases hgoes
  case breaks =>
    have hbreak : u.breakpointStops = true := by simp [State.breakpointStops, hat, hnew]
    rw [step_of_running hu hrun, programTurn_of_breakpoint hstorage hheld hint hhalf hbreak, State.stop]
  case restarts =>
    simp only [State.deliver, State.deliverOperator, State.operatorStart, State.operatorStep, hrun, and_self]

/-! ### The return from an interrupt (R383, R112) -/

/-- At an upper instruction of an interrupt routine, with nothing in the script, nothing held and no breakpoint. -/
structure State.InRoutine (s : State) : Prop where
  quiet : s.moments = []
  running : s.run = .running
  storage : s.faults.anyStorage = false
  neutral : s.modeSwitch = .neutral
  highSpeed : s.singleStep = false
  free : s.held = none
  unbroken : s.breakpoint = none
  upper : s.half = .upper
  lockout : s.lockout = true

/-- The upper instruction `75 0 m` in the routine: from where the return has begun it releases the lockout, and
otherwise it begins the return when m is in the control block (D12, log 16). -/
theorem step_slj_of_inRoutine {s : State} (h : s.InRoutine) {m : Addr}
    (hinstr : decode (upperInstr (s.read s.p)) = .slj .normal .always m) :
    step s = .next { s with
      p := m, half := .upper, u1 := s.read s.p, lastPos := .upper, breakPassed := false, lockout := !s.intExit
      intExit := !s.intExit && inControlBlock m, mid := [] } := by
  obtain ⟨u, hu⟩ : ∃ u : State, u = { s with mid := [] } := ⟨_, rfl⟩
  obtain ⟨v, hv⟩ : ∃ v : State, v = { u with u1 := u.read u.p, breakPassed := false, lastPos := .upper } := ⟨_, rfl⟩
  have hread : u.read u.p = s.read s.p := by rw [hu]; rfl
  have hbegin : s.beginTurn = u := hu ▸ State.beginTurn_of_quiet h.quiet
  have hpoint : u.point = u := State.point_of_quiet (hu ▸ rfl)
  have hdue : u.interruptDue = false := by rw [State.interruptDue, hu, h.lockout]; rfl
  have hrun : (v.jump m).run = .running := by rw [hv, hu]; exact h.running
  have hheld : (v.jump m).held = none := by rw [hv, hu]; exact h.free
  obtain ⟨hgoes, _, _⟩ := stepRunsDecodedInstruction s u v (.slj .normal .always m) hbegin (hu ▸ h.running)
    (hu ▸ h.storage) (hu ▸ h.neutral) (.inl ⟨hu ▸ h.free, by rw [hdue, Bool.and_false], hu ▸ h.upper,
      .inl (by rw [hu, h.unbroken]; exact nofun), by rw [hpoint, hread, hinstr], by rw [hpoint]; exact hv⟩)
  rw [hgoes (v.jump m) rfl hrun hheld, State.jump_eq, hv, hread, hu]
  simp only [h.highSpeed, h.lockout, h.upper, h.running]
  cases s.intExit <;> simp

/-- Two steps of a run that go on. -/
theorem runSteps_two {s t u : State} (hst : step s = .next t) (htu : step t = .next u) : runSteps 2 s = .next u := by
  simp only [runSteps, hst, htu]

/-- Settles O7: the first of the two jumps begins the return, the second, still in the routine, completes it. -/
theorem interruptReturn : Obligations.InterruptReturn := by
  intro s e m hquiet hrun hstorage hmode hspeed hheld hbreak hhalf hlockout hexit he hfirst hsecond
  have hs : s.InRoutine := ⟨hquiet, hrun, hstorage, hmode, hspeed, hheld, hbreak, hhalf, hlockout⟩
  have hbegins := step_slj_of_inRoutine hs hfirst
  rw [hexit, he] at hbegins
  have hcompletes := step_slj_of_inRoutine (m := m) (s := { s with
    p := e, half := .upper, u1 := s.read s.p, lastPos := .upper, breakPassed := false, lockout := true
    intExit := true, mid := [] }) { hs with upper := rfl, lockout := rfl } hsecond
  exact runSteps_two hbegins hcompletes

end Sys2Proof.Machine

/-! PROOFS. How an instruction, a step and a run can end (spec/60_exceptions.md R360, R406; 20_memory.md R77): each
operand form is stuck on its endless chain alone, so every instruction goes on or is stuck, and from the invariant so
does every step and every run. -/

namespace Sys2Proof.Machine

/-! ### How an instruction can end (R77, R406) -/

/-- The answer x is stuck when the chain of b and e from s is endless, and a next state when it ends. -/
def StuckOnEndlessChain (s : State) (b : Designator) (e : Addr) (x : Result) : Prop :=
  (s.indirect b e = none → x = .fault .endlessIndirection) ∧ (s.indirect b e ≠ none → ∃ t, x = .next t)

section

variable (s : State) (b : Designator) (e : Addr)

theorem stuckOnEndlessChain_withIndex (run : State → Option IndexReg → Addr → State) :
    StuckOnEndlessChain s b e (withIndex s b e run) := by
  refine ⟨withIndex_of_endless run, fun h => ?_⟩
  obtain ⟨⟨u, r, m⟩, hchain⟩ := Option.ne_none_iff_exists'.1 h
  exact ⟨_, withIndex_of_resolved run hchain⟩

theorem stuckOnEndlessChain_withAddress (run : State → Addr → State) :
    StuckOnEndlessChain s b e (withAddress s b e run) := by
  refine ⟨withAddress_of_endless run, fun h => ?_⟩
  obtain ⟨⟨u, m⟩, hresolved⟩ := Option.ne_none_iff_exists'.1 (State.resolveAll_eq_none.not.2 h)
  exact ⟨_, withAddress_of_resolved run hresolved⟩

theorem stuckOnEndlessChain_withOperand (run : State → Addr → State) :
    StuckOnEndlessChain s b e (withOperand s b e run) := by
  refine ⟨withOperand_of_endless run, fun h => ?_⟩
  obtain ⟨⟨u, m⟩, hoperand⟩ := Option.ne_none_iff_exists'.1 (State.operand_eq_none.not.2 h)
  exact ⟨_, withOperand_of_resolved run hoperand⟩

theorem stuckOnEndlessChain_withIndirectOperand (run : State → Option IndexReg → Addr → State) :
    StuckOnEndlessChain s b e (withIndirectOperand s b e run) := by
  refine ⟨withIndirectOperand_of_endless run, fun h => ?_⟩
  obtain ⟨⟨u, r, m⟩, hoperand⟩ := Option.ne_none_iff_exists'.1 (State.indirectOperand_eq_none.not.2 h)
  exact ⟨_, withIndirectOperand_of_resolved run hoperand⟩

theorem stuckOnEndlessChain_withAtomic (run : State → Addr → State) :
    StuckOnEndlessChain { s with mid := [] } b e (withAtomic s b e run) := by
  refine ⟨withAtomic_of_endless run, fun h => ?_⟩
  obtain ⟨m, hresolved⟩ := Option.ne_none_iff_exists'.1 (State.resolveAtomic_eq_none.not.2 h)
  exact ⟨_, withAtomic_of_resolved run hresolved⟩

theorem stuckOnEndlessChain_shiftBy (shift : State → Nat → State) :
    StuckOnEndlessChain { s with mid := [] } b e (shiftBy b e s shift) :=
  stuckOnEndlessChain_withAtomic s b e _

theorem stuckOnEndlessChain_withAtomicIndex (run : State → Option IndexReg → Addr → State) :
    StuckOnEndlessChain { s with mid := [] } b e (withAtomicIndex s b e run) := by
  refine ⟨withAtomicIndex_of_endless run, fun h => ?_⟩
  obtain ⟨⟨r, m⟩, hchain⟩ := Option.ne_none_iff_exists'.1 (State.indirectAtomic_eq_none.not.2 h)
  exact ⟨_, withAtomicIndex_of_resolved run hchain⟩

end

/-- In an atomic instruction the chain is followed with no other agent acting (R188, R431). -/
theorem chainStart_of_atomic {i : Instr} (h : isAtomic i = true) (s : State) : chainStart i s = { s with mid := [] } :=
  if_pos h

/-- An instruction to which indirect addressing applies is stuck on its chain alone: its form decides. -/
theorem stuckOnEndlessChain_exec {i : Instr} {b : Designator} {e : Addr} (h : indexOperand i = some (b, e))
    (s : State) : StuckOnEndlessChain (chainStart i s) b e (exec i s) := by
  cases i with dsimp only [indexOperand] at h
  | zro | sev | ajp | qjp | exf | slj | sls => cases h
  | ars | qrs | lrs | als | qls | lls =>
    cases h
    rw [chainStart_of_atomic rfl, exec]
    exact stuckOnEndlessChain_shiftBy s b e _
  | mui | dvi | muf | dvf | fad | fsb | fmu | fdv =>
    cases h
    rw [chainStart_of_atomic rfl, exec]
    exact stuckOnEndlessChain_withAtomic s b e _
  | sca | scq =>
    cases h
    rw [chainStart_of_atomic rfl, exec]
    exact stuckOnEndlessChain_withAtomicIndex s b e _
  | enq | ena | ina =>
    cases h
    exact stuckOnEndlessChain_withAddress s b e _
  | lda | lac | add | sub | ldq | lqc | sta | stq | ssk | ssh | sst | scl | scm | ssu | ldl | adl | sbl | stl | sau
  | sal | rad | rsb | rao | rso =>
    cases h
    exact stuckOnEndlessChain_withOperand s b e _
  | liu | lil | siu | sil =>
    cases h
    exact stuckOnEndlessChain_withIndirectOperand s b e _
  | eni | ini | isk | ijp | int | out | eqs | ths | meq | mth =>
    cases h
    exact stuckOnEndlessChain_withIndex s b e _

/-- The jumps, the stops, the external functions and the illegal codes always complete. -/
theorem exec_completes_of_no_operand {i : Instr} (h : indexOperand i = none) (s : State) : ∃ t, exec i s = .next t := by
  cases i with dsimp only [indexOperand] at h
  | zro | sev | ajp | qjp | slj | sls => exact ⟨_, rfl⟩
  | exf j => cases j <;> exact ⟨_, rfl⟩
  | _ => cases h

/-- Settles O16: an instruction with a chain is stuck on it alone, one without completes. -/
theorem execStuckOnlyOnEndlessChain : Obligations.ExecStuckOnlyOnEndlessChain := by
  refine fun i s => ⟨fun b e hoperand => (stuckOnEndlessChain_exec hoperand s).1, fun hends => ?_⟩
  cases hoperand : indexOperand i with
  | none => exact exec_completes_of_no_operand hoperand s
  | some operand => exact (stuckOnEndlessChain_exec hoperand s).2 (hends _ _ hoperand)

/-! ### How a step and a run can end (R360, R406) -/

/-- The answer x is a next state, or stuck in an endless indirect chain. -/
def GoesOnOrStuck (x : Result) : Prop := (∃ t, x = .next t) ∨ x = .fault .endlessIndirection

theorem GoesOnOrStuck.next (t : State) : GoesOnOrStuck (.next t) := .inl ⟨t, rfl⟩

theorem exec_goesOnOrStuck (i : Instr) (s : State) : GoesOnOrStuck (exec i s) := by
  obtain ⟨hstuck, hcompletes⟩ := execStuckOnlyOnEndlessChain i s
  by_cases hends : ∀ b e, indexOperand i = some (b, e) → (chainStart i s).indirect b e ≠ none
  · exact .inl (hcompletes hends)
  · push Not at hends
    obtain ⟨b, e, hoperand, hendless⟩ := hends
    exact .inr (hstuck b e hoperand hendless)

theorem executeCurrent_goesOnOrStuck (s : State) : GoesOnOrStuck (executeCurrent s) := by
  have hexec := exec_goesOnOrStuck s.currentInstr s.beginInstr
  rcases executeCurrent_cases s with ⟨_, hsweep⟩ | ⟨t, _, hnext⟩ | ⟨r, _, hfault⟩ | ⟨r, hrefused, _⟩
  · exact hsweep ▸ .next _
  · exact hnext ▸ .next _
  · exact .inr hfault
  · rw [hrefused] at hexec
    rcases hexec with ⟨_, h⟩ | h <;> cases h

/-- Only a storage fault makes a turn refuse (R33, R370). -/
theorem programTurn_goesOnOrStuck {s : State} (h : s.faults.anyStorage = false) : GoesOnOrStuck (programTurn s) := by
  rcases programTurn_cases s with ⟨hfault, _⟩ | ⟨_, hheld⟩ | ⟨_, _, hentry⟩ | ⟨_, _, hlower⟩ | ⟨_, _, hbreak⟩ |
    ⟨_, _, _, hupper⟩
  · simp [h] at hfault
  · exact hheld ▸ executeCurrent_goesOnOrStuck s
  · exact hentry ▸ .next _
  · exact hlower ▸ executeCurrent_goesOnOrStuck s
  · exact hbreak ▸ .next _
  · exact hupper ▸ executeCurrent_goesOnOrStuck s.fetchStep

theorem step_goesOnOrStuck {s : State} (h : s.Inv) : GoesOnOrStuck (step s) := by
  rcases step_cases s with ⟨_, _, hstopped⟩ | ⟨_, hturn⟩
  · exact hstopped ▸ .next _
  · exact hturn ▸ programTurn_goesOnOrStuck h.beginTurn.storage

theorem runSteps_goesOnOrStuck (n : Nat) {s : State} (h : s.Inv) : GoesOnOrStuck (runSteps n s) := by
  induction n generalizing s with
  | zero => exact .next s
  | succ n ih =>
    rw [runSteps]
    rcases step_goesOnOrStuck h with ⟨t, hnext⟩ | hstuck
    · rw [hnext]
      exact ih (stepKeepsInvariant s t h hnext)
    · rw [hstuck]
      exact .inr rfl

/-- Settles O13: every step of the run goes on from a state of the invariant to another, or is stuck. -/
theorem runsAreNeverRefused : Obligations.RunsAreNeverRefused := fun n _ h => runSteps_goesOnOrStuck n h

end Sys2Proof.Machine
